-- ==== Sys2Proof/Word.lean ====
section
/-! DEFINITION. The word types of the block: 32-bit registers, bytes, 16-bit PCM samples and hardware levels. -/

namespace Sys2Proof

/-- A 32-bit register or command word (10_state.md R30, 30_encoding.md R84). -/
abbrev Word := BitVec 32

/-- One byte of system memory or of ring storage (20_memory.md R60). -/
abbrev Byte := BitVec 8

/-- One hardware level: unsigned 16 bits (00_scope.md R7, "level width"). -/
abbrev Level := BitVec 16

/-- One PCM sample: signed 16 bits, two's complement (00_scope.md R7, "PCM sample"). -/
abbrev Sample := BitVec 16

end Sys2Proof
end

