-- ==== Sys2Proof/Config.lean ====
section
/-! DEFINITION. What an implementation fixes (00_scope.md R7) and the free values ("draws") of the spec.

The parameters are a record of plain data that `State` carries in a field no step changes (log entry 1): a
claim about every state then holds for every choice of the parameters. The parameters the spec marks OPEN have,
in the machine after reset, opaque values that no proof can see. The draws are opaque too. -/

namespace Sys2Proof.Config

/-- The implementation parameters of 00_scope.md R7. `NBUF` and `NCH_OUT` are fixed at 2 and so are not fields. -/
structure Params where
  /-- `AOE_BASE`, the base address of the register window (20_memory.md R60, R66). -/
  aoeBase : Word
  /-- `SYS_CLK_HZ`, the clock `ENG.INIT` fits against. -/
  sysClkHz : Nat
  /-- `BATCH`, frames per ping-pong buffer. -/
  batch : Nat
  /-- `WRAP_MIN`. -/
  wrapMin : Nat
  /-- `WRAP_MAX`. -/
  wrapMax : Nat
  /-- `D16_MIN`. -/
  d16Min : Nat
  /-- `D16_MAX`. -/
  d16Max : Nat
  /-- Numerator of the exact rational `FIT_EPS`. -/
  epsNum : Nat
  /-- Denominator of the exact rational `FIT_EPS`. -/
  epsDen : Nat
  /-- `RB_MAX_BYTES`, the largest ring the allocation may grant. -/
  rbMaxBytes : Nat
  /-- `PCT_MIN_X100`. -/
  pctMin : Nat
  /-- `PCT_MAX_X100`. -/
  pctMax : Nat
  /-- `RATE_MIN`. -/
  rateMin : Nat
  /-- `RATE_MAX`. -/
  rateMax : Nat
  /-- `PINS_VALID` as the list of the pin pairs (left, right) it holds of. -/
  pins : List (Nat × Nat)
  /-- The admitted system-memory addresses (20_memory.md R66), as (first address, number of bytes) ranges. -/
  admitted : List (Nat × Nat)
deriving DecidableEq, Repr

/-- OPEN: `AOE_BASE` (93_implementation_defined.md section 2). -/
opaque openBase : Word

/-- OPEN: `SYS_CLK_HZ` (R7, D20). -/
opaque openSysClkHz : Nat

/-- OPEN: `BATCH` before its bound is applied (R7, D25). -/
opaque openBatch : Nat

/-- OPEN: `RB_MAX_BYTES` (R7, D7). -/
opaque openRbMaxBytes : Nat

/-- OPEN: the pin pairs `PINS_VALID` holds of, before its bound is applied (R7, D37). -/
opaque openPins : List (Nat × Nat)

/-- OPEN: the admitted system-memory address ranges (20_memory.md R66). -/
opaque openAdmitted : List (Nat × Nat)

/-- Free value: the `c`-byte allocation that is the `n`-th draw succeeds (`ALLOC_OK`, R7). -/
opaque freeAlloc : Nat → Nat → Bool

/-- Free value: the two DMA channels of the `n`-th draw can be claimed (`DMA_CLAIM_OK`, R7). -/
opaque freeClaim : Nat → Bool

/-- Free value: the frame count the external provider answers at the `n`-th draw (42_engine.md R191). -/
opaque freeCount : Nat → BitVec 32

/-- Free value: sample `j` of frame `i` of the external provider's answer at the `n`-th draw (42_engine.md R191). -/
opaque freeSample : Nat → Nat → Nat → Sample

/-- Free value: a ring byte whose content the spec leaves unspecified (10_state.md R36). -/
opaque freeByte : Nat → Byte

/-- Free value: what a name of the host's program holds before a read has been kept under it (30_encoding.md R90). -/
opaque freeName : Nat → Word

/-- The parameters of the machine after reset: the spec's defaults (R7) where the parameter is not OPEN, the
opaque value, held to the bound R7 (or R162, for the pins) puts on it, where it is. -/
def platform : Params where
  aoeBase := openBase
  sysClkHz := openSysClkHz
  batch := min (max openBatch 1) 65535
  wrapMin := 255
  wrapMax := 4095
  d16Min := 16
  d16Max := 4095
  epsNum := 1
  epsDen := 2
  rbMaxBytes := openRbMaxBytes
  pctMin := 2500
  pctMax := 40000
  rateMin := 8000
  rateMax := 96000
  pins := openPins.filter (fun p => decide (p.1 < 256) && decide (p.2 < 256))
  admitted := openAdmitted

end Sys2Proof.Config
end

