-- ==== Sys2Proof/Syntax.lean ====
section
/-! DEFINITION. The commands of the block: one constructor per row of spec/opcode_table.json.
No command carries an operand in its word (30_encoding.md R87), so no constructor has an argument. -/

namespace Sys2Proof

/-- The host commands of 30_encoding.md R86. -/
inductive Instr where
  /-- NOP, R88. -/
  | nop
  /-- RB.INIT, R101. -/
  | rbInit
  /-- RB.WRITE, R102. -/
  | rbWrite
  /-- RB.READ, R103. -/
  | rbRead
  /-- RB.USED, R105. -/
  | rbUsed
  /-- RB.FREE, R106. -/
  | rbFree
  /-- RB.CLEAR, R107. -/
  | rbClear
  /-- RB.DESTROY, R108. -/
  | rbDestroy
  /-- FIT, R134. -/
  | fit
  /-- RATE.SET, R135. -/
  | rateSet
  /-- RATE.APPLY, R136. -/
  | rateApply
  /-- ENG.INIT, R162. -/
  | engInit
  /-- ENG.SETPROV, R163. -/
  | engSetprov
  /-- ENG.START, R164. -/
  | engStart
  /-- ENG.STOP, R165. -/
  | engStop
  /-- ENG.UNDERRUNS, R166. -/
  | engUnderruns
  /-- ENG.RATE, R167. -/
  | engRate
deriving DecidableEq, Repr

end Sys2Proof
end

