-- ==== Sys2Proof/WellFormed.lean ====
section
/-! DEFINITION. Well-formedness: of a command (nothing to check: no command has an operand), of a raw command
word split into its two fields, and of the implementation parameters. -/

namespace Sys2Proof

/-- A command has no operand field (30_encoding.md R87), so every command is well-formed. -/
def Instr.wf (_ : Instr) : Bool := true

/-- A command word in format CMDW, field by field (30_encoding.md R84). -/
structure CmdWord where
  /-- Bits 7:0. -/
  opcode : BitVec 8
  /-- Bits 31:8. -/
  zero : BitVec 24
deriving DecidableEq, Repr

/-- The opcodes listed in 30_encoding.md R86. -/
def listedOpcodes : List (BitVec 8) :=
  [0x00, 0x01, 0x02, 0x03, 0x04, 0x05, 0x06, 0x07, 0x10, 0x11, 0x12, 0x20, 0x21, 0x22, 0x23, 0x24, 0x25]

/-- The two conditions of 30_encoding.md R85 under which a word decodes. -/
def CmdWord.wf (c : CmdWord) : Bool := c.zero == 0 && listedOpcodes.contains c.opcode

/-- The constraints of 00_scope.md R7 on the parameters, with R162's on the pins and a positive denominator. -/
def Config.Params.wf (p : Config.Params) : Bool :=
  decide (1 ≤ p.wrapMin) && decide (p.wrapMin ≤ p.wrapMax) && decide (p.wrapMax ≤ 65535) &&
  decide (1 ≤ p.d16Min) && decide (p.d16Min ≤ p.d16Max) &&
  decide (1 ≤ p.batch) && decide (p.batch ≤ 65535) && decide (0 < p.epsDen) &&
  p.pins.all (fun q => decide (q.1 < 256) && decide (q.2 < 256))

end Sys2Proof
end

