-- ==== Sys2Proof/Decode.lean ====
section
/-! DEFINITION. Decoding of a command word, total on any 32 bits and rejecting by name, and the encoder. -/

namespace Sys2Proof

/-- Why a command word does not decode (30_encoding.md R85). -/
inductive DecodeError where
  /-- Bits 31:8 are not all 0. -/
  | zeroField
  /-- Bits 7:0 are an opcode R86 does not list. -/
  | reservedOpcode
deriving DecidableEq, Repr

/-- The fields of a command word in format CMDW (30_encoding.md R84). -/
def cmdWordOf (w : Word) : CmdWord where
  opcode := w.extractLsb' 0 8
  zero := w.extractLsb' 8 24

/-- The opcode map of 30_encoding.md R86, read from the opcode. -/
def instrOfOpcode (n : Nat) : Option Instr :=
  match n with
  | 0x00 => some .nop
  | 0x01 => some .rbInit
  | 0x02 => some .rbWrite
  | 0x03 => some .rbRead
  | 0x04 => some .rbUsed
  | 0x05 => some .rbFree
  | 0x06 => some .rbClear
  | 0x07 => some .rbDestroy
  | 0x10 => some .fit
  | 0x11 => some .rateSet
  | 0x12 => some .rateApply
  | 0x20 => some .engInit
  | 0x21 => some .engSetprov
  | 0x22 => some .engStart
  | 0x23 => some .engStop
  | 0x24 => some .engUnderruns
  | 0x25 => some .engRate
  | _ => none

/-- Decode (30_encoding.md R85): the ZERO field first, then the opcode. -/
def decode (w : Word) : Except DecodeError Instr :=
  if (cmdWordOf w).zero = 0 then
    match instrOfOpcode (cmdWordOf w).opcode.toNat with
    | some i => .ok i
    | none => .error .reservedOpcode
  else .error .zeroField

/-- The opcode map of 30_encoding.md R86, read from the command. -/
def opcodeOf (i : Instr) : BitVec 8 :=
  match i with
  | .nop => 0x00
  | .rbInit => 0x01
  | .rbWrite => 0x02
  | .rbRead => 0x03
  | .rbUsed => 0x04
  | .rbFree => 0x05
  | .rbClear => 0x06
  | .rbDestroy => 0x07
  | .fit => 0x10
  | .rateSet => 0x11
  | .rateApply => 0x12
  | .engInit => 0x20
  | .engSetprov => 0x21
  | .engStart => 0x22
  | .engStop => 0x23
  | .engUnderruns => 0x24
  | .engRate => 0x25

/-- The command word of a command: ZERO in bits 31:8, the opcode in bits 7:0 (30_encoding.md R84). -/
def encode (i : Instr) : Word := (0 : BitVec 24) ++ opcodeOf i

/-- The decoder on a row of spec/opcode_table.json: the low `nbits` bits of `w` as one command word. A command
word reaches the block as one whole 32-bit register write (20_memory.md R62), so no byte order enters. -/
def decodeTableWord (nbits w : Nat) : Option Instr :=
  match decode (BitVec.ofNat 32 (w % 2 ^ nbits)) with
  | .ok i => some i
  | .error _ => none

end Sys2Proof
end

