-- ==== Sys2Proof/Machine/State.lean ====
section
/-! DEFINITION. The state of the machine as plain data, its reasons to stop, and the state after reset.

Every register, status field, buffer and hidden element of 10_state.md has one home here. Three fields are the
MODEL's own and no part of the block: `cfg` (the parameters of 00_scope.md R7, log entry 1), `mem` (the platform's
system memory, 10_state.md R51) and `env` (what the outside world does next: which agent moves, the host's queued
accesses, the answers to draws; log entries 2 to 6). -/

namespace Sys2Proof.Machine

/-- The result codes of 60_exceptions.md R220. Codes 7 to 15 are never produced, so they are not here. -/
inductive ErrCode where
  /-- 0, OK. -/
  | ok
  /-- 1, ERR_STATE. -/
  | state
  /-- 2, ERR_CONFIG. -/
  | config
  /-- 3, ERR_ALLOC. -/
  | alloc
  /-- 4, ERR_RESOURCE. -/
  | resource
  /-- 5, ERR_BUS. -/
  | bus
  /-- 6, ERR_ILLEGAL. -/
  | illegal
deriving DecidableEq, Repr

/-- STATUS.PROV (10_state.md R32): the registered provider. Value 3 never occurs, so it is not here. -/
inductive Prov where
  /-- 0, NONE. -/
  | none
  /-- 1, RING: the ring-drain provider. -/
  | ring
  /-- 2, EXTERNAL. -/
  | external
deriving DecidableEq, Repr

/-- The index of one of the two ping-pong buffers (10_state.md R46). -/
inductive Slot where
  /-- Index 0. -/
  | b0
  /-- Index 1. -/
  | b1
deriving DecidableEq, Repr

/-- One level per output channel: index 0 left, index 1 right (00_scope.md R10). -/
structure Stereo where
  /-- Channel 0. -/
  left : Level
  /-- Channel 1. -/
  right : Level
deriving DecidableEq, Repr

/-- One ping-pong buffer: BATCH levels per output channel (10_state.md R45). -/
structure Bank where
  /-- `buf[b][0]`. -/
  left : List Level
  /-- `buf[b][1]`. -/
  right : List Level
deriving DecidableEq, Repr

/-- One frame of PCM: sample 0 and sample 1 (00_scope.md R8). A mono frame's sample 1 is never used (R170). -/
structure Frame where
  /-- `pcm[i][0]`. -/
  ch0 : Sample
  /-- `pcm[i][1]`. -/
  ch1 : Sample
deriving DecidableEq, Repr

/-- An answer of the external provider (42_engine.md R191): the count it claims and the frames it gives. Where the
count asks for frames the list does not hold, their samples are free values. -/
structure Answer where
  /-- `k0`, a signed 32-bit value. -/
  count : BitVec 32
  /-- The frames given. -/
  frames : List Frame
deriving DecidableEq, Repr

/-- ARG0 to ARG3 (10_state.md R30). -/
structure ArgRegs where
  /-- ARG0. -/
  a0 : Word
  /-- ARG1. -/
  a1 : Word
  /-- ARG2. -/
  a2 : Word
  /-- ARG3. -/
  a3 : Word
deriving DecidableEq, Repr

/-- RES0 to RES3 (10_state.md R30). -/
structure ResRegs where
  /-- RES0. -/
  r0 : Word
  /-- RES1. -/
  r1 : Word
  /-- RES2. -/
  r2 : Word
  /-- RES3. -/
  r3 : Word
deriving DecidableEq, Repr

/-- The Ring Buffer (10_state.md R32 to R36). -/
structure Ring where
  /-- STATUS.RB_PRESENT. -/
  present : Bool
  /-- RB_CAP. -/
  cap : Word
  /-- RB_RD. -/
  rd : Word
  /-- RB_WR. -/
  wr : Word
  /-- The ring storage, `RB_CAP` bytes. -/
  bytes : List Byte
deriving DecidableEq, Repr

/-- The output session (10_state.md R37 to R41) with STATUS.ENG_CFG. -/
structure Session where
  /-- STATUS.ENG_CFG. -/
  configured : Bool
  /-- ENG_SRATE. -/
  srate : Word
  /-- ENG_CFG bits 7:0, `pin_left`. -/
  pinL : BitVec 8
  /-- ENG_CFG bits 15:8, `pin_right`. -/
  pinR : BitVec 8
  /-- ENG_CFG bits 17:16, the channel count. -/
  nch : BitVec 2
  /-- ENG_WRAP bits 15:0. -/
  wrap : BitVec 16
  /-- ENG_DIV bits 11:0, D16. -/
  div : BitVec 12
  /-- ENG_RATE. -/
  rate : Word
  /-- ENG_RATE_FRAC bits 15:0. -/
  rateFrac : BitVec 16
deriving DecidableEq, Repr

/-- The Audio Output Engine: its STATUS fields (10_state.md R32), the underrun counter and output levels (R42, R44),
the ping-pong buffers and the hidden state (R45 to R49), and the DMA channel claim (60_exceptions.md R232). -/
structure Engine where
  /-- STATUS.PROV. -/
  prov : Prov
  /-- STATUS.RUNNING. -/
  running : Bool
  /-- STATUS.PLAY_IDX. -/
  playIdx : Slot
  /-- STATUS.OUT_EN. -/
  outEn : Bool
  /-- STATUS.ARMED. -/
  armed : Bool
  /-- STATUS.IRQ_PEND. -/
  irqPend : Bool
  /-- STATUS.IN_HANDLER. -/
  inHandler : Bool
  /-- The two DMA channels are claimed. -/
  dmaClaimed : Bool
  /-- DMA_IDX. -/
  dmaIdx : Nat
  /-- FILL_TGT. -/
  fillTgt : Slot
  /-- `buf[0]`. -/
  buf0 : Bank
  /-- `buf[1]`. -/
  buf1 : Bank
  /-- LAST. -/
  last : Stereo
  /-- OUT, the levels of OUT_LEVEL. -/
  out : Stereo
  /-- ENG_UNDERRUN. -/
  underrun : Word
deriving DecidableEq, Repr

/-- System memory (20_memory.md R60): the listed bytes, addresses strictly rising. -/
abbrev Memory := List Host.Cell

/-- Which way a ring command copies. -/
inductive Direction where
  /-- RB.WRITE: system memory into the ring. -/
  | intoRing
  /-- RB.READ: the ring into system memory. -/
  | outOfRing
deriving DecidableEq, Repr

/-- A ring command between its SNAPSHOT and its PUBLISH (40_ring_buffer.md R100): what the SNAPSHOT fixed, and how
many bytes have been copied. -/
structure RingJob where
  /-- The command. -/
  dir : Direction
  /-- `src` or `dst`, the operand ARG0. -/
  addr : Word
  /-- The snapshot of the command's own cursor: `w` for RB.WRITE, `r` for RB.READ. -/
  cur : Word
  /-- `acc` for RB.WRITE, `k` for RB.READ. -/
  total : Nat
  /-- Bytes already copied. -/
  moved : Nat
deriving DecidableEq, Repr

/-- The width of a register access. -/
inductive Width where
  /-- 8 bits. -/
  | w8
  /-- 16 bits. -/
  | w16
  /-- 32 bits. -/
  | w32
deriving DecidableEq, Repr

/-- One action of the host's program (30_encoding.md R90, R91). Offsets are bytes from `AOE_BASE`. -/
inductive HostOp where
  /-- `RD`: read the register at `off`. -/
  | read (w : Width) (off : BitVec 8)
  /-- `WR`: write `v` to the register at `off`. -/
  | write (w : Width) (off : BitVec 8) (v : Word)
  /-- `RD <reg> -> name`: read the register at `off` and keep its value under a name. -/
  | readTo (name : Nat) (off : BitVec 8)
  /-- `WR` of the value kept under a name, as in `ENG.OPEN`. -/
  | writeKept (name : Nat) (off : BitVec 8)
  /-- `CHK`: read STATUS, keep it as `s`, and go on only if its ERR field is 0. -/
  | check
deriving DecidableEq, Repr

/-- Which agent moves next (10_state.md R20), or what the outside world does. -/
inductive Turn where
  /-- The sample clock takes a tick, if one is enabled. -/
  | tick
  /-- The interrupt context takes its enabled step, if it has one. -/
  | irq
  /-- The host acts; a ring command in progress runs to its end. -/
  | host
  /-- The host acts; of a ring command, one phase or one byte copy (40_ring_buffer.md R100). -/
  | phase
  /-- A register read from any context, at any time (30_encoding.md R83). -/
  | peek (off : BitVec 8)
  /-- The platform stores a byte in its own system memory (10_state.md R51). -/
  | platform (addr : Word) (b : Byte)
  /-- The block's reset input (70_reset_and_hazards.md R260). -/
  | reset
deriving DecidableEq, Repr

/-- The MODEL's own field: the outside world as data. -/
structure Env where
  /-- The turns to come; where it is empty, `Sys2Proof.Machine.defaultTurn` decides. -/
  sched : List Turn
  /-- The host's program: the accesses it has still to make. -/
  host : List HostOp
  /-- The host's present turn is one phase of a ring command (`Turn.phase`). -/
  phased : Bool
  /-- Answers to `ALLOC_OK`, in order; after them come free values. -/
  alloc : List Bool
  /-- Answers to `DMA_CLAIM_OK`, in order; after them come free values. -/
  claim : List Bool
  /-- Answers of the external provider, in order; after them come free values. -/
  answers : List Answer
  /-- How many draws have been taken: the argument of the next free value. -/
  drawn : Nat
  /-- The values register reads have returned, the latest first. -/
  reads : List Word
  /-- What the host's program keeps under its names, the latest first (30_encoding.md R90). -/
  kept : List (Nat × Word)
deriving DecidableEq, Repr

/-- The whole machine. -/
structure State where
  /-- The implementation parameters; no step changes them. -/
  cfg : Config.Params
  /-- ARG0 to ARG3. -/
  args : ArgRegs
  /-- RES0 to RES3. -/
  res : ResRegs
  /-- STATUS.ERR. -/
  err : ErrCode
  /-- The Ring Buffer. -/
  ring : Ring
  /-- The output session. -/
  sess : Session
  /-- The Audio Output Engine. -/
  eng : Engine
  /-- RATE_SCALE. -/
  rateScale : Word
  /-- System memory. -/
  mem : Memory
  /-- The ring command in progress, if one is pre-empted. -/
  job : Option RingJob
  /-- The outside world. -/
  env : Env
deriving DecidableEq, Repr

/-- Why the machine stops with a fault: never. No rule of the spec gives the block a fault: a command reports an
error code and the machine goes on (60_exceptions.md R223), and internal operations raise no error (R236). Nobody
raises one; safe. -/
inductive Fault
deriving DecidableEq, Repr

/-- Why the model has no transition. -/
inductive Refusal where
  /-- An instruction without a meaning yet. No arm of `exec` raises it; safe. -/
  | notModelled (mnemonic : String)
  /-- A register access of 8 or 16 bits: 20_memory.md R62 leaves its outcome undefined and asks a model to refuse it.
  Raised by the host's access, never by a command; safe. -/
  | subWordAccess
  /-- A register access at an offset that is no multiple of 4, refused by 20_memory.md R62 as well. Raised by an access,
  never by a command; safe. -/
  | misalignedAccess
deriving DecidableEq, Repr

/-- What a step of this machine answers. -/
abbrev Out := Host.Outcome State Fault Refusal

/-- No ring allocated (70_reset_and_hazards.md R260). -/
def Ring.absent : Ring where
  present := false
  cap := 0
  rd := 0
  wr := 0
  bytes := []

/-- No session configured (70_reset_and_hazards.md R260). -/
def Session.unset : Session where
  configured := false
  srate := 0
  pinL := 0
  pinR := 0
  nch := 0
  wrap := 0
  div := 0
  rate := 0
  rateFrac := 0

/-- A ping-pong buffer with every element at level `v`. -/
def Bank.fillWith (n : Nat) (v : Stereo) : Bank where
  left := List.replicate n v.left
  right := List.replicate n v.right

/-- The engine after reset, with BATCH elements in each buffer (70_reset_and_hazards.md R260). -/
def Engine.idle (batch : Nat) : Engine where
  prov := .none
  running := false
  playIdx := .b0
  outEn := false
  armed := false
  irqPend := false
  inHandler := false
  dmaClaimed := false
  dmaIdx := 0
  fillTgt := .b0
  buf0 := Bank.fillWith batch ⟨0, 0⟩
  buf1 := Bank.fillWith batch ⟨0, 0⟩
  last := ⟨0, 0⟩
  out := ⟨0, 0⟩
  underrun := 0

/-- Nothing queued, nothing drawn, nothing read. -/
def Env.empty : Env where
  sched := []
  host := []
  phased := false
  alloc := []
  claim := []
  answers := []
  drawn := 0
  reads := []
  kept := []

/-- The block at its reset values (70_reset_and_hazards.md R260) on a platform with the given parameters, system
memory and outside world, which the reset input does not touch. -/
def State.initial (cfg : Config.Params) (mem : Memory) (env : Env) : State where
  cfg := cfg
  args := ⟨0, 0, 0, 0⟩
  res := ⟨0, 0, 0, 0⟩
  err := .ok
  ring := Ring.absent
  sess := Session.unset
  eng := Engine.idle cfg.batch
  rateScale := 65536
  mem := mem
  job := none
  env := env

/-- The machine right after reset. -/
def State.reset : State := State.initial Config.platform [] Env.empty

end Sys2Proof.Machine
end

