-- ==== Sys2Proof/Machine/Operands.lean ====
section
/-! DEFINITION. The arithmetic of operands and cursors, and the level map. -/

namespace Sys2Proof.Machine

/-- `clamp(x, lo, hi) = min(max(x, lo), hi)` (00_scope.md R9). -/
def clamp (x lo hi : Nat) : Nat := min (max x lo) hi

/-- A frame count clamped to `[0, batch]` (42_engine.md R170). -/
def clampCount (k0 : Int) (batch : Nat) : Nat := (min (max k0 0) (batch : Int)).toNat

/-- The frame size `FB = 2 * NCH` (00_scope.md R8). -/
def frameBytes (nch : Nat) : Nat := 2 * nch

/-- `(w - r) mod C` on integers (10_state.md R36, 00_scope.md R9). -/
def cursorGap (cap rd wr : Nat) : Nat := (((wr : Int) - (rd : Int)) % (cap : Int)).toNat

/-- The occupancy `used` (10_state.md R36). -/
def Ring.used (r : Ring) : Nat := cursorGap r.cap.toNat r.rd.toNat r.wr.toNat

/-- The free space `C - 1 - used` (10_state.md R36). -/
def Ring.free (r : Ring) : Nat := r.cap.toNat - 1 - r.used

/-- The storage index of the byte `i` places after cursor `c` (40_ring_buffer.md R102, R103). -/
def Ring.slot (r : Ring) (c : Word) (i : Nat) : Nat := (c.toNat + i) % r.cap.toNat

/-- A cursor moved forward by `n` bytes (40_ring_buffer.md R102, R103). -/
def Ring.advance (r : Ring) (c : Word) (n : Nat) : Word := BitVec.ofNat 32 (r.slot c n)

/-- `ring[(c + i) mod C]`. -/
def Ring.byteAt (r : Ring) (c : Word) (i : Nat) : Byte := r.bytes.getD (r.slot c i) 0

/-- The ring with `ring[(c + i) mod C] <- b`. -/
def Ring.putAt (r : Ring) (c : Word) (i : Nat) (b : Byte) : Ring :=
  { r with bytes := r.bytes.set (r.slot c i) b }

/-- `sext_16({b1, b0})`: the little-endian PCM sample in two ring bytes (20_memory.md R61). -/
def sampleOfBytes (b0 b1 : Byte) : Sample := b1 ++ b0

/-- The sample whose first byte is `off` bytes after the read cursor (42_engine.md R190). -/
def Ring.sampleAt (r : Ring) (off : Nat) : Sample :=
  sampleOfBytes (r.byteAt r.rd off) (r.byteAt r.rd (off + 1))

/-- Frame `i` after the read cursor: channel 0 is the left one; a mono frame has one sample (42_engine.md R190). -/
def Ring.frameAt (r : Ring) (nch : BitVec 2) (i : Nat) : Frame :=
  let at0 := frameBytes nch.toNat * i
  ⟨r.sampleAt at0, if nch = 2 then r.sampleAt (at0 + 2) else r.sampleAt at0⟩

/-- The level map `((s + 32768) * (W + 1)) >> 16` (42_engine.md R160). -/
def levelOf (wrap : Nat) (s : Sample) : Level :=
  BitVec.ofNat 16 (((s.toInt + 32768).toNat * (wrap + 1)) / 65536)

/-- The silence level `S = (W + 1) >> 1` (42_engine.md R160). -/
def silence (wrap : Nat) : Level := BitVec.ofNat 16 ((wrap + 1) / 2)

/-- The level the left output plays for a frame (42_engine.md R170). -/
def leftLevel (wrap : Nat) (f : Frame) : Level := levelOf wrap f.ch0

/-- The level the right output plays for a frame: a mono sample drives both (42_engine.md R170). -/
def rightLevel (wrap : Nat) (nch : BitVec 2) (f : Frame) : Level :=
  levelOf wrap (if nch = 2 then f.ch1 else f.ch0)

/-- The buffer index that is not `b` (10_state.md R46). -/
def Slot.other (b : Slot) : Slot :=
  match b with
  | .b0 => .b1
  | .b1 => .b0

/-- The address of the register at offset `off` (20_memory.md R66). -/
def busAddress (p : Config.Params) (off : BitVec 8) : Word := p.aoeBase + off.setWidth 32

/-- The offset of a bus address, if it lies in the register window (20_memory.md R60). -/
def windowOffset (p : Config.Params) (a : Word) : Option (BitVec 8) :=
  if (a - p.aoeBase).toNat < 256 then some ((a - p.aoeBase).setWidth 8) else none

end Sys2Proof.Machine
end

