-- ==== Sys2Proof/Machine/Flags.lean ====
section
/-! DEFINITION. The STATUS fields as bits, and the register window as the host reads it. The block has no
condition flags (10_state.md R50). -/

namespace Sys2Proof.Machine

/-- The numbers of 60_exceptions.md R220. -/
def ErrCode.code (e : ErrCode) : BitVec 4 :=
  match e with
  | .ok => 0
  | .state => 1
  | .config => 2
  | .alloc => 3
  | .resource => 4
  | .bus => 5
  | .illegal => 6

/-- The numbers of STATUS.PROV (10_state.md R32). -/
def Prov.code (p : Prov) : BitVec 2 :=
  match p with
  | .none => 0
  | .ring => 1
  | .external => 2

/-- The provider a number registers (42_engine.md R163). -/
def Prov.ofWord (m : Word) : Prov :=
  if m = 1 then .ring else if m = 2 then .external else .none

/-- A ping-pong index as one bit. -/
def Slot.bit (b : Slot) : BitVec 1 :=
  match b with
  | .b0 => 0
  | .b1 => 1

/-- STATUS (10_state.md R32), high field first. -/
def State.statusWord (s : State) : Word :=
  (0 : BitVec 18) ++ BitVec.ofBool s.eng.inHandler ++ BitVec.ofBool s.eng.irqPend ++
    BitVec.ofBool s.eng.armed ++ BitVec.ofBool s.eng.outEn ++ s.eng.playIdx.bit ++
    BitVec.ofBool s.eng.running ++ s.eng.prov.code ++ BitVec.ofBool s.sess.configured ++
    BitVec.ofBool s.ring.present ++ s.err.code

/-- ENG_CFG (10_state.md R38). -/
def Session.cfgWord (e : Session) : Word := (0 : BitVec 14) ++ e.nch ++ e.pinR ++ e.pinL

/-- OUT_LEVEL (10_state.md R44): left in bits 15:0. -/
def Stereo.word (v : Stereo) : Word := v.right ++ v.left

/-- The register window as the host reads it (30_encoding.md R80, R81): CMD and every reserved offset read 0. -/
def State.readReg (s : State) (off : BitVec 8) : Word :=
  match off.toNat with
  | 0x04 => s.statusWord
  | 0x08 => s.args.a0
  | 0x0C => s.args.a1
  | 0x10 => s.args.a2
  | 0x14 => s.args.a3
  | 0x18 => s.res.r0
  | 0x1C => s.res.r1
  | 0x20 => s.res.r2
  | 0x24 => s.res.r3
  | 0x28 => s.ring.cap
  | 0x2C => s.ring.rd
  | 0x30 => s.ring.wr
  | 0x34 => s.sess.srate
  | 0x38 => s.sess.cfgWord
  | 0x3C => s.sess.wrap.setWidth 32
  | 0x40 => s.sess.div.setWidth 32
  | 0x44 => s.sess.rate
  | 0x48 => s.sess.rateFrac.setWidth 32
  | 0x4C => s.eng.underrun
  | 0x50 => s.rateScale
  | 0x54 => s.eng.out.word
  | _ => 0

/-- A write to ARG0..ARG3 stores the value; a write elsewhere in the window is ignored (30_encoding.md R82). -/
def ArgRegs.store (g : ArgRegs) (off : BitVec 8) (v : Word) : ArgRegs :=
  match off.toNat with
  | 0x08 => { g with a0 := v }
  | 0x0C => { g with a1 := v }
  | 0x10 => { g with a2 := v }
  | 0x14 => { g with a3 := v }
  | _ => g

end Sys2Proof.Machine
end

