-- ==== Sys2Proof/Machine/Ops.lean ====
section
/-! DEFINITION. The named operations over memory, registers and draws; how a command ends (00_scope.md R12), which is
this block's way of reporting an exception; the entry to and return from the completion interrupt
(60_exceptions.md R228, R229); and reset. -/

namespace Sys2Proof.Machine

/-- What an address of system memory that nothing has stored to reads as (log entry 7, DESIGN CHOICE, unsafe). -/
def Memory.unlisted : Byte := 0

/-- The byte of system memory at an address. -/
def Memory.read (m : Memory) (a : Nat) : Byte :=
  match m with
  | [] => Memory.unlisted
  | c :: rest => if c.1 = a then c.2 else Memory.read rest a

/-- A cell in front of a canonical list, left out where it holds what an unlisted address reads as. -/
def Memory.cons (a : Nat) (b : Byte) (m : Memory) : Memory :=
  if b = Memory.unlisted then m else (a, b) :: m

/-- Store one byte of system memory, keeping the canonical form. -/
def Memory.write (m : Memory) (a : Nat) (b : Byte) : Memory :=
  match m with
  | [] => Memory.cons a b []
  | c :: rest =>
    if a < c.1 then Memory.cons a b (c :: rest)
    else if a = c.1 then Memory.cons a b rest
    else c :: Memory.write rest a b

/-- The canonical form from a lowest allowed address on: addresses rise, lie below 2^32, and no listed byte is what
an unlisted address reads as. -/
def Memory.wfFrom (lo : Nat) (m : Memory) : Bool :=
  match m with
  | [] => true
  | c :: rest =>
    decide (lo ≤ c.1) && decide (c.1 < 2 ^ 32) && decide (c.2 ≠ Memory.unlisted) && Memory.wfFrom (c.1 + 1) rest

/-- The canonical form of system memory. -/
def Memory.wf (m : Memory) : Bool := Memory.wfFrom 0 m

/-- The platform admits an access to this byte address (20_memory.md R66, 00_scope.md R11). -/
def admits (p : Config.Params) (a : Word) : Bool :=
  p.admitted.any (fun r => decide (r.1 ≤ a.toNat) && decide (a.toNat < r.1 + r.2))

/-- Byte `i` of a command's range in system memory: `(addr + i) mod 2^32` (20_memory.md R63). -/
def busByte (addr : Word) (i : Nat) : Word := addr + BitVec.ofNat 32 i

/-- The state with STATUS.ERR set. -/
def State.setErr (e : ErrCode) (s : State) : State := { s with err := e }

/-- `RES0 <- v`. -/
def State.setRes0 (v : Word) (s : State) : State := { s with res := { s.res with r0 := v } }

/-- `RES0 <- v0; RES1 <- v1`. -/
def State.setRes01 (v0 v1 : Word) (s : State) : State := { s with res := { s.res with r0 := v0, r1 := v1 } }

/-- All four RES registers. -/
def State.setRes (v0 v1 v2 v3 : Word) (s : State) : State := { s with res := ⟨v0, v1, v2, v3⟩ }

/-- `raise CmdError(e)` (00_scope.md R12): the command ends at once, only STATUS.ERR changes. -/
def raise (e : ErrCode) (s : State) : Out := .next (s.setErr e)

/-- `done` (00_scope.md R12): the command completes, STATUS.ERR <- 0. -/
def done (s : State) : Out := .next (s.setErr .ok)

/-- The ping-pong buffer at an index. -/
def Engine.bank (e : Engine) (b : Slot) : Bank :=
  match b with
  | .b0 => e.buf0
  | .b1 => e.buf1

/-- The engine with the ping-pong buffer at an index replaced. -/
def Engine.setBank (e : Engine) (b : Slot) (k : Bank) : Engine :=
  match b with
  | .b0 => { e with buf0 := k }
  | .b1 => { e with buf1 := k }

/-- `ALLOC_OK(c)` (00_scope.md R7): a draw, false whenever `c > RB_MAX_BYTES`. -/
def State.allocOk (s : State) (c : Nat) : Bool :=
  decide (c ≤ s.cfg.rbMaxBytes) &&
    match s.env.alloc with
    | b :: _ => b
    | [] => Config.freeAlloc s.env.drawn c

/-- The state after the draw of `ALLOC_OK`. -/
def State.tookAlloc (s : State) : State :=
  { s with env := { s.env with alloc := s.env.alloc.tail, drawn := s.env.drawn + 1 } }

/-- `DMA_CLAIM_OK` (00_scope.md R7): a draw. -/
def State.claimOk (s : State) : Bool :=
  match s.env.claim with
  | b :: _ => b
  | [] => Config.freeClaim s.env.drawn

/-- The state after the draw of `DMA_CLAIM_OK`. -/
def State.tookClaim (s : State) : State :=
  { s with env := { s.env with claim := s.env.claim.tail, drawn := s.env.drawn + 1 } }

/-- The external provider's next answer (42_engine.md R191): a draw. -/
def State.nextAnswer (s : State) : Answer :=
  match s.env.answers with
  | a :: _ => a
  | [] => ⟨Config.freeCount s.env.drawn, []⟩

/-- The state after the external provider has answered. -/
def State.tookAnswer (s : State) : State :=
  { s with env := { s.env with answers := s.env.answers.tail, drawn := s.env.drawn + 1 } }

/-- Frame `i` of an answer: the one given, or free samples where the answer gives none (42_engine.md R191). -/
def State.answerFrame (s : State) (i : Nat) : Frame :=
  match s.nextAnswer.frames[i]? with
  | some f => f
  | none => ⟨Config.freeSample s.env.drawn i 0, Config.freeSample s.env.drawn i 1⟩

/-- `n` unspecified bytes, the free values from draw `d` on (10_state.md R36). -/
def freeBytes (d n : Nat) : List Byte := (List.range n).map (fun i => Config.freeByte (d + i))

/-- A ring of `c` bytes with unspecified contents in place of the present one (40_ring_buffer.md R101). -/
def State.allocRing (c : Word) (s : State) : State :=
  { s with
    ring := ⟨true, c, 0, 0, freeBytes s.env.drawn c.toNat⟩
    env := { s.env with drawn := s.env.drawn + c.toNat } }

/-- The ring's storage with the `n` bytes from cursor `c` on replaced by the free values from draw `d` on. -/
def Ring.smear (r : Ring) (c : Word) (d n : Nat) : Ring :=
  match n with
  | 0 => r
  | k + 1 => (r.smear c d k).putAt c k (Config.freeByte (d + k))

/-- The engine is draining the ring, so it is the ring's consumer (40_ring_buffer.md R104). -/
def State.draining (s : State) : Bool := decide (s.eng.prov = .ring) && s.eng.running

/-- Completion entry is enabled (42_engine.md R180, 60_exceptions.md R226). -/
def State.entryEnabled (s : State) : Bool := s.eng.irqPend && !s.eng.inHandler && s.eng.running

/-- The interrupt context has an enabled step: completion entry, or the pending fill (42_engine.md R180, R181). -/
def State.interruptEnabled (s : State) : Bool := s.eng.inHandler || s.entryEnabled

/-- Interrupt entry (42_engine.md R180, 60_exceptions.md R228): save the finished buffer's index in FILL_TGT, re-arm on
the other buffer and flip PLAY_IDX, clear IRQ_PEND, set IN_HANDLER; one atomic step. -/
def interruptEntry (s : State) : State :=
  { s with
    eng := { s.eng with
      dmaIdx := 0
      armed := true
      playIdx := s.eng.playIdx.other
      irqPend := false
      inHandler := true
      fillTgt := s.eng.playIdx } }

/-- Interrupt return (60_exceptions.md R229): STATUS.IN_HANDLER <- 0, nothing to restore. -/
def interruptReturn (s : State) : State := { s with eng := { s.eng with inHandler := false } }

/-- Reset (70_reset_and_hazards.md R260): every element of the block's state at its reset value, from any state. The
parameters, system memory and the outside world are not the block's. -/
def resetInput (s : State) : State := State.initial s.cfg s.mem s.env

/-- The value a register read returns, recorded for whoever made the read. -/
def State.see (v : Word) (s : State) : State := { s with env := { s.env with reads := v :: s.env.reads } }

/-- `-> name`: the host's program keeps a value under a name (30_encoding.md R90). -/
def State.keep (name : Nat) (v : Word) (s : State) : State :=
  { s with env := { s.env with kept := (name, v) :: s.env.kept } }

/-- What the host's program holds under a name: the value kept last, a free value before any (log entry 6). -/
def State.keptAs (name : Nat) (s : State) : Word := (s.env.kept.lookup name).getD (Config.freeName name)

/-- The name `rate` of `ENG.OPEN` (30_encoding.md R91). -/
def rateName : Nat := 0

/-- The name `s` of `CHK` (30_encoding.md R91). -/
def statusName : Nat := 1

end Sys2Proof.Machine
end

