-- ==== Sys2Proof/Machine/Rate.lean ====
section
/-! DEFINITION. The Rate Fitter and rate scaling (41_rate.md). The fitter's rationals are exact: an achieved rate
`16K / ((W+1) * D16)` and its error are held as a numerator over the denominator `(W+1) * D16`, and two errors are
compared by cross-multiplication. -/

namespace Sys2Proof.Machine

/-- A candidate of the search, or its answer: the wrap `W` and the divider `D16`. -/
structure Fitted where
  /-- `W`. -/
  wrap : Nat
  /-- `D16`. -/
  d16 : Nat
deriving DecidableEq, Repr

/-- The denominator of the achieved rate (41_rate.md R131). -/
def Fitted.den (c : Fitted) : Nat := (c.wrap + 1) * c.d16

/-- The numerator of `abs(A - T)` over `den` (41_rate.md R130). -/
def Fitted.errNum (c : Fitted) (t k : Nat) : Nat := (16 * k - t * c.den) + (t * c.den - 16 * k)

/-- The range test on the ideal divider (41_rate.md R130). -/
def fitRejects (p : Config.Params) (t k w : Nat) : Bool :=
  decide (16 * k < p.d16Min * t * (w + 1)) || decide (p.d16Max * t * (w + 1) < 16 * k)

/-- The candidate of a wrap value: `D16 = floor((32K + TP) / (2TP))` (41_rate.md R130, R132). -/
def fitCandidate (t k w : Nat) : Fitted where
  wrap := w
  d16 := (32 * k + t * (w + 1)) / (2 * t * (w + 1))

/-- `err < best.err`; any candidate beats none (41_rate.md R130). -/
def fitImproves (t k : Nat) (c : Fitted) (best : Option Fitted) : Bool :=
  match best with
  | none => true
  | some b => decide (c.errNum t k * b.den < b.errNum t k * c.den)

/-- `err < FIT_EPS` (41_rate.md R130). -/
def fitClose (p : Config.Params) (t k : Nat) (c : Fitted) : Bool :=
  decide (c.errNum t k * p.epsDen < p.epsNum * c.den)

/-- The search over the `n` wrap values from `w` on (41_rate.md R130). -/
def fitSearch (p : Config.Params) (t k : Nat) (n w : Nat) (best : Option Fitted) : Option Fitted :=
  match n with
  | 0 => best
  | n + 1 =>
    if fitRejects p t k w then fitSearch p t k n (w + 1) best
    else if fitImproves t k (fitCandidate t k w) best then
      if fitClose p t k (fitCandidate t k w) then some (fitCandidate t k w)
      else fitSearch p t k n (w + 1) (some (fitCandidate t k w))
    else fitSearch p t k n (w + 1) best

/-- `fit(T, K)` (41_rate.md R130). -/
def fit (p : Config.Params) (t k : Nat) : Option Fitted :=
  if t = 0 then none else fitSearch p t k (p.wrapMax + 1 - p.wrapMin) p.wrapMin none

/-- `floor(A)` (41_rate.md R134, 10_state.md R41), as a register holds it. -/
def Fitted.hz (c : Fitted) (k : Nat) : Word := BitVec.ofNat 32 (16 * k / c.den)

/-- `floor((A - floor(A)) * 65536)` (41_rate.md R134, 10_state.md R41). -/
def Fitted.frac (c : Fitted) (k : Nat) : BitVec 16 := BitVec.ofNat 16 (16 * k % c.den * 65536 / c.den)

/-- The four results FIT and ENG.INIT report (41_rate.md R134, 42_engine.md R162). -/
def State.setFitted (c : Fitted) (k : Nat) (s : State) : State :=
  s.setRes (BitVec.ofNat 32 c.wrap) (BitVec.ofNat 32 c.d16) (c.hz k) ((c.frac k).setWidth 32)

/-- FIT (41_rate.md R134). -/
def execFit (s : State) : Out :=
  match fit s.cfg s.args.a0.toNat s.args.a1.toNat with
  | none => raise .config s
  | some c => done (s.setFitted c s.args.a1.toNat)

/-- The multiplier for a percentage in hundredths of a percent (41_rate.md R135). -/
def scaleOf (p : Config.Params) (pct : Nat) : Word :=
  BitVec.ofNat 32 (clamp pct p.pctMin p.pctMax * 65536 / 10000)

/-- RATE.SET (41_rate.md R135). -/
def execRateSet (s : State) : Out :=
  done (({ s with rateScale := scaleOf s.cfg s.args.a0.toNat }).setRes0 (scaleOf s.cfg s.args.a0.toNat))

/-- A nominal rate scaled and clamped (41_rate.md R136). -/
def scaledRate (p : Config.Params) (scale nominal : Nat) : Word :=
  BitVec.ofNat 32 (clamp (nominal * scale / 65536) p.rateMin p.rateMax)

/-- RATE.APPLY (41_rate.md R136). -/
def execRateApply (s : State) : Out :=
  done (s.setRes0 (scaledRate s.cfg s.rateScale.toNat s.args.a0.toNat))

end Sys2Proof.Machine
end

