-- ==== Sys2Proof/Machine/Engine.lean ====
section
/-! DEFINITION. The Audio Output Engine (42_engine.md): the providers, the fill routine, the commands, and the steps
of the interrupt context and of the sample clock. -/

namespace Sys2Proof.Machine

/-- What `Provider.request` gives back: the claimed count, the frames, and the state it leaves (42_engine.md R170). -/
structure Request where
  /-- `k0`. -/
  count : Int
  /-- `pcm`. -/
  pcm : List Frame
  /-- The state after the request. -/
  after : State
deriving DecidableEq, Repr

/-- The frames the ring-drain provider takes: whole ones, at most `max` (R190). -/
def State.drainCount (s : State) (max : Nat) : Nat := min max (s.ring.used / frameBytes s.sess.nch.toNat)

/-- The ring-drain provider, one atomic step (R190). -/
def drainRing (max : Nat) (s : State) : Request :=
  if s.ring.present then
    { count := s.drainCount max
      pcm := (List.range (s.drainCount max)).map (s.ring.frameAt s.sess.nch)
      after := { s with
        ring := { s.ring with
          rd := s.ring.advance s.ring.rd (s.drainCount max * frameBytes s.sess.nch.toNat) } } }
  else { count := 0, pcm := [], after := s }

/-- The external provider (R191). -/
def askExternal (max : Nat) (s : State) : Request where
  count := s.nextAnswer.count.toInt
  pcm := (List.range (clampCount s.nextAnswer.count.toInt max)).map s.answerFrame
  after := s.tookAnswer

/-- `Provider.request(max)` (R190, R191, R192). -/
def request (max : Nat) (s : State) : Request :=
  match s.eng.prov with
  | .none => { count := 0, pcm := [], after := s }
  | .ring => drainRing max s
  | .external => askExternal max s

/-- `k`, the frames of an answer a fill uses (R170). -/
def fillCount (s : State) : Nat := clampCount (request s.cfg.batch s).count s.cfg.batch

/-- The left levels of the frames a fill uses (R170). -/
def fillLefts (s : State) : List Level :=
  ((request s.cfg.batch s).pcm.take (fillCount s)).map (leftLevel s.sess.wrap.toNat)

/-- The right levels of the frames a fill uses (R170). -/
def fillRights (s : State) : List Level :=
  ((request s.cfg.batch s).pcm.take (fillCount s)).map (rightLevel s.sess.wrap.toNat s.sess.nch)

/-- LAST after a fill: the last converted levels, or LAST as it was if there were none (R170). -/
def fillLast (s : State) : Stereo :=
  ⟨(fillLefts s).getLastD s.eng.last.left, (fillRights s).getLastD s.eng.last.right⟩

/-- The buffer a fill writes: the converted levels, padded with LAST (R170). -/
def fillBank (s : State) : Bank where
  left := fillLefts s ++ List.replicate (s.cfg.batch - fillCount s) (fillLast s).left
  right := fillRights s ++ List.replicate (s.cfg.batch - fillCount s) (fillLast s).right

/-- ENG_UNDERRUN after a fill: one more, modulo 2^32, if the fill was short (R170). -/
def fillUnderrun (s : State) : Word :=
  if fillCount s < s.cfg.batch then s.eng.underrun + 1 else s.eng.underrun

/-- `fill(b)` (R170). -/
def fill (b : Slot) (s : State) : State :=
  { (request s.cfg.batch s).after with
    eng := ({ s.eng with last := fillLast s, underrun := fillUnderrun s }).setBank b (fillBank s) }

/-- `PINS_VALID(l, r)` (00_scope.md R7). -/
def pinsValid (p : Config.Params) (l r : Word) : Bool := p.pins.contains (l.toNat, r.toNat)

/-- The session ENG.INIT configures (R162). -/
def newSession (s : State) (c : Fitted) : Session where
  configured := true
  srate := s.args.a2
  pinL := s.args.a0.setWidth 8
  pinR := s.args.a1.setWidth 8
  nch := s.args.a3.setWidth 2
  wrap := BitVec.ofNat 16 c.wrap
  div := BitVec.ofNat 12 c.d16
  rate := c.hz s.cfg.sysClkHz
  rateFrac := c.frac s.cfg.sysClkHz

/-- The engine with LAST and OUT at a level (R162, R165). -/
def Engine.silenced (e : Engine) (v : Level) : Engine := { e with last := ⟨v, v⟩, out := ⟨v, v⟩ }

/-- What a successful ENG.INIT does to the engine (R162). -/
def freshEngine (s : State) (v : Level) : Engine :=
  { s.eng.silenced v with
    buf0 := Bank.fillWith s.cfg.batch ⟨v, v⟩
    buf1 := Bank.fillWith s.cfg.batch ⟨v, v⟩
    underrun := 0
    prov := .none
    playIdx := .b0 }

/-- ENG.INIT (R162). -/
def execEngInit (s : State) : Out :=
  if s.eng.running then raise .state s
  else if s.args.a3 ≠ 1 ∧ s.args.a3 ≠ 2 then raise .config s
  else if !pinsValid s.cfg s.args.a0 s.args.a1 then raise .config s
  else
    match fit s.cfg s.args.a2.toNat s.cfg.sysClkHz with
    | none => raise .config s
    | some c =>
      done (({ s with
        sess := newSession s c
        eng := freshEngine s (silence c.wrap) }).setFitted c s.cfg.sysClkHz)

/-- ENG.SETPROV (R163). -/
def execEngSetprov (s : State) : Out :=
  if s.eng.running || !s.sess.configured then raise .state s
  else if 2 < s.args.a0.toNat then raise .config s
  else done { s with eng := { s.eng with prov := Prov.ofWord s.args.a0 } }

/-- The end of a successful ENG.START: arm the first transfer pair, enable the output (R164). -/
def startOutput (s : State) : State :=
  { s with
    eng := { s.eng with
      playIdx := .b0
      dmaIdx := 0
      armed := true
      irqPend := false
      inHandler := false
      running := true
      outEn := true
      dmaClaimed := true } }

/-- ENG.START (R164): the claim comes before the prefill, the prefill before the output is enabled. -/
def execEngStart (s : State) : Out :=
  if s.eng.running || !s.sess.configured then raise .state s
  else if s.eng.prov = .none then raise .state s
  else if s.claimOk then done (startOutput (fill .b1 (fill .b0 s.tookClaim)))
  else raise .resource s.tookClaim

/-- The engine halted, its DMA channels released (R165). -/
def Engine.halted (e : Engine) : Engine :=
  { e with
    armed := false
    irqPend := false
    inHandler := false
    outEn := false
    running := false
    playIdx := .b0
    dmaClaimed := false }

/-- ENG.STOP (R165). -/
def execEngStop (s : State) : Out :=
  done { s with
    eng := if s.sess.configured then s.eng.halted.silenced (silence s.sess.wrap.toNat) else s.eng.halted }

/-- ENG.UNDERRUNS (R166). -/
def execEngUnderruns (s : State) : Out := done (s.setRes0 s.eng.underrun)

/-- ENG.RATE (R167). -/
def execEngRate (s : State) : Out := done (s.setRes01 s.sess.rate (s.sess.rateFrac.setWidth 32))

/-- Completion entry, the interrupt context's first step (R180). -/
def completionEntry (s : State) : State := interruptEntry s

/-- Completion fill, the interrupt context's second step (R181). -/
def completionFill (s : State) : State := interruptReturn (fill s.eng.fillTgt s)

/-- The interrupt context takes its enabled step, if it has one (R180, R181). -/
def interruptStep (s : State) : State :=
  if s.eng.inHandler then completionFill s
  else if s.entryEnabled then completionEntry s
  else s

/-- The levels the armed transfer pair moves next (R200). -/
def Engine.nextOut (e : Engine) : Stereo :=
  ⟨(e.bank e.playIdx).left.getD e.dmaIdx 0, (e.bank e.playIdx).right.getD e.dmaIdx 0⟩

/-- Tick, one PWM period (R200); a tick with no transfer armed is a gap tick and changes nothing. -/
def tick (s : State) : State :=
  if s.eng.armed then
    { s with
      eng := { s.eng with
        out := s.eng.nextOut
        dmaIdx := s.eng.dmaIdx + 1
        armed := decide (s.eng.dmaIdx + 1 ≠ s.cfg.batch)
        irqPend := s.eng.irqPend || decide (s.eng.dmaIdx + 1 = s.cfg.batch) } }
  else s

/-- The sample clock's turn: a tick is enabled only while OUT_EN = 1 (R200). -/
def clockTurn (s : State) : State := if s.eng.outEn then tick s else s

end Sys2Proof.Machine
end

