-- ==== Sys2Proof/Machine/Hint.lean ====
section
/-! DEFINITION. The hint command. -/

namespace Sys2Proof.Machine

/-- NOP (30_encoding.md R88): STATUS.ERR <- 0 and nothing else. -/
def execNop (s : State) : Out := done s

end Sys2Proof.Machine
end

