-- ==== Sys2Proof/Machine/RingBuffer.lean ====
section
/-! DEFINITION. The Ring Buffer commands (40_ring_buffer.md).

RB.WRITE and RB.READ are not atomic (R100): the SNAPSHOT fixes a `RingJob`, and each later phase (one byte copy, or the
PUBLISH) is `ringPhase`. When the host's turn is a whole one, the meaning runs the phases to the end, as no other agent
moves between them; when it is `Turn.phase`, the meaning is the SNAPSHOT alone and the job waits in the state, so that
any agent may move between any two phases (log entry 4). -/

namespace Sys2Proof.Machine

/-- COPY of one byte of RB.WRITE (R102). A byte the platform refuses ends the command with ERR_BUS; the bytes already
copied, all in the free region, then hold unspecified values (93_implementation_defined.md section 2, log entry 9). -/
def copyIn (j : RingJob) (s : State) : State :=
  if admits s.cfg (busByte j.addr j.moved) then
    { s with
      ring := s.ring.putAt j.cur j.moved (s.mem.read (busByte j.addr j.moved).toNat)
      job := some { j with moved := j.moved + 1 } }
  else
    { s with
      err := .bus
      ring := s.ring.smear j.cur s.env.drawn j.moved
      job := none
      env := { s.env with drawn := s.env.drawn + j.moved } }

/-- COPY of one byte of RB.READ (R103). A byte the platform refuses ends the command with ERR_BUS; the bytes already
written keep their new values. -/
def copyOut (j : RingJob) (s : State) : State :=
  if admits s.cfg (busByte j.addr j.moved) then
    { s with
      mem := s.mem.write (busByte j.addr j.moved).toNat (s.ring.byteAt j.cur j.moved)
      job := some { j with moved := j.moved + 1 } }
  else { s with err := .bus, job := none }

/-- PUBLISH of RB.WRITE (R102): RB_WR, RES0 and STATUS.ERR in one atomic write (R100). -/
def publishIn (j : RingJob) (s : State) : State :=
  { s with
    ring := { s.ring with wr := s.ring.advance j.cur j.total }
    res := { s.res with r0 := BitVec.ofNat 32 j.total }
    err := .ok
    job := none }

/-- PUBLISH of RB.READ (R103): RB_RD, RES0 and STATUS.ERR in one atomic write (R100). -/
def publishOut (j : RingJob) (s : State) : State :=
  { s with
    ring := { s.ring with rd := s.ring.advance j.cur j.total }
    res := { s.res with r0 := BitVec.ofNat 32 j.total }
    err := .ok
    job := none }

/-- One host step of a ring command after its SNAPSHOT (R100). -/
def ringPhase (j : RingJob) (s : State) : State :=
  match j.dir with
  | .intoRing => if j.moved < j.total then copyIn j s else publishIn j s
  | .outOfRing => if j.moved < j.total then copyOut j s else publishOut j s

/-- At most `fuel` further steps of the ring command in progress, with no other agent between them. -/
def ringRun (fuel : Nat) (s : State) : State :=
  match fuel with
  | 0 => s
  | n + 1 =>
    match s.job with
    | none => s
    | some j => ringRun n (ringPhase j s)

/-- The steps a ring command still has to take: its byte copies and the PUBLISH. -/
def RingJob.left (j : RingJob) : Nat := j.total - j.moved + 1

/-- The ring command in progress takes the host's turn: one step, or all that are left. -/
def ringResume (j : RingJob) (s : State) : State :=
  if s.env.phased then ringPhase j s else ringRun j.left s

/-- A ring command takes its SNAPSHOT; on a whole turn it then runs to its end. -/
def ringStart (j : RingJob) (s : State) : Out :=
  if s.env.phased then .next { s with job := some j }
  else .next (ringRun j.left { s with job := some j })

/-- SNAPSHOT of RB.WRITE (R102): `acc = min(n, free)`. -/
def writeJob (s : State) : RingJob where
  dir := .intoRing
  addr := s.args.a0
  cur := s.ring.wr
  total := min s.args.a1.toNat s.ring.free
  moved := 0

/-- SNAPSHOT of RB.READ (R103): `k = min(m, used)`. -/
def readJob (s : State) : RingJob where
  dir := .outOfRing
  addr := s.args.a0
  cur := s.ring.rd
  total := min s.args.a1.toNat s.ring.used
  moved := 0

/-- RB.INIT (R101). -/
def execRbInit (s : State) : Out :=
  if s.ring.present then raise .state s
  else if s.args.a0.toNat < 2 then raise .config s
  else if s.allocOk s.args.a0.toNat then done ((s.tookAlloc.allocRing s.args.a0).setRes0 s.args.a0)
  else raise .alloc s.tookAlloc

/-- RB.WRITE (R102). -/
def execRbWrite (s : State) : Out :=
  if s.ring.present then ringStart (writeJob s) s else raise .state s

/-- RB.READ (R103). -/
def execRbRead (s : State) : Out :=
  if !s.ring.present then raise .state s
  else if s.draining then raise .state s
  else ringStart (readJob s) s

/-- RB.USED (R105). -/
def execRbUsed (s : State) : Out :=
  done (s.setRes0 (if s.ring.present then BitVec.ofNat 32 s.ring.used else 0))

/-- RB.FREE (R106). -/
def execRbFree (s : State) : Out :=
  done (s.setRes0 (if s.ring.present then BitVec.ofNat 32 s.ring.free else 0))

/-- RB.CLEAR (R107): both cursors to zero, the storage untouched. -/
def execRbClear (s : State) : Out :=
  if !s.ring.present then raise .state s
  else if s.draining then raise .state s
  else done { s with ring := { s.ring with rd := 0, wr := 0 } }

/-- RB.DESTROY (R108). -/
def execRbDestroy (s : State) : Out :=
  if !s.ring.present then done s
  else if s.draining then raise .state s
  else done { s with ring := Ring.absent }

end Sys2Proof.Machine
end

