-- ==== Sys2Proof/Machine/Dispatch.lean ====
section
/-! DEFINITION. One arm per command of spec/opcode_table.json. -/

namespace Sys2Proof.Machine

def exec (i : Instr) (s : State) : Host.Outcome State Fault Refusal :=
  match i with
  | .nop => Sys2Proof.Machine.execNop s
  | .rbInit => Sys2Proof.Machine.execRbInit s
  | .rbWrite => Sys2Proof.Machine.execRbWrite s
  | .rbRead => Sys2Proof.Machine.execRbRead s
  | .rbUsed => Sys2Proof.Machine.execRbUsed s
  | .rbFree => Sys2Proof.Machine.execRbFree s
  | .rbClear => Sys2Proof.Machine.execRbClear s
  | .rbDestroy => Sys2Proof.Machine.execRbDestroy s
  | .fit => Sys2Proof.Machine.execFit s
  | .rateSet => Sys2Proof.Machine.execRateSet s
  | .rateApply => Sys2Proof.Machine.execRateApply s
  | .engInit => Sys2Proof.Machine.execEngInit s
  | .engSetprov => Sys2Proof.Machine.execEngSetprov s
  | .engStart => Sys2Proof.Machine.execEngStart s
  | .engStop => Sys2Proof.Machine.execEngStop s
  | .engUnderruns => Sys2Proof.Machine.execEngUnderruns s
  | .engRate => Sys2Proof.Machine.execEngRate s

end Sys2Proof.Machine
end

