-- ==== Sys2Proof/Machine/Sched.lean ====
section
/-! DEFINITION. Who moves next, the host's accesses, and how a command reaches the block: a CMD write is fetched,
decoded and executed (30_encoding.md R84, R85). -/

namespace Sys2Proof.Machine

/-- A value written to CMD: the command it decodes to runs, a word that does not decode raises ERR_ILLEGAL
(30_encoding.md R85, 60_exceptions.md R221). -/
def issue (v : Word) (s : State) : Out :=
  match decode v with
  | .ok i => exec i s
  | .error _ => raise .illegal s

/-- A host register write (30_encoding.md R82). -/
def writeReg (off : BitVec 8) (v : Word) (s : State) : Out :=
  if off = 0 then issue v s else .next { s with args := s.args.store off v }

/-- A register access of a width and offset the spec defines; any other is refused (20_memory.md R62). -/
def aligned32 (w : Width) (off : BitVec 8) (go : Out) : Out :=
  if w ≠ .w32 then .refused .subWordAccess
  else if off.toNat % 4 ≠ 0 then .refused .misalignedAccess
  else go

/-- The host's program reads a register and keeps its value under a name (30_encoding.md R90). -/
def readInto (name : Nat) (off : BitVec 8) (s : State) : State :=
  (s.see (s.readReg off)).keep name (s.readReg off)

/-- `CHK` (30_encoding.md R91): read STATUS into `s`; with an error code in it the host's program goes no further. -/
def checkStatus (s : State) : State :=
  if s.err = .ok then readInto statusName 0x04 s
  else { readInto statusName 0x04 s with env := { (readInto statusName 0x04 s).env with host := [] } }

/-- One action of the host's program. -/
def hostOp (op : HostOp) (s : State) : Out :=
  match op with
  | .read w off => aligned32 w off (.next (s.see (s.readReg off)))
  | .write w off v => aligned32 w off (writeReg off v s)
  | .readTo name off => aligned32 .w32 off (.next (readInto name off s))
  | .writeKept name off => aligned32 .w32 off (writeReg off (s.keptAs name) s)
  | .check => .next (checkStatus s)

/-- The host has something to do: a command in progress, or an access to make. -/
def State.hostReady (s : State) : Bool := s.job.isSome || !s.env.host.isEmpty

/-- The host's turn: go on with the ring command in progress, or make the next access (30_encoding.md R84). -/
def hostTurn (s : State) : Out :=
  match s.job with
  | some j => .next (ringResume j s)
  | none =>
    match s.env.host with
    | [] => .next s
    | op :: rest => hostOp op { s with env := { s.env with host := rest } }

/-- The state with the schedule's remaining turns. -/
def State.setSched (l : List Turn) (s : State) : State := { s with env := { s.env with sched := l } }

/-- The state with the grain of the host's turn. -/
def State.setPhased (b : Bool) (s : State) : State := { s with env := { s.env with phased := b } }

/-- The host's turn under the interrupt context's priority (10_state.md R21): while that context has an enabled step
it moves instead, and the host's turn waits. -/
def hostTurnOrWait (phased : Bool) (rest : List Turn) (s : State) : Out :=
  if s.interruptEnabled then .next (interruptStep s) else hostTurn ((s.setSched rest).setPhased phased)

/-- The turn taken when none is scheduled (log entry 3, DESIGN CHOICE): the interrupt context, then the host, then the
sample clock. It keeps both fairness assumptions of 70_reset_and_hazards.md R280. -/
def defaultTurn (s : State) : Out :=
  if s.interruptEnabled then .next (interruptStep s)
  else if s.hostReady then hostTurn (s.setPhased false)
  else .next (clockTurn s)

/-- One scheduled turn; `rest` are the turns after it. -/
def takeTurn (t : Turn) (rest : List Turn) (s : State) : Out :=
  match t with
  | .tick => .next (clockTurn (s.setSched rest))
  | .irq => .next (interruptStep (s.setSched rest))
  | .host => hostTurnOrWait false rest s
  | .phase => hostTurnOrWait true rest s
  | .peek off => aligned32 .w32 off (.next ((s.setSched rest).see (s.readReg off)))
  | .platform a b => .next { s.setSched rest with mem := s.mem.write a.toNat b }
  | .reset => .next (resetInput (s.setSched rest))

/-- One step of the machine. -/
def nextTurn (s : State) : Out :=
  match s.env.sched with
  | [] => defaultTurn s
  | t :: rest => takeTurn t rest s

/-- The state in which the very next step is the host's write of `v` to CMD: the write heads the host's program, the
host's turn heads the schedule, no ring command is in progress, and the interrupt context has no enabled step. -/
def State.withCommand (v : Word) (s : State) : State :=
  { s with
    eng := { s.eng with irqPend := s.eng.irqPend && !s.eng.running, inHandler := false }
    job := none
    env := { s.env with sched := .host :: s.env.sched, host := .write .w32 0 v :: s.env.host } }

end Sys2Proof.Machine
end

