-- ==== Sys2Proof/Machine/Step.lean ====
section
/-! DEFINITION. The step, and how a command is placed where the next step fetches it. -/

namespace Sys2Proof.Machine

/-- One atomic step (20_memory.md R68) of the agent whose turn it is. -/
def step (s : State) : Host.Outcome State Fault Refusal := nextTurn s

/-- The command word of `nbits` bits placed where `step` takes its next command from (log entry 2). -/
def State.withFetchWord (s : State) (nbits w : Nat) : State :=
  s.withCommand (BitVec.ofNat 32 (w % 2 ^ nbits))

end Sys2Proof.Machine
end

