-- ==== Sys2Proof/Machine/Asm.lean ====
section
/-! DEFINITION. The assembler's statements (30_encoding.md R90, R91) as the host accesses they expand to. -/

namespace Sys2Proof.Machine

/-- One statement of a host program (30_encoding.md R90, R91). -/
inductive AsmLine where
  /-- `<MNEMONIC> a0, a1, ...`. -/
  | command (i : Instr) (operands : List Word)
  /-- `WR <reg>, <value>`. -/
  | wr (off : BitVec 8) (v : Word)
  /-- `RD <reg>`. -/
  | rd (off : BitVec 8)
  /-- `RD <reg> -> name`. -/
  | rdTo (off : BitVec 8) (name : Nat)
  /-- `WR <reg>, name`: a value kept before. -/
  | wrKept (off : BitVec 8) (name : Nat)
  /-- `CHK`. -/
  | chk
  /-- `ENG.OPEN nominal, pl, pr, ch`. -/
  | engOpen (nominal pl pr ch : Word)
  /-- `ENG.PLAYRING`. -/
  | engPlayRing
  /-- `ENG.PLAYEXT`. -/
  | engPlayExt
  /-- `TEARDOWN`. -/
  | teardown
deriving DecidableEq, Repr

/-- The offsets of ARG0 to ARG3 (30_encoding.md R80). -/
def argOffsets : List (BitVec 8) := [0x08, 0x0C, 0x10, 0x14]

/-- A command statement: its operands into the ARG registers in order, then the CMD write (30_encoding.md R90). -/
def commandOps (i : Instr) (operands : List Word) : List HostOp :=
  (argOffsets.zip operands).map (fun p => HostOp.write .w32 p.1 p.2) ++ [.write .w32 0 (encode i)]

/-- The accesses a statement expands to (30_encoding.md R90, R91). -/
def AsmLine.expand (st : AsmLine) : List HostOp :=
  match st with
  | .command i operands => commandOps i operands
  | .wr off v => [.write .w32 off v]
  | .rd off => [.read .w32 off]
  | .rdTo off name => [.readTo name off]
  | .wrKept off name => [.writeKept name off]
  | .chk => [.check]
  | .engOpen nominal pl pr ch =>
    commandOps .rateApply [nominal] ++
      [.readTo rateName 0x18, .write .w32 0x08 pl, .write .w32 0x0C pr, .writeKept rateName 0x10,
        .write .w32 0x14 ch, .write .w32 0 (encode .engInit)]
  | .engPlayRing => commandOps .engSetprov [1] ++ commandOps .engStart []
  | .engPlayExt => commandOps .engSetprov [2] ++ commandOps .engStart []
  | .teardown => commandOps .engStop [] ++ commandOps .rbDestroy []

/-- A host program's accesses in order. -/
def assemble (l : List AsmLine) : List HostOp := l.flatMap AsmLine.expand

end Sys2Proof.Machine
end

