-- ==== Sys2Proof/Safety.lean ====
section
/-! DEFINITION. What holds of every reachable state: the terms the claims use. -/

namespace Sys2Proof.Machine

/-- The bytes waiting in the ring, oldest first (40_ring_buffer.md R110 (b)). -/
def Ring.content (r : Ring) : List Byte := (List.range r.used).map (r.byteAt r.rd)

/-- The bytes a ring command has copied in but not yet published. -/
def State.unpublished (s : State) : List Byte :=
  match s.job with
  | none => []
  | some j =>
    match j.dir with
    | .intoRing => (List.range j.moved).map (s.ring.byteAt j.cur)
    | .outOfRing => []

/-- Two states that differ at most in ring bytes nobody has written since the last RB.INIT or RB.CLEAR
(10_state.md R36): everything else is equal, and so are the waiting bytes and those of a write in progress. -/
def State.SameVisible (s s' : State) : Prop :=
  s' = { s with ring := { s.ring with bytes := s'.ring.bytes } } ∧
    s'.ring.bytes.length = s.ring.bytes.length ∧
    s'.ring.content = s.ring.content ∧ s'.unpublished = s.unpublished

/-- The ring's cursors and storage (10_state.md R33 to R36, 40_ring_buffer.md R110 (a)). -/
def Ring.Ok (r : Ring) : Prop :=
  if r.present then
    2 ≤ r.cap.toNat ∧ r.rd.toNat < r.cap.toNat ∧ r.wr.toNat < r.cap.toNat ∧ r.bytes.length = r.cap.toNat
  else r = Ring.absent

/-- A ring command in progress: its snapshot of its own cursor still holds, and it stays within the free, or the
used, bytes (40_ring_buffer.md R102, R103, R109). -/
def State.JobOk (s : State) : Prop :=
  match s.job with
  | none => True
  | some j =>
    s.ring.present = true ∧ j.moved ≤ j.total ∧
      match j.dir with
      | .intoRing => j.cur = s.ring.wr ∧ j.total ≤ s.ring.free
      | .outOfRing => j.cur = s.ring.rd ∧ j.total ≤ s.ring.used ∧ s.draining = false

/-- The session registers (10_state.md R37 to R42): unset, with no underrun counted; or a channel count of 1 or 2 with a
wrap in range and, where every divider fits ENG_DIV's 12 bits, a divider in range and the achieved rate of these two
(41_rate.md R137 (a) and (b), 42_engine.md R166 and R167). -/
def State.SessionOk (s : State) : Prop :=
  if s.sess.configured then
    (s.sess.nch = 1 ∨ s.sess.nch = 2) ∧
      s.cfg.wrapMin ≤ s.sess.wrap.toNat ∧ s.sess.wrap.toNat ≤ s.cfg.wrapMax ∧
      (s.cfg.d16Max ≤ 4095 →
        s.cfg.d16Min ≤ s.sess.div.toNat ∧ s.sess.div.toNat ≤ s.cfg.d16Max ∧
          s.sess.rate = (Fitted.mk s.sess.wrap.toNat s.sess.div.toNat).hz s.cfg.sysClkHz ∧
          s.sess.rateFrac = (Fitted.mk s.sess.wrap.toNat s.sess.div.toNat).frac s.cfg.sysClkHz)
  else s.sess = Session.unset ∧ s.eng.prov = .none ∧ s.eng.running = false ∧ s.eng.underrun = 0

/-- The engine's control state (10_state.md R32, R46 to R48, 42_engine.md R201, R202). -/
def State.EngineOk (s : State) : Prop :=
  s.eng.outEn = s.eng.running ∧ s.eng.dmaClaimed = s.eng.running ∧
    (s.eng.running = true → s.eng.prov ≠ .none) ∧
    (s.eng.armed = true → s.eng.running = true ∧ s.eng.dmaIdx < s.cfg.batch) ∧
    (s.eng.irqPend = true → s.eng.running = true ∧ s.eng.armed = false) ∧
    (s.eng.inHandler = true → s.eng.running = true ∧ s.eng.fillTgt = s.eng.playIdx.other) ∧
    (s.eng.running = true → s.eng.armed = true ∨ s.eng.irqPend = true) ∧
    s.eng.dmaIdx ≤ s.cfg.batch

/-- Every level of a list is at most the wrap. -/
def levelsWithin (wrap : BitVec 16) (l : List Level) : Prop := ∀ v ∈ l, v.toNat ≤ wrap.toNat

/-- A ping-pong buffer holds BATCH levels per channel, each in `[0, W]` (10_state.md R45, 42_engine.md R161 (c)). -/
def Bank.Ok (k : Bank) (batch : Nat) (wrap : BitVec 16) : Prop :=
  k.left.length = batch ∧ k.right.length = batch ∧ levelsWithin wrap k.left ∧ levelsWithin wrap k.right

/-- The buffers, LAST and OUT (10_state.md R44, R45, R49). -/
def State.LevelsOk (s : State) : Prop :=
  s.eng.buf0.Ok s.cfg.batch s.sess.wrap ∧ s.eng.buf1.Ok s.cfg.batch s.sess.wrap ∧
    levelsWithin s.sess.wrap [s.eng.last.left, s.eng.last.right, s.eng.out.left, s.eng.out.right]

/-- The invariant of the machine. -/
def State.Inv (s : State) : Prop :=
  s.cfg.wf = true ∧ s.mem.wf = true ∧ s.ring.Ok ∧ s.JobOk ∧ s.SessionOk ∧ s.EngineOk ∧ s.LevelsOk

/-- The ideal divider `d* = K / (T * (W + 1))` (41_rate.md R130). -/
def idealDivider (t k w : Nat) : ℚ := (k : ℚ) / ((t : ℚ) * ((w : ℚ) + 1))

/-- The wrap `W` is a candidate: its ideal divider lies in `[D16_MIN/16, D16_MAX/16]` (41_rate.md R130). -/
def wrapAccepted (p : Config.Params) (t k w : Nat) : Prop :=
  (p.d16Min : ℚ) / 16 ≤ idealDivider t k w ∧ idealDivider t k w ≤ (p.d16Max : ℚ) / 16

/-- `16 * d*` rounded to the nearest integer, ties up (41_rate.md R132). -/
def roundedD16 (t k w : Nat) : ℤ := ⌊16 * idealDivider t k w + 1 / 2⌋

/-- The achieved rate `A = 16K / ((W + 1) * D16)` (41_rate.md R131). -/
def achievedRate (k w : Nat) (d : ℚ) : ℚ := 16 * (k : ℚ) / (((w : ℚ) + 1) * d)

/-- `abs(A - T)` for the wrap `W` with its rounded divider (41_rate.md R130). -/
def rateError (t k w : Nat) : ℚ := |achievedRate k w (roundedD16 t k w) - (t : ℚ)|

/-- `FIT_EPS` (00_scope.md R7). -/
def fitEps (p : Config.Params) : ℚ := (p.epsNum : ℚ) / (p.epsDen : ℚ)

/-- The turn is the host's: scheduled as a whole one or as one phase, or left to the default of an empty schedule. -/
def State.HostTurn (s : State) : Prop :=
  s.env.sched = [] ∨ ∃ rest, s.env.sched = .host :: rest ∨ s.env.sched = .phase :: rest

/-- The host's next access puts a word into CMD: as a value, or as one its program kept (30_encoding.md R82, R90). -/
def State.Issues (s : State) (w : Word) : Prop :=
  s.job = none ∧ ∃ hs, s.env.host = .write .w32 0 w :: hs ∨
    ∃ name, s.env.host = .writeKept name 0 :: hs ∧ s.keptAs name = w

/-- No other agent and no earlier command stands in the way of the host's next access: no ring command is in
progress, the interrupt context has no enabled step, and the host's whole turn comes next. -/
def State.HostNext (s : State) (rest : List Turn) : Prop :=
  s.job = none ∧ s.interruptEnabled = false ∧ s.env.sched = .host :: rest

end Sys2Proof.Machine
end

