-- ==== Sys2Proof/Certificates/Slice0/Obligations.lean ====
section
/-! DEFINITION. The statements for the provers. Where a statement rests on a choice of the model, its docstring names
the log entry. `t = { s with … }` is the frame: everything not named is as it was. -/

open Sys2Proof Sys2Proof.Machine

/-- Decode and encode agree on every 32-bit word and every command (30_encoding.md section 2). -/
def Obligations.DecodeExactlyTheEncodedWords : Prop :=
  ∀ (w : Word) (i : Instr), decode w = .ok i ↔ w = encode i

/-- 30_encoding.md R85 with 60_exceptions.md R221: a word whose ZERO field is not 0 or whose opcode is not listed sets
STATUS.ERR to 6 and changes nothing else; every other word decodes. -/
def Obligations.UndecodableWordRaisesIllegal : Prop :=
  (∀ (w : Word) (s : State),
    (w.extractLsb' 8 24 ≠ 0 ∨ w.extractLsb' 0 8 ∉ listedOpcodes) →
      issue w s = .next { s with err := .illegal } ∧ ErrCode.illegal.code = 6) ∧
  ∀ w : Word, w.extractLsb' 8 24 = 0 → w.extractLsb' 0 8 ∈ listedOpcodes → ∃ i, decode w = .ok i

/-- Words written out from 30_encoding.md R84 and R86, one or more of each family. -/
def Obligations.SampleWordsDecode : Prop :=
  decode 0x00000000 = .ok .nop ∧ decode 0x00000002 = .ok .rbWrite ∧ decode 0x00000007 = .ok .rbDestroy ∧
  decode 0x00000010 = .ok .fit ∧ decode 0x00000012 = .ok .rateApply ∧ decode 0x00000020 = .ok .engInit ∧
  decode 0x00000025 = .ok .engRate ∧ decode 0x00000008 = .error .reservedOpcode ∧
  decode 0x00000026 = .error .reservedOpcode ∧ decode 0x00000100 = .error .zeroField ∧
  decode 0x80000022 = .error .zeroField

/-- When the host's next access is a write to CMD, the step is `exec` of the command its word decodes to, on the state
without that access and that turn; or, if the word does not decode (30_encoding.md R85), STATUS.ERR becomes 6 and nothing
else changes but that access and that turn. The turn may be a whole one, one phase (log entry 4), or (log entry 3) the
one an empty schedule gives. -/
def Obligations.StepRunsTheDecodedCommand : Prop :=
  ∀ (s u : State) (w : Word) (hs : List HostOp) (rest : List Turn),
    s.job = none → s.interruptEnabled = false → s.env.host = .write .w32 0 w :: hs →
    (s.env.sched = .host :: rest ∧ u = { s with env := { s.env with sched := rest, phased := false, host := hs } } ∨
      s.env.sched = .phase :: rest ∧ u = { s with env := { s.env with sched := rest, phased := true, host := hs } } ∨
      s.env.sched = [] ∧ u = { s with env := { s.env with phased := false, host := hs } }) →
    (∀ i, decode w = .ok i → step s = exec i u) ∧
    (w.extractLsb' 8 24 ≠ 0 ∨ w.extractLsb' 0 8 ∉ listedOpcodes → step s = .next { u with err := .illegal })

/-- A command placed by `withFetchWord` is what the very next step runs, from every state (log entry 2). -/
def Obligations.PlacedWordRunsNext : Prop :=
  ∀ (s : State) (nbits w : Nat) (i : Instr), decodeTableWord nbits w = some i →
    step (s.withFetchWord nbits w) =
      exec i { s with
        eng := { s.eng with irqPend := s.eng.irqPend && !s.eng.running, inHandler := false }
        job := none
        env := { s.env with phased := false } }

/-- The table of 70_reset_and_hazards.md R260: one step from any state, every element at its reset value; what is not
the block's (parameters, system memory, the rest of the outside world) stays, by the model's reading (log entry 8). -/
def Obligations.ResetInputSetsEveryElement : Prop :=
  ∀ (s : State) (rest : List Turn), s.env.sched = .reset :: rest →
    ∃ t, step s = .next t ∧
      t.args = ⟨0, 0, 0, 0⟩ ∧ t.res = ⟨0, 0, 0, 0⟩ ∧ t.statusWord = 0 ∧ t.err = .ok ∧
      t.ring = ⟨false, 0, 0, 0, []⟩ ∧ t.sess = ⟨false, 0, 0, 0, 0, 0, 0, 0, 0⟩ ∧
      t.rateScale = 65536 ∧ t.eng.out.word = 0 ∧ t.eng.underrun = 0 ∧ t.eng.prov = .none ∧
      t.eng.dmaIdx = 0 ∧ t.eng.fillTgt = .b0 ∧ t.eng.last = ⟨0, 0⟩ ∧ t.eng.dmaClaimed = false ∧
      (∀ b, t.eng.bank b = ⟨List.replicate s.cfg.batch 0, List.replicate s.cfg.batch 0⟩) ∧
      t.job = none ∧ t.cfg = s.cfg ∧ t.mem = s.mem ∧ t.env = { s.env with sched := rest } ∧
      ∀ off : BitVec 8, t.readReg off = if off = 0x50 then 65536 else 0

/-- The machine after reset has the values of 70_reset_and_hazards.md R260 and meets the invariant; its system memory lists
nothing (log entry 7). -/
def Obligations.ResetStateMeetsInvariant : Prop :=
  State.reset.Inv ∧ State.reset.mem = [] ∧ State.reset.statusWord = 0 ∧
    ∀ off : BitVec 8, State.reset.readReg off = if off = 0x50 then 65536 else 0

/-- 10_state.md R32: STATUS field by field, with the numbers of 60_exceptions.md R220, and OUT_EN = RUNNING = the channels
claimed wherever the invariant holds. -/
def Obligations.StatusWordFields : Prop :=
  (∀ s : State,
    s.statusWord.extractLsb' 0 4 = s.err.code ∧ s.statusWord.getLsbD 4 = s.ring.present ∧
    s.statusWord.getLsbD 5 = s.sess.configured ∧ s.statusWord.extractLsb' 6 2 = s.eng.prov.code ∧
    s.statusWord.getLsbD 8 = s.eng.running ∧ s.statusWord.getLsbD 9 = decide (s.eng.playIdx = .b1) ∧
    s.statusWord.getLsbD 10 = s.eng.outEn ∧ s.statusWord.getLsbD 11 = s.eng.armed ∧
    s.statusWord.getLsbD 12 = s.eng.irqPend ∧ s.statusWord.getLsbD 13 = s.eng.inHandler ∧
    s.statusWord.extractLsb' 14 18 = 0 ∧
    (s.Inv → s.eng.outEn = s.eng.running ∧ s.eng.dmaClaimed = s.eng.running)) ∧
  [ErrCode.ok, .state, .config, .alloc, .resource, .bus, .illegal].map ErrCode.code = [0, 1, 2, 3, 4, 5, 6] ∧
  [Prov.none, .ring, .external].map Prov.code = [0, 1, 2]

/-- 30_encoding.md R80 and R81: what each offset of the window reads as. -/
def Obligations.RegisterWindowReads : Prop :=
  ∀ s : State,
    s.readReg 0x00 = 0 ∧ s.readReg 0x04 = s.statusWord ∧
    s.readReg 0x08 = s.args.a0 ∧ s.readReg 0x0C = s.args.a1 ∧ s.readReg 0x10 = s.args.a2 ∧
    s.readReg 0x14 = s.args.a3 ∧ s.readReg 0x18 = s.res.r0 ∧ s.readReg 0x1C = s.res.r1 ∧
    s.readReg 0x20 = s.res.r2 ∧ s.readReg 0x24 = s.res.r3 ∧ s.readReg 0x28 = s.ring.cap ∧
    s.readReg 0x2C = s.ring.rd ∧ s.readReg 0x30 = s.ring.wr ∧ s.readReg 0x34 = s.sess.srate ∧
    (s.readReg 0x38).extractLsb' 0 8 = s.sess.pinL ∧ (s.readReg 0x38).extractLsb' 8 8 = s.sess.pinR ∧
    (s.readReg 0x38).extractLsb' 16 2 = s.sess.nch ∧ (s.readReg 0x38).extractLsb' 18 14 = 0 ∧
    (s.readReg 0x3C).toNat = s.sess.wrap.toNat ∧ (s.readReg 0x40).toNat = s.sess.div.toNat ∧
    s.readReg 0x44 = s.sess.rate ∧ (s.readReg 0x48).toNat = s.sess.rateFrac.toNat ∧
    s.readReg 0x4C = s.eng.underrun ∧ s.readReg 0x50 = s.rateScale ∧
    (s.readReg 0x54).extractLsb' 0 16 = s.eng.out.left ∧ (s.readReg 0x54).extractLsb' 16 16 = s.eng.out.right ∧
    ∀ off : BitVec 8, 0x58 ≤ off.toNat → s.readReg off = 0

/-- 30_encoding.md R82 and R83, 20_memory.md R64: a read returns the register's value and changes nothing else, whichever
agent's turn allows it; a write stores into ARG0..ARG3 and is ignored at every other offset but CMD. 30_encoding.md R90
and R91: a value read under a name is what a later write of that name stores, whoever reads registers between (the names
are the model's, log entry 6). -/
def Obligations.RegisterAccessEffects : Prop :=
  ∀ (s : State) (off : BitVec 8) (v : Word) (hs : List HostOp) (rest : List Turn), off.toNat % 4 = 0 →
    (s.env.sched = .peek off :: rest →
      step s = .next { s with env := { s.env with sched := rest, reads := s.readReg off :: s.env.reads } }) ∧
    (s.HostNext rest → s.env.host = .read .w32 off :: hs →
      step s = .next { s with
        env := { s.env with sched := rest, phased := false, host := hs, reads := s.readReg off :: s.env.reads } }) ∧
    (s.HostNext rest → s.env.host = .write .w32 off v :: hs → off ≠ 0 →
      step s = .next { s with
        args :=
          ⟨if off = 0x08 then v else s.args.a0, if off = 0x0C then v else s.args.a1,
            if off = 0x10 then v else s.args.a2, if off = 0x14 then v else s.args.a3⟩
        env := { s.env with sched := rest, phased := false, host := hs } }) ∧
    ∀ name : Nat,
      (s.HostNext rest → s.env.host = .readTo name off :: hs →
        ∃ t, step s = .next t ∧ t.keptAs name = s.readReg off ∧
          (∀ other, other ≠ name → t.keptAs other = s.keptAs other) ∧
          t = { s with
            env := { s.env with
              sched := rest, phased := false, host := hs, reads := s.readReg off :: s.env.reads, kept := t.env.kept } }) ∧
      (s.HostNext rest → s.env.host = .writeKept name off :: hs → s.keptAs name = v →
        step s = step { s with env := { s.env with host := .write .w32 off v :: hs } })

/-- 20_memory.md R62: an access of 8 or 16 bits, or at an offset that is no multiple of 4, is refused. -/
def Obligations.SubWordAndMisalignedAccessRefused : Prop :=
  ∀ (s : State) (w : Width) (off : BitVec 8) (v : Word) (hs : List HostOp) (rest : List Turn), s.HostNext rest →
    (s.env.host = .read w off :: hs ∨ s.env.host = .write w off v :: hs) →
    (w ≠ .w32 → step s = .refused .subWordAccess) ∧
    (w = .w32 → off.toNat % 4 ≠ 0 → step s = .refused .misalignedAccess)

/-- 20_memory.md R60 and R66: the register at an offset lies at `AOE_BASE` plus it, and the window is these 256 byte
addresses and no other. That the addresses wrap modulo 2^32 is the model's reading (log entry 14). -/
def Obligations.WindowAddressesRoundTrip : Prop :=
  ∀ (p : Config.Params) (off : BitVec 8) (a : Word),
    (busAddress p off).toNat = (p.aoeBase.toNat + off.toNat) % 2 ^ 32 ∧
    windowOffset p (busAddress p off) = some off ∧
    (windowOffset p a = some off ↔ a = p.aoeBase + off.setWidth 32) ∧
    (windowOffset p a = none ↔ 256 ≤ (a - p.aoeBase).toNat)

/-- 30_encoding.md R88. -/
def Obligations.NopWritesOnlyErr : Prop :=
  decode 0x00000000 = .ok .nop ∧ ∀ s : State, exec .nop s = .next { s with err := .ok }

/-- 40_ring_buffer.md R101. Which draw `allocOk` takes, that one is taken exactly where the pseudocode reaches ALLOC_OK
(above RB_MAX_BYTES too), and that the contents are the free values from the next draw on, is the model's choice (log
entry 5). -/
def Obligations.RbInitAllocatesOrReports : Prop :=
  decode 0x00000001 = .ok .rbInit ∧
  ∀ s : State,
    (s.ring.present = true → exec .rbInit s = .next { s with err := .state }) ∧
    (s.ring.present = false → s.args.a0.toNat < 2 → exec .rbInit s = .next { s with err := .config }) ∧
    (s.ring.present = false → 2 ≤ s.args.a0.toNat → s.allocOk s.args.a0.toNat = false →
      exec .rbInit s = .next { s with
        err := .alloc
        env := { s.env with alloc := s.env.alloc.tail, drawn := s.env.drawn + 1 } }) ∧
    (s.cfg.rbMaxBytes < s.args.a0.toNat → s.allocOk s.args.a0.toNat = false) ∧
    (s.ring.present = false → 2 ≤ s.args.a0.toNat → s.allocOk s.args.a0.toNat = true →
      exec .rbInit s = .next { s with
        ring := ⟨true, s.args.a0, 0, 0, freeBytes (s.env.drawn + 1) s.args.a0.toNat⟩
        res := { s.res with r0 := s.args.a0 }
        err := .ok
        env := { s.env with
          alloc := s.env.alloc.tail
          drawn := s.env.drawn + 1 + s.args.a0.toNat } }) ∧
    (freeBytes (s.env.drawn + 1) s.args.a0.toNat).length = s.args.a0.toNat

/-- 40_ring_buffer.md R102, the whole command with no other agent between its phases: the first
`acc = min(n, free)` source bytes are appended to the waiting bytes, RB_WR and RES0 say so, and no other ring byte and
nothing else changes. -/
def Obligations.RbWriteAppendsSourceBytes : Prop :=
  ∀ (s : State) (acc : Nat), s.ring.Ok → s.ring.present = true → s.env.phased = false →
    acc = min s.args.a1.toNat (s.ring.cap.toNat - 1 - s.ring.used) →
    (∀ i < acc, admits s.cfg (s.args.a0 + BitVec.ofNat 32 i) = true) →
    ∃ t, exec .rbWrite s = .next t ∧
      t.ring.content =
        s.ring.content ++ (List.range acc).map (fun i => s.mem.read (s.args.a0 + BitVec.ofNat 32 i).toNat) ∧
      t.ring.wr = BitVec.ofNat 32 ((s.ring.wr.toNat + acc) % s.ring.cap.toNat) ∧
      t.ring.bytes.length = s.ring.bytes.length ∧
      (∀ p, (∀ i < acc, p ≠ (s.ring.wr.toNat + i) % s.ring.cap.toNat) → t.ring.bytes[p]? = s.ring.bytes[p]?) ∧
      t = { s with
        ring := { s.ring with wr := t.ring.wr, bytes := t.ring.bytes }
        res := { s.res with r0 := BitVec.ofNat 32 acc }
        err := .ok
        job := none }

/-- The error cases of 40_ring_buffer.md R102: no ring, and a source byte the platform refuses. After ERR_BUS no byte is
accepted, RB_WR and RES0 are unchanged, and at most bytes of the free region differ (log entry 9). -/
def Obligations.RbWriteErrorsAcceptNothing : Prop :=
  (∀ s : State, s.ring.present = false → exec .rbWrite s = .next { s with err := .state }) ∧
  ∀ (s : State) (j : Nat), s.ring.Ok → s.ring.present = true → s.env.phased = false →
    j < min s.args.a1.toNat (s.ring.cap.toNat - 1 - s.ring.used) →
    (∀ i < j, admits s.cfg (s.args.a0 + BitVec.ofNat 32 i) = true) →
    admits s.cfg (s.args.a0 + BitVec.ofNat 32 j) = false →
    ∃ t, exec .rbWrite s = .next t ∧ t.ring.content = s.ring.content ∧
      t.ring.bytes.length = s.ring.bytes.length ∧
      (∀ p, (∀ i < j, p ≠ (s.ring.wr.toNat + i) % s.ring.cap.toNat) → t.ring.bytes[p]? = s.ring.bytes[p]?) ∧
      t = { s with
        ring := { s.ring with bytes := t.ring.bytes }
        err := .bus
        job := none
        env := { s.env with drawn := s.env.drawn + j } }

/-- 40_ring_buffer.md R103, the whole command with no other agent between its phases: the `k = min(m, used)` oldest bytes
leave the ring in order, into `dst .. dst+k-1`, and every other byte of system memory reads as before. -/
def Obligations.RbReadRemovesOldestBytes : Prop :=
  ∀ (s : State) (k : Nat), s.mem.wf = true → s.ring.Ok → s.ring.present = true → s.draining = false →
    s.env.phased = false → k = min s.args.a1.toNat s.ring.used →
    (∀ i < k, admits s.cfg (s.args.a0 + BitVec.ofNat 32 i) = true) →
    ∃ t, exec .rbRead s = .next t ∧
      s.ring.content =
        (List.range k).map (fun i => t.mem.read (s.args.a0 + BitVec.ofNat 32 i).toNat) ++ t.ring.content ∧
      (∀ a, (∀ i < k, a ≠ (s.args.a0 + BitVec.ofNat 32 i).toNat) → t.mem.read a = s.mem.read a) ∧
      t.ring.rd = BitVec.ofNat 32 ((s.ring.rd.toNat + k) % s.ring.cap.toNat) ∧
      t = { s with
        ring := { s.ring with rd := t.ring.rd }
        mem := t.mem
        res := { s.res with r0 := BitVec.ofNat 32 k }
        err := .ok
        job := none }

/-- The error cases of 40_ring_buffer.md R103: no ring, the engine draining the ring, and a destination byte the platform
refuses: the bytes before it are written, every byte stays in the ring, RB_RD and RES0 are unchanged. -/
def Obligations.RbReadErrorsKeepTheRing : Prop :=
  (∀ s : State, s.ring.present = false ∨ s.draining = true → exec .rbRead s = .next { s with err := .state }) ∧
  ∀ (s : State) (j : Nat), s.mem.wf = true → s.ring.Ok → s.ring.present = true → s.draining = false →
    s.env.phased = false → j < min s.args.a1.toNat s.ring.used →
    (∀ i < j, admits s.cfg (s.args.a0 + BitVec.ofNat 32 i) = true) →
    admits s.cfg (s.args.a0 + BitVec.ofNat 32 j) = false →
    ∃ t, exec .rbRead s = .next t ∧
      (∀ i < j, some (t.mem.read (s.args.a0 + BitVec.ofNat 32 i).toNat) = s.ring.content[i]?) ∧
      (∀ a, (∀ i < j, a ≠ (s.args.a0 + BitVec.ofNat 32 i).toNat) → t.mem.read a = s.mem.read a) ∧
      t = { s with mem := t.mem, err := .bus, job := none }

/-- 40_ring_buffer.md R104 and R108: while the engine drains an allocated ring, RB.READ, RB.CLEAR and RB.DESTROY raise
ERR_STATE without effect, and RB.WRITE is not restricted (it does what it does with the engine stopped). -/
def Obligations.DrainedRingHasOneConsumer : Prop :=
  ∀ s : State, s.ring.present = true → s.eng.prov = .ring → s.eng.running = true →
    exec .rbRead s = .next { s with err := .state } ∧
    exec .rbClear s = .next { s with err := .state } ∧
    exec .rbDestroy s = .next { s with err := .state } ∧
    ∀ t, exec .rbWrite { s with eng := { s.eng with running := false } } = .next t →
      exec .rbWrite s = .next { t with eng := s.eng }

/-- 40_ring_buffer.md R105 and R106 with R110 (a): used and free of one cursor pair, as integers modulo C; 0 with no ring;
their sum is C - 1. -/
def Obligations.RbUsedAndFreeReportOccupancy : Prop :=
  decode 0x00000004 = .ok .rbUsed ∧ decode 0x00000005 = .ok .rbFree ∧
  ∀ s : State, s.ring.Ok →
    ∃ u f : Word,
      exec .rbUsed s = .next { s with res := { s.res with r0 := u }, err := .ok } ∧
      exec .rbFree s = .next { s with res := { s.res with r0 := f }, err := .ok } ∧
      (s.ring.present = false → u = 0 ∧ f = 0) ∧
      (s.ring.present = true →
        (u.toNat : ℤ) = ((s.ring.wr.toNat : ℤ) - s.ring.rd.toNat) % s.ring.cap.toNat ∧
        (f.toNat : ℤ) = s.ring.cap.toNat - 1 - ((s.ring.wr.toNat : ℤ) - s.ring.rd.toNat) % s.ring.cap.toNat ∧
        u.toNat + f.toNat = s.ring.cap.toNat - 1)

/-- 40_ring_buffer.md R107. -/
def Obligations.RbClearEmptiesTheRing : Prop :=
  decode 0x00000006 = .ok .rbClear ∧
  ∀ s : State,
    (s.ring.present = false ∨ (s.eng.prov = .ring ∧ s.eng.running = true) →
      exec .rbClear s = .next { s with err := .state }) ∧
    (s.ring.present = true → ¬(s.eng.prov = .ring ∧ s.eng.running = true) →
      exec .rbClear s = .next { s with ring := { s.ring with rd := 0, wr := 0 }, err := .ok } ∧
      ({ s.ring with rd := 0, wr := 0 } : Ring).content = [])

/-- 40_ring_buffer.md R108. -/
def Obligations.RbDestroyFreesTheRing : Prop :=
  decode 0x00000007 = .ok .rbDestroy ∧
  ∀ s : State,
    (s.ring.present = false → exec .rbDestroy s = .next { s with err := .ok }) ∧
    (s.ring.present = true → s.eng.prov = .ring → s.eng.running = true →
      exec .rbDestroy s = .next { s with err := .state }) ∧
    (s.ring.present = true → ¬(s.eng.prov = .ring ∧ s.eng.running = true) →
      exec .rbDestroy s = .next { s with ring := ⟨false, 0, 0, 0, []⟩, err := .ok })

/-- 40_ring_buffer.md R100 (b) for RB.WRITE taken phase by phase (log entry 4; on ERR_BUS log entry 9): the SNAPSHOT changes nothing the host
can read; a byte copy leaves the waiting bytes as they are and adds one unpublished byte; the PUBLISH appends the
unpublished bytes, in one step with RB_WR, RES0 and STATUS.ERR. -/
def Obligations.WritePhasesPublishAtTheEnd : Prop :=
  (∀ s : State, s.env.phased = true → s.ring.present = true →
    exec .rbWrite s = .next { s with
      job := some ⟨.intoRing, s.args.a0, s.ring.wr, min s.args.a1.toNat s.ring.free, 0⟩ }) ∧
  ∀ (s : State) (j : RingJob) (rest : List Turn), s.Inv → s.job = some j → j.dir = .intoRing →
    s.interruptEnabled = false → s.env.sched = .phase :: rest →
    ∃ t, step s = .next t ∧
      (j.moved < j.total → admits s.cfg (j.addr + BitVec.ofNat 32 j.moved) = true →
        t.ring.content = s.ring.content ∧
        t.unpublished = s.unpublished ++ [s.mem.read (j.addr + BitVec.ofNat 32 j.moved).toNat] ∧
        t = { s with
          ring := { s.ring with bytes := t.ring.bytes }
          job := some { j with moved := j.moved + 1 }
          env := { s.env with sched := rest, phased := true } }) ∧
      (j.moved < j.total → admits s.cfg (j.addr + BitVec.ofNat 32 j.moved) = false →
        t.ring.content = s.ring.content ∧ t.ring.bytes.length = s.ring.bytes.length ∧
        (∀ p, (∀ i < j.moved, p ≠ (j.cur.toNat + i) % s.ring.cap.toNat) → t.ring.bytes[p]? = s.ring.bytes[p]?) ∧
        t = { s with
          ring := { s.ring with bytes := t.ring.bytes }
          err := .bus
          job := none
          env := { s.env with sched := rest, phased := true, drawn := s.env.drawn + j.moved } }) ∧
      (j.moved = j.total →
        t.ring.content = s.ring.content ++ s.unpublished ∧
        t = { s with
          ring := { s.ring with wr := t.ring.wr }
          res := { s.res with r0 := BitVec.ofNat 32 j.total }
          err := .ok
          job := none
          env := { s.env with sched := rest, phased := true } })

/-- 40_ring_buffer.md R100 (b) for RB.READ taken phase by phase (log entry 4): copies leave the ring alone, the PUBLISH
drops the copied bytes in one step with RB_RD, RES0 and STATUS.ERR. -/
def Obligations.ReadPhasesPublishAtTheEnd : Prop :=
  (∀ s : State, s.env.phased = true → s.ring.present = true → s.draining = false →
    exec .rbRead s = .next { s with
      job := some ⟨.outOfRing, s.args.a0, s.ring.rd, min s.args.a1.toNat s.ring.used, 0⟩ }) ∧
  ∀ (s : State) (j : RingJob) (rest : List Turn), s.Inv → s.job = some j → j.dir = .outOfRing →
    s.interruptEnabled = false → s.env.sched = .phase :: rest →
    ∃ t, step s = .next t ∧
      (j.moved < j.total → admits s.cfg (j.addr + BitVec.ofNat 32 j.moved) = true →
        some (t.mem.read (j.addr + BitVec.ofNat 32 j.moved).toNat) = s.ring.content[j.moved]? ∧
        (∀ a, a ≠ (j.addr + BitVec.ofNat 32 j.moved).toNat → t.mem.read a = s.mem.read a) ∧
        t = { s with
          mem := t.mem
          job := some { j with moved := j.moved + 1 }
          env := { s.env with sched := rest, phased := true } }) ∧
      (j.moved < j.total → admits s.cfg (j.addr + BitVec.ofNat 32 j.moved) = false →
        t = { s with err := .bus, job := none, env := { s.env with sched := rest, phased := true } }) ∧
      (j.moved = j.total →
        t.ring.content = s.ring.content.drop j.total ∧
        t = { s with
          ring := { s.ring with rd := t.ring.rd }
          res := { s.res with r0 := BitVec.ofNat 32 j.total }
          err := .ok
          job := none
          env := { s.env with sched := rest, phased := true } })

/-- 40_ring_buffer.md R109, 60_exceptions.md R227: a tick, a step of the interrupt context or a register read between two
phases of a ring command leaves the command as it was, takes bytes only from the front of the waiting ones, and never
touches ring storage, RB_WR or system memory. -/
def Obligations.OtherAgentsRespectTheRingCommand : Prop :=
  ∀ (s t : State) (j : RingJob) (turn : Turn) (rest : List Turn), s.Inv → s.job = some j →
    s.env.sched = turn :: rest → (turn = .tick ∨ turn = .irq ∨ ∃ off, turn = .peek off) → step s = .next t →
    t.job = some j ∧ t.JobOk ∧ t.ring = { s.ring with rd := t.ring.rd } ∧ t.unpublished = s.unpublished ∧
      (∃ n, t.ring.content = s.ring.content.drop n) ∧ t.mem = s.mem ∧ t.args = s.args ∧ t.res = s.res ∧ t.err = s.err

/-- 41_rate.md R130 to R133 over the exact rationals: `fit` answers NONE exactly when no wrap in range is accepted;
otherwise the divider is the ideal one rounded to the nearest sixteenth, ties up, and stays in range; if the error is
below FIT_EPS no smaller accepted wrap has such an error; if not, the error is least and, among equals, the wrap is. -/
def Obligations.FitFindsTheBestRate : Prop :=
  ∀ (p : Config.Params) (t k : Nat), p.wf = true → 0 < t →
    (fit p t k = none ↔ ∀ w, p.wrapMin ≤ w → w ≤ p.wrapMax → ¬ wrapAccepted p t k w) ∧
    ∀ c, fit p t k = some c →
      p.wrapMin ≤ c.wrap ∧ c.wrap ≤ p.wrapMax ∧ wrapAccepted p t k c.wrap ∧
      (c.d16 : ℤ) = roundedD16 t k c.wrap ∧ p.d16Min ≤ c.d16 ∧ c.d16 ≤ p.d16Max ∧
      (rateError t k c.wrap < fitEps p →
        ∀ w, p.wrapMin ≤ w → w < c.wrap → wrapAccepted p t k w → fitEps p ≤ rateError t k w) ∧
      (fitEps p ≤ rateError t k c.wrap →
        ∀ w, p.wrapMin ≤ w → w ≤ p.wrapMax → wrapAccepted p t k w →
          rateError t k c.wrap ≤ rateError t k w ∧ (w < c.wrap → rateError t k c.wrap < rateError t k w))

/-- The corner cases of 41_rate.md R133: T = 0 and K = 0 give NONE, and with the default bounds and a 125 MHz clock the
rates that fit are exactly 120 Hz to 488281 Hz. With them, 41_rate.md R137 (c): from 8000 Hz to 48000 Hz the relative error
is at most 72821 / 1000072821, worst at 44166 Hz, the absolute error at most 70442 / 21279 Hz, worst at 46998 Hz, and 34869
of the 40001 rates stop early at an error below FIT_EPS. -/
def Obligations.FitCornerCases : Prop :=
  (∀ (p : Config.Params) (k : Nat), fit p 0 k = none) ∧
  (∀ (p : Config.Params) (t : Nat), p.wf = true → fit p t 0 = none) ∧
  (∀ t : Nat, (fit Config.platform t 125000000).isSome = true ↔ 120 ≤ t ∧ t ≤ 488281) ∧
  (∀ t : Nat, 8000 ≤ t → t ≤ 48000 →
    ∃ c, fit Config.platform t 125000000 = some c ∧
      |achievedRate 125000000 c.wrap c.d16 - (t : ℚ)| / (t : ℚ) ≤ 72821 / 1000072821 ∧
      |achievedRate 125000000 c.wrap c.d16 - (t : ℚ)| ≤ 70442 / 21279) ∧
  (fit Config.platform 44166 125000000 = some ⟨1968, 23⟩ ∧
    |achievedRate 125000000 1968 23 - 44166| / 44166 = 72821 / 1000072821) ∧
  (fit Config.platform 46998 125000000 = some ⟨345, 123⟩ ∧
    |achievedRate 125000000 345 123 - 46998| = 70442 / 21279) ∧
  (List.range' 8000 40001).countP (fun t =>
      (fit Config.platform t 125000000).any (fitClose Config.platform t 125000000)) = 34869

/-- 41_rate.md R134: the results of FIT are those of `fit`, the rate's parts floors of the exact rational; when it answers
NONE, ERR_CONFIG. No engine state changes. For parameters and a clock so far from the defaults that a result exceeds 32
bits, that the register holds its low bits is the model's choice (log entry 10). -/
def Obligations.FitCommandReportsTheFit : Prop :=
  decode 0x00000010 = .ok .fit ∧
  ∀ s : State,
    (fit s.cfg s.args.a0.toNat s.args.a1.toNat = none → exec .fit s = .next { s with err := .config }) ∧
    ∀ c, fit s.cfg s.args.a0.toNat s.args.a1.toNat = some c →
      ∀ a : ℚ, a = achievedRate s.args.a1.toNat c.wrap c.d16 →
        exec .fit s = .next { s with
          res :=
            ⟨BitVec.ofNat 32 c.wrap, BitVec.ofNat 32 c.d16, BitVec.ofInt 32 ⌊a⌋,
              BitVec.ofInt 32 ⌊(a - ⌊a⌋) * 65536⌋⟩
          err := .ok }

/-- 41_rate.md R135. For a PCT_MAX_X100 so large that the scale exceeds 32 bits, that RATE_SCALE and RES0 hold its low
bits is the model's choice (log entry 10). -/
def Obligations.RateSetConvertsThePercentage : Prop :=
  decode 0x00000011 = .ok .rateSet ∧
  ∀ (s : State) (v : Word),
    v = BitVec.ofNat 32 (min (max s.args.a0.toNat s.cfg.pctMin) s.cfg.pctMax * 65536 / 10000) →
    exec .rateSet s = .next { s with rateScale := v, res := { s.res with r0 := v }, err := .ok }

/-- 41_rate.md R136: exact product, floor, clamp. For a RATE_MIN or RATE_MAX of 2^32 or more, that RES0 holds the low bits
is the model's choice (log entry 10). -/
def Obligations.RateApplyScalesAndClamps : Prop :=
  decode 0x00000012 = .ok .rateApply ∧
  ∀ (s : State) (q : ℤ),
    q = ⌊(s.args.a0.toNat : ℚ) * s.rateScale.toNat / 65536⌋ →
    exec .rateApply s = .next { s with
      res := { s.res with r0 := BitVec.ofInt 32 (min (max q s.cfg.rateMin) s.cfg.rateMax) }
      err := .ok }

/-- 10_state.md R43: RATE_SCALE is written only by RATE.SET and by reset: no tick, interrupt step, register read or store
of the platform changes it, also while a RATE.SET waits. -/
def Obligations.OnlyRateSetChangesTheScale : Prop :=
  ∀ s t : State, step s = .next t → t.rateScale ≠ s.rateScale →
    (∃ rest, s.env.sched = .reset :: rest) ∨
      (s.HostTurn ∧ s.interruptEnabled = false ∧ s.Issues 0x11)

/-- 42_engine.md R160: the level map as an integer quotient, and the silence level. -/
def Obligations.LevelMapFormula : Prop :=
  ∀ w : Nat, w ≤ 65535 →
    (∀ x : Sample, ((levelOf w x).toNat : ℤ) = (x.toInt + 32768) * (w + 1) / 65536) ∧
    levelOf w 0 = silence w ∧ (silence w).toNat = (w + 1) / 2 ∧
    (w % 2 = 0 → 2 * (silence w).toNat = w) ∧ (w % 2 = 1 → 2 * (silence w).toNat = w + 1)

/-- 42_engine.md R161: monotonic, exact at both extremes, in range. -/
def Obligations.LevelMapMonotoneAndExactAtEnds : Prop :=
  (∀ w : Nat, w ≤ 65535 →
    (∀ x y : Sample, x.toInt < y.toInt → (levelOf w x).toNat ≤ (levelOf w y).toNat) ∧
    levelOf w (BitVec.ofInt 16 (-32768)) = 0 ∧ (levelOf w 32767).toNat = w ∧
    ∀ x : Sample, (levelOf w x).toNat ≤ w) ∧
  [-32768, -16384, 0, 16384, 32767].map (fun x : ℤ => (levelOf 906 (BitVec.ofInt 16 x)).toNat) =
    [0, 226, 453, 680, 906]

/-- 42_engine.md R162: a successful ENG.INIT, register by register. For a divider above 12 bits (D16_MAX above 4095) or a
rate above 32, that ENG_DIV and ENG_RATE hold the low bits, beside an untruncated RES1, is the model's choice (log
entry 10). -/
def Obligations.EngInitConfiguresTheSession : Prop :=
  decode 0x00000020 = .ok .engInit ∧
  ∀ (s : State) (c : Fitted) (v : Level), s.cfg.wf = true → s.eng.running = false →
    (s.args.a3 = 1 ∨ s.args.a3 = 2) → (s.args.a0.toNat, s.args.a1.toNat) ∈ s.cfg.pins →
    fit s.cfg s.args.a2.toNat s.cfg.sysClkHz = some c → v.toNat = (c.wrap + 1) / 2 →
    ∃ t, exec .engInit s = .next t ∧
      t.sess.configured = true ∧ t.sess.srate = s.args.a2 ∧ t.sess.pinL.toNat = s.args.a0.toNat ∧
      t.sess.pinR.toNat = s.args.a1.toNat ∧ t.sess.nch.toNat = s.args.a3.toNat ∧ t.sess.wrap.toNat = c.wrap ∧
      t.sess.div = BitVec.ofNat 12 c.d16 ∧
      (∀ a : ℚ, a = achievedRate s.cfg.sysClkHz c.wrap c.d16 →
        t.sess.rate = BitVec.ofInt 32 ⌊a⌋ ∧ (t.sess.rateFrac.toNat : ℤ) = ⌊(a - ⌊a⌋) * 65536⌋) ∧
      t.res = ⟨BitVec.ofNat 32 c.wrap, BitVec.ofNat 32 c.d16, t.sess.rate, t.sess.rateFrac.setWidth 32⟩ ∧
      t = { s with
        sess := t.sess
        eng := { s.eng with
          buf0 := ⟨List.replicate s.cfg.batch v, List.replicate s.cfg.batch v⟩
          buf1 := ⟨List.replicate s.cfg.batch v, List.replicate s.cfg.batch v⟩
          last := ⟨v, v⟩
          out := ⟨v, v⟩
          underrun := 0
          prov := .none
          playIdx := .b0 }
        res := t.res
        err := .ok }

/-- 42_engine.md R162, the errors, ERR_STATE first: the previous session is unchanged. -/
def Obligations.EngInitErrorsKeepTheSession : Prop :=
  ∀ s : State,
    (s.eng.running = true → exec .engInit s = .next { s with err := .state }) ∧
    (s.eng.running = false →
      (s.args.a3 ≠ 1 ∧ s.args.a3 ≠ 2) ∨ (s.args.a0.toNat, s.args.a1.toNat) ∉ s.cfg.pins ∨
        fit s.cfg s.args.a2.toNat s.cfg.sysClkHz = none →
      exec .engInit s = .next { s with err := .config })

/-- 42_engine.md R163. -/
def Obligations.EngSetprovRegistersTheProvider : Prop :=
  decode 0x00000021 = .ok .engSetprov ∧
  ∀ s : State,
    (s.eng.running = true ∨ s.sess.configured = false → exec .engSetprov s = .next { s with err := .state }) ∧
    (s.eng.running = false → s.sess.configured = true → 2 < s.args.a0.toNat →
      exec .engSetprov s = .next { s with err := .config }) ∧
    ∀ p : Prov, s.eng.running = false → s.sess.configured = true → s.args.a0.toNat = p.code.toNat →
      exec .engSetprov s = .next { s with eng := { s.eng with prov := p }, err := .ok }

/-- 42_engine.md R164: a successful ENG.START claims, prefills both buffers in order, arms buffer 0 and enables the
output; outside the engine only RB_RD and the draws move, as the two fills move them. Which draw DMA_CLAIM_OK takes is
the model's choice (log entry 5). -/
def Obligations.EngStartPrefillsThenEnables : Prop :=
  decode 0x00000022 = .ok .engStart ∧
  ∀ s s₀ s₁ : State, s.eng.running = false → s.sess.configured = true → s.eng.prov ≠ .none → s.claimOk = true →
    s₀ = s.tookClaim → s₁ = fill .b0 s₀ →
    ∃ t, exec .engStart s = .next t ∧
      t.eng = { s.eng with
        buf0 := fillBank s₀
        buf1 := fillBank s₁
        last := fillLast s₁
        underrun := fillUnderrun s₁
        playIdx := .b0
        dmaIdx := 0
        armed := true
        irqPend := false
        inHandler := false
        running := true
        outEn := true
        dmaClaimed := true } ∧
      t.ring = (fill .b1 s₁).ring ∧ t.env = (fill .b1 s₁).env ∧
      t = { s with
        eng := t.eng
        ring := { s.ring with rd := t.ring.rd }
        env := { s.env with
          claim := s.env.claim.tail
          answers := t.env.answers
          drawn := t.env.drawn }
        err := .ok }

/-- 42_engine.md R164 with 60_exceptions.md R224: ERR_STATE before ERR_RESOURCE, and a rejected start calls no provider.
That ERR_STATE takes no draw and ERR_RESOURCE exactly one is the model's choice (log entry 5). -/
def Obligations.EngStartErrorsCallNoProvider : Prop :=
  ∀ s : State,
    (s.eng.running = true ∨ s.sess.configured = false ∨ s.eng.prov = .none →
      exec .engStart s = .next { s with err := .state }) ∧
    (s.eng.running = false → s.sess.configured = true → s.eng.prov ≠ .none → s.claimOk = false →
      exec .engStart s = .next { s with
        err := .resource
        env := { s.env with claim := s.env.claim.tail, drawn := s.env.drawn + 1 } })

/-- 42_engine.md R165. -/
def Obligations.EngStopSilencesAndHalts : Prop :=
  decode 0x00000023 = .ok .engStop ∧
  ∀ (s : State) (v : Level), v.toNat = (s.sess.wrap.toNat + 1) / 2 →
    exec .engStop s = .next { s with
      eng := { s.eng with
        armed := false
        irqPend := false
        inHandler := false
        outEn := false
        running := false
        playIdx := .b0
        dmaClaimed := false
        out := if s.sess.configured then ⟨v, v⟩ else s.eng.out
        last := if s.sess.configured then ⟨v, v⟩ else s.eng.last }
      err := .ok }

/-- 42_engine.md R166: the counter, which offset 0x4C reads too, and which is 0 before the first ENG.INIT. -/
def Obligations.EngUnderrunsReadsTheCounter : Prop :=
  decode 0x00000024 = .ok .engUnderruns ∧
  ∀ s : State,
    exec .engUnderruns s = .next { s with res := { s.res with r0 := s.eng.underrun }, err := .ok } ∧
    s.readReg 0x4C = s.eng.underrun ∧ (s.Inv → s.sess.configured = false → s.eng.underrun = 0)

/-- 42_engine.md R167: the two parts of the achieved rate, 0 before the first ENG.INIT, the truncated exact rational
after it. That a rate above 32 bits is held as its low bits, and that nothing is said where D16_MAX is above ENG_DIV's
4095, is the model's choice (log entry 10). -/
def Obligations.EngRateReadsTheAchievedRate : Prop :=
  decode 0x00000025 = .ok .engRate ∧
  ∀ s : State,
    (∃ f : Word, f.toNat = s.sess.rateFrac.toNat ∧
      exec .engRate s = .next { s with res := { s.res with r0 := s.sess.rate, r1 := f }, err := .ok }) ∧
    (s.Inv → s.sess.configured = false → s.sess.rate = 0 ∧ s.sess.rateFrac = 0) ∧
    (s.Inv → s.sess.configured = true → s.cfg.d16Max ≤ 4095 →
      ∀ a : ℚ, a = achievedRate s.cfg.sysClkHz s.sess.wrap.toNat s.sess.div.toNat →
        s.sess.rate = BitVec.ofInt 32 ⌊a⌋ ∧ (s.sess.rateFrac.toNat : ℤ) = ⌊(a - ⌊a⌋) * 65536⌋)

/-- 42_engine.md R170: `k` converted frames, the rest padded with the last valid level, LAST and ENG_UNDERRUN; the other
buffer and, but for what the provider changes, everything else as it was. -/
def Obligations.FillConvertsAndPads : Prop :=
  ∀ (b : Slot) (s : State) (q : Request) (k : Nat), q = request s.cfg.batch s →
    (k : ℤ) = min (max q.count 0) s.cfg.batch →
    k ≤ q.pcm.length ∧
    (∀ i f, i < k → q.pcm[i]? = some f →
      ((fill b s).eng.bank b).left[i]? = some (levelOf s.sess.wrap.toNat f.ch0) ∧
      ((fill b s).eng.bank b).right[i]? =
        some (levelOf s.sess.wrap.toNat (if s.sess.nch = 2 then f.ch1 else f.ch0))) ∧
    (0 < k →
      ((fill b s).eng.bank b).left[k - 1]? = some (fill b s).eng.last.left ∧
      ((fill b s).eng.bank b).right[k - 1]? = some (fill b s).eng.last.right) ∧
    (k = 0 → (fill b s).eng.last = s.eng.last) ∧
    (∀ i, k ≤ i → i < s.cfg.batch →
      ((fill b s).eng.bank b).left[i]? = some (fill b s).eng.last.left ∧
      ((fill b s).eng.bank b).right[i]? = some (fill b s).eng.last.right) ∧
    ((fill b s).eng.bank b).left.length = s.cfg.batch ∧ ((fill b s).eng.bank b).right.length = s.cfg.batch ∧
    (fill b s).eng.bank b.other = s.eng.bank b.other ∧
    (fill b s).eng.underrun = (if k < s.cfg.batch then s.eng.underrun + 1 else s.eng.underrun) ∧
    fill b s = { q.after with
      eng := ({ s.eng with last := (fill b s).eng.last, underrun := (fill b s).eng.underrun }).setBank b
        ((fill b s).eng.bank b) }

/-- 42_engine.md R190: whole frames only, at most `max`, taken from the front of the waiting bytes, little-endian,
channel 0 first; no ring gives zero frames. -/
def Obligations.DrainTakesWholeFramesInOrder : Prop :=
  ∀ (s : State) (max k fb : Nat), s.ring.Ok → (s.sess.nch = 1 ∨ s.sess.nch = 2) → fb = 2 * s.sess.nch.toNat →
    k = min max (s.ring.used / fb) →
    (s.ring.present = false → drainRing max s = ⟨0, [], s⟩) ∧
    (s.ring.present = true →
      (drainRing max s).count = k ∧ (drainRing max s).pcm.length = k ∧
      (drainRing max s).after.ring.content = s.ring.content.drop (k * fb) ∧
      (drainRing max s).after = { s with
        ring := { s.ring with rd := BitVec.ofNat 32 ((s.ring.rd.toNat + k * fb) % s.ring.cap.toNat) } } ∧
      ∀ i f, (drainRing max s).pcm[i]? = some f →
        (∃ lo hi : Byte, s.ring.content[fb * i]? = some lo ∧ s.ring.content[fb * i + 1]? = some hi ∧
          f.ch0.toNat = hi.toNat * 256 + lo.toNat) ∧
        (s.sess.nch = 2 →
          ∃ lo hi : Byte, s.ring.content[fb * i + 2]? = some lo ∧ s.ring.content[fb * i + 3]? = some hi ∧
            f.ch1.toNat = hi.toNat * 256 + lo.toNat))

/-- 42_engine.md R191 and R192: the external provider's answer is used as it comes (free values where none is queued:
log entry 16), one answer per request; no provider gives zero frames. -/
def Obligations.ProviderAnswers : Prop :=
  ∀ (s : State) (max : Nat),
    (s.eng.prov = .none → request max s = ⟨0, [], s⟩) ∧
    (s.eng.prov = .external →
      (request max s).after = { s with
        env := { s.env with answers := s.env.answers.tail, drawn := s.env.drawn + 1 } } ∧
      (∀ a l, s.env.answers = a :: l →
        (request max s).count = a.count.toInt ∧
        ∀ (i : Nat) (f : Frame), a.frames[i]? = some f → (i : ℤ) < min a.count.toInt max →
          (request max s).pcm[i]? = some f) ∧
      (s.env.answers = [] → (request max s).count = (Config.freeCount s.env.drawn).toInt))

/-- 42_engine.md R200: a tick of an armed pair outputs one element per channel and, at the last, raises the completion
interrupt; a gap tick changes nothing. With the output disabled there is no tick: that its turn then passes without effect
is the model's choice (log entry 12). -/
def Obligations.TickPlaysOneElement : Prop :=
  ∀ (s : State) (rest : List Turn), s.env.sched = .tick :: rest →
    (s.eng.outEn = true → s.eng.armed = true →
      ∀ l r, (s.eng.bank s.eng.playIdx).left[s.eng.dmaIdx]? = some l →
        (s.eng.bank s.eng.playIdx).right[s.eng.dmaIdx]? = some r →
        step s = .next { s with
          eng := { s.eng with
            out := ⟨l, r⟩
            dmaIdx := s.eng.dmaIdx + 1
            armed := if s.eng.dmaIdx + 1 = s.cfg.batch then false else s.eng.armed
            irqPend := if s.eng.dmaIdx + 1 = s.cfg.batch then true else s.eng.irqPend }
          env := { s.env with sched := rest } }) ∧
    (s.eng.outEn = false ∨ s.eng.armed = false → step s = .next { s with env := { s.env with sched := rest } })

/-- 42_engine.md R180 and 60_exceptions.md R226, R228: completion entry, enabled exactly then, is one atomic step.
That a turn of the interrupt context with nothing enabled passes without effect is the model's choice (log entry 12). -/
def Obligations.CompletionEntryRearmsAndFlips : Prop :=
  ∀ (s : State) (rest : List Turn), s.env.sched = .irq :: rest → s.eng.inHandler = false →
    (s.eng.irqPend = true → s.eng.running = true →
      step s = .next { s with
        eng := { s.eng with
          dmaIdx := 0
          armed := true
          playIdx := if s.eng.playIdx = .b0 then .b1 else .b0
          irqPend := false
          inHandler := true
          fillTgt := s.eng.playIdx }
        env := { s.env with sched := rest } }) ∧
    (s.eng.irqPend = false ∨ s.eng.running = false →
      step s = .next { s with env := { s.env with sched := rest } })

/-- 42_engine.md R181 and 60_exceptions.md R229: completion fill fills FILL_TGT and returns from the interrupt. -/
def Obligations.CompletionFillReturns : Prop :=
  ∀ (s u : State) (rest : List Turn), s.env.sched = .irq :: rest → s.eng.inHandler = true →
    u = fill s.eng.fillTgt { s with env := { s.env with sched := rest } } →
    step s = .next { u with eng := { u.eng with inHandler := false } }

/-- 10_state.md R21 and 60_exceptions.md R227 (a): while the interrupt context has an enabled step the host takes none, and
within three steps of that context the host's turn comes, its program and its command in progress untouched. That a
held-up host's turn stays at the head of the schedule while the interrupt context moves, so that no tick comes between
and three steps suffice, is the model's choice (log entry 13): R280 allows any number of ticks between. -/
def Obligations.HostWaitsAtMostThreeInterruptSteps : Prop :=
  ∀ (s : State) (turn : Turn) (rest : List Turn), (turn = .host ∨ turn = .phase) → s.env.sched = turn :: rest →
    (s.interruptEnabled = true → step s = .next (interruptStep s)) ∧
    ∃ n u, n ≤ 3 ∧ Host.Core.run Sys2Proof.core n s = .next u ∧ u.interruptEnabled = false ∧
      u.env.sched = turn :: rest ∧ u.env.host = s.env.host ∧ u.job = s.job ∧ u.args = s.args ∧ u.res = s.res

/-- 60_exceptions.md R227 (b): with a completion pending, a due tick may come before completion entry (a gap tick: the
output holds) or after it (the output is element 0 of the other buffer). -/
def Obligations.TickAndEntryInEitherOrder : Prop :=
  ∀ (s : State) (l r : Level) (rest : List Turn), s.Inv → s.eng.irqPend = true → s.eng.inHandler = false →
    (s.eng.bank s.eng.playIdx.other).left[0]? = some l → (s.eng.bank s.eng.playIdx.other).right[0]? = some r →
    (s.env.sched = .tick :: .irq :: rest →
      ∃ u, Host.Core.run Sys2Proof.core 2 s = .next u ∧ u.eng.out = s.eng.out ∧ u.eng.dmaIdx = 0 ∧
        u.eng.playIdx = s.eng.playIdx.other) ∧
    (s.env.sched = .irq :: .tick :: rest →
      ∃ u, Host.Core.run Sys2Proof.core 2 s = .next u ∧ u.eng.out = ⟨l, r⟩ ∧ u.eng.dmaIdx = 1 ∧
        u.eng.playIdx = s.eng.playIdx.other)

/-- 30_encoding.md R91: `CHK` reads STATUS, issues nothing, and lets the host's program go on only if the ERR field is 0
(the program as a queue: log entry 21). -/
def Obligations.CheckStopsTheProgramOnError : Prop :=
  ∀ (s : State) (hs : List HostOp) (rest : List Turn), s.HostNext rest → s.env.host = .check :: hs →
    step s = .next { s with
      env := { s.env with
        sched := rest
        phased := false
        reads := s.statusWord :: s.env.reads
        kept := (statusName, s.statusWord) :: s.env.kept
        host := if s.statusWord.extractLsb' 0 4 = 0 then hs else [] } }

/-- 42_engine.md R165 and 70_reset_and_hazards.md R260: while the engine is stopped no tick and no completion step changes
anything, so no callback fires. That the turn of an agent with no enabled step passes without effect is the model's choice
(log entry 12). -/
def Obligations.StoppedEngineStaysQuiet : Prop :=
  ∀ (s : State) (turn : Turn) (rest : List Turn), s.Inv → s.eng.running = false → s.env.sched = turn :: rest →
    (turn = .tick ∨ turn = .irq) → step s = .next { s with env := { s.env with sched := rest } }

/-- 10_state.md R30: no command writes an ARG register. -/
def Obligations.CommandsNeverWriteArguments : Prop :=
  ∀ (i : Instr) (s t : State), exec i s = .next t → t.args = s.args

/-- 60_exceptions.md R223 and R236: every command of every state ends in a next state, never in a fault or a refusal. -/
def Obligations.EveryCommandCompletes : Prop :=
  ∀ (i : Instr) (s : State), ∃ t, exec i s = .next t ∧ t.cfg = s.cfg

/-- 60_exceptions.md R223: a command that ends in an error writes no RES register, and changes nothing but the partial
effects of ERR_BUS in RB.WRITE and RB.READ (and the model's own draws). -/
def Obligations.ErrorsChangeNothingElse : Prop :=
  ∀ (i : Instr) (s t : State), s.env.phased = false → exec i s = .next t → t.err ≠ .ok →
    t = { s with
      err := t.err
      mem := t.mem
      ring := { s.ring with bytes := t.ring.bytes }
      job := t.job
      env := { s.env with alloc := t.env.alloc, claim := t.env.claim, drawn := t.env.drawn } } ∧
    (t.mem ≠ s.mem → i = .rbRead ∧ t.err = .bus) ∧
    (t.ring.bytes ≠ s.ring.bytes → i = .rbWrite ∧ t.err = .bus) ∧
    (t.job ≠ s.job → t.job = none ∧ t.err = .bus)

/-- 60_exceptions.md R222: the codes each command can report. -/
def Obligations.ErrorsEachCommandCanRaise : Prop :=
  ∀ (i : Instr) (s t : State), s.env.phased = false → exec i s = .next t →
    t.err ∈
      match i with
      | .rbInit => [ErrCode.ok, .state, .config, .alloc]
      | .rbWrite => [.ok, .state, .bus]
      | .rbRead => [.ok, .state, .bus]
      | .rbClear => [.ok, .state]
      | .rbDestroy => [.ok, .state]
      | .fit => [.ok, .config]
      | .engInit => [.ok, .state, .config]
      | .engSetprov => [.ok, .state, .config]
      | .engStart => [.ok, .state, .resource]
      | .nop | .rbUsed | .rbFree | .rateSet | .rateApply | .engStop | .engUnderruns | .engRate => [.ok]

/-- 20_memory.md R60: system memory changes only through RB.READ (its command word, or its job in progress) or by the
platform's own store, and in the host's turn; a tick, an interrupt step or a register read never reaches it, also while an
RB.READ waits. -/
def Obligations.OnlyRbReadWritesSystemMemory : Prop :=
  ∀ s t : State, step s = .next t → t.mem ≠ s.mem →
    (∃ a b rest, s.env.sched = .platform a b :: rest) ∨
      (s.HostTurn ∧ s.interruptEnabled = false ∧ ((∃ j, s.job = some j ∧ j.dir = .outOfRing) ∨ s.Issues 0x03))

/-- 42_engine.md R201 (a), 70_reset_and_hazards.md R270, 10_state.md R46: no step of a running engine, but the reset input,
writes the buffer that is playing. -/
def Obligations.PlayingBufferIsNeverWritten : Prop :=
  ∀ s t : State, s.Inv → s.eng.running = true → step s = .next t →
    (∀ rest, s.env.sched ≠ .reset :: rest) → t.eng.bank s.eng.playIdx = s.eng.bank s.eng.playIdx

/-- 40_ring_buffer.md R110 (b): no step reorders the waiting bytes or puts one in front: it appends at the back, takes
from the front, or empties the ring. -/
def Obligations.RingStaysAFifoQueue : Prop :=
  ∀ s t : State, s.Inv → step s = .next t →
    (∃ l, t.ring.content = s.ring.content ++ l) ∨ ∃ n, t.ring.content = s.ring.content.drop n

/-- 10_state.md R36 and 40_ring_buffer.md R110 (d): ring bytes nobody has written cannot be told apart by any step: states
that differ in those alone step to states that differ in those alone. -/
def Obligations.UnwrittenRingBytesStayHidden : Prop :=
  ∀ s s' t : State, s.Inv → s.SameVisible s' → step s = .next t →
    ∃ t', step s' = .next t' ∧ t.SameVisible t'

/-- Every step, from every state that meets it, keeps the invariant: canonical memory, the ring's cursors and storage, a
ring command's bounds, the session's ranges, the engine's control state and ownership (42_engine.md R201), the
levels' range (10_state.md, 40_ring_buffer.md R110 (a), 42_engine.md R201 and R202). The canonical form of memory is the
model's own (log entry 7). -/
def Obligations.EveryStepKeepsTheInvariant : Prop :=
  ∀ s t : State, s.Inv → step s = .next t → t.Inv ∧ t.cfg = s.cfg
end

