-- ==== Sys2Proof/Laws/State.lean ====
section
/-! SUPPORT. One lemma per field per named update of the state, true by `rfl`. -/

namespace Sys2Proof.Machine

@[simp] theorem setErr_cfg (e : ErrCode) (s : State) : (s.setErr e).cfg = s.cfg := rfl
@[simp] theorem setErr_args (e : ErrCode) (s : State) : (s.setErr e).args = s.args := rfl
@[simp] theorem setErr_res (e : ErrCode) (s : State) : (s.setErr e).res = s.res := rfl
@[simp] theorem setErr_err (e : ErrCode) (s : State) : (s.setErr e).err = e := rfl
@[simp] theorem setErr_ring (e : ErrCode) (s : State) : (s.setErr e).ring = s.ring := rfl
@[simp] theorem setErr_sess (e : ErrCode) (s : State) : (s.setErr e).sess = s.sess := rfl
@[simp] theorem setErr_eng (e : ErrCode) (s : State) : (s.setErr e).eng = s.eng := rfl
@[simp] theorem setErr_rateScale (e : ErrCode) (s : State) : (s.setErr e).rateScale = s.rateScale := rfl
@[simp] theorem setErr_mem (e : ErrCode) (s : State) : (s.setErr e).mem = s.mem := rfl
@[simp] theorem setErr_job (e : ErrCode) (s : State) : (s.setErr e).job = s.job := rfl
@[simp] theorem setErr_env (e : ErrCode) (s : State) : (s.setErr e).env = s.env := rfl

@[simp] theorem setRes0_cfg (v : Word) (s : State) : (s.setRes0 v).cfg = s.cfg := rfl
@[simp] theorem setRes0_args (v : Word) (s : State) : (s.setRes0 v).args = s.args := rfl
@[simp] theorem setRes0_res (v : Word) (s : State) : (s.setRes0 v).res = { s.res with r0 := v } := rfl
@[simp] theorem setRes0_err (v : Word) (s : State) : (s.setRes0 v).err = s.err := rfl
@[simp] theorem setRes0_ring (v : Word) (s : State) : (s.setRes0 v).ring = s.ring := rfl
@[simp] theorem setRes0_sess (v : Word) (s : State) : (s.setRes0 v).sess = s.sess := rfl
@[simp] theorem setRes0_eng (v : Word) (s : State) : (s.setRes0 v).eng = s.eng := rfl
@[simp] theorem setRes0_rateScale (v : Word) (s : State) : (s.setRes0 v).rateScale = s.rateScale := rfl
@[simp] theorem setRes0_mem (v : Word) (s : State) : (s.setRes0 v).mem = s.mem := rfl
@[simp] theorem setRes0_job (v : Word) (s : State) : (s.setRes0 v).job = s.job := rfl
@[simp] theorem setRes0_env (v : Word) (s : State) : (s.setRes0 v).env = s.env := rfl

@[simp] theorem setRes01_cfg (v w : Word) (s : State) : (s.setRes01 v w).cfg = s.cfg := rfl
@[simp] theorem setRes01_args (v w : Word) (s : State) : (s.setRes01 v w).args = s.args := rfl
@[simp] theorem setRes01_res (v w : Word) (s : State) : (s.setRes01 v w).res = { s.res with r0 := v, r1 := w } := rfl
@[simp] theorem setRes01_err (v w : Word) (s : State) : (s.setRes01 v w).err = s.err := rfl
@[simp] theorem setRes01_ring (v w : Word) (s : State) : (s.setRes01 v w).ring = s.ring := rfl
@[simp] theorem setRes01_sess (v w : Word) (s : State) : (s.setRes01 v w).sess = s.sess := rfl
@[simp] theorem setRes01_eng (v w : Word) (s : State) : (s.setRes01 v w).eng = s.eng := rfl
@[simp] theorem setRes01_rateScale (v w : Word) (s : State) : (s.setRes01 v w).rateScale = s.rateScale := rfl
@[simp] theorem setRes01_mem (v w : Word) (s : State) : (s.setRes01 v w).mem = s.mem := rfl
@[simp] theorem setRes01_job (v w : Word) (s : State) : (s.setRes01 v w).job = s.job := rfl
@[simp] theorem setRes01_env (v w : Word) (s : State) : (s.setRes01 v w).env = s.env := rfl

@[simp] theorem setRes_cfg (a b c d : Word) (s : State) : (s.setRes a b c d).cfg = s.cfg := rfl
@[simp] theorem setRes_args (a b c d : Word) (s : State) : (s.setRes a b c d).args = s.args := rfl
@[simp] theorem setRes_res (a b c d : Word) (s : State) : (s.setRes a b c d).res = ⟨a, b, c, d⟩ := rfl
@[simp] theorem setRes_err (a b c d : Word) (s : State) : (s.setRes a b c d).err = s.err := rfl
@[simp] theorem setRes_ring (a b c d : Word) (s : State) : (s.setRes a b c d).ring = s.ring := rfl
@[simp] theorem setRes_sess (a b c d : Word) (s : State) : (s.setRes a b c d).sess = s.sess := rfl
@[simp] theorem setRes_eng (a b c d : Word) (s : State) : (s.setRes a b c d).eng = s.eng := rfl
@[simp] theorem setRes_rateScale (a b c d : Word) (s : State) : (s.setRes a b c d).rateScale = s.rateScale := rfl
@[simp] theorem setRes_mem (a b c d : Word) (s : State) : (s.setRes a b c d).mem = s.mem := rfl
@[simp] theorem setRes_job (a b c d : Word) (s : State) : (s.setRes a b c d).job = s.job := rfl
@[simp] theorem setRes_env (a b c d : Word) (s : State) : (s.setRes a b c d).env = s.env := rfl

@[simp] theorem setFitted_cfg (c : Fitted) (k : Nat) (s : State) : (s.setFitted c k).cfg = s.cfg := rfl
@[simp] theorem setFitted_args (c : Fitted) (k : Nat) (s : State) : (s.setFitted c k).args = s.args := rfl
@[simp] theorem setFitted_res (c : Fitted) (k : Nat) (s : State) :
    (s.setFitted c k).res = ⟨BitVec.ofNat 32 c.wrap, BitVec.ofNat 32 c.d16, c.hz k, (c.frac k).setWidth 32⟩ := rfl
@[simp] theorem setFitted_err (c : Fitted) (k : Nat) (s : State) : (s.setFitted c k).err = s.err := rfl
@[simp] theorem setFitted_ring (c : Fitted) (k : Nat) (s : State) : (s.setFitted c k).ring = s.ring := rfl
@[simp] theorem setFitted_sess (c : Fitted) (k : Nat) (s : State) : (s.setFitted c k).sess = s.sess := rfl
@[simp] theorem setFitted_eng (c : Fitted) (k : Nat) (s : State) : (s.setFitted c k).eng = s.eng := rfl
@[simp] theorem setFitted_rateScale (c : Fitted) (k : Nat) (s : State) :
    (s.setFitted c k).rateScale = s.rateScale := rfl
@[simp] theorem setFitted_mem (c : Fitted) (k : Nat) (s : State) : (s.setFitted c k).mem = s.mem := rfl
@[simp] theorem setFitted_job (c : Fitted) (k : Nat) (s : State) : (s.setFitted c k).job = s.job := rfl
@[simp] theorem setFitted_env (c : Fitted) (k : Nat) (s : State) : (s.setFitted c k).env = s.env := rfl

@[simp] theorem tookAlloc_cfg (s : State) : s.tookAlloc.cfg = s.cfg := rfl
@[simp] theorem tookAlloc_args (s : State) : s.tookAlloc.args = s.args := rfl
@[simp] theorem tookAlloc_res (s : State) : s.tookAlloc.res = s.res := rfl
@[simp] theorem tookAlloc_err (s : State) : s.tookAlloc.err = s.err := rfl
@[simp] theorem tookAlloc_ring (s : State) : s.tookAlloc.ring = s.ring := rfl
@[simp] theorem tookAlloc_sess (s : State) : s.tookAlloc.sess = s.sess := rfl
@[simp] theorem tookAlloc_eng (s : State) : s.tookAlloc.eng = s.eng := rfl
@[simp] theorem tookAlloc_rateScale (s : State) : s.tookAlloc.rateScale = s.rateScale := rfl
@[simp] theorem tookAlloc_mem (s : State) : s.tookAlloc.mem = s.mem := rfl
@[simp] theorem tookAlloc_job (s : State) : s.tookAlloc.job = s.job := rfl
@[simp] theorem tookAlloc_env (s : State) :
    s.tookAlloc.env = { s.env with alloc := s.env.alloc.tail, drawn := s.env.drawn + 1 } := rfl

@[simp] theorem tookClaim_cfg (s : State) : s.tookClaim.cfg = s.cfg := rfl
@[simp] theorem tookClaim_args (s : State) : s.tookClaim.args = s.args := rfl
@[simp] theorem tookClaim_res (s : State) : s.tookClaim.res = s.res := rfl
@[simp] theorem tookClaim_err (s : State) : s.tookClaim.err = s.err := rfl
@[simp] theorem tookClaim_ring (s : State) : s.tookClaim.ring = s.ring := rfl
@[simp] theorem tookClaim_sess (s : State) : s.tookClaim.sess = s.sess := rfl
@[simp] theorem tookClaim_eng (s : State) : s.tookClaim.eng = s.eng := rfl
@[simp] theorem tookClaim_rateScale (s : State) : s.tookClaim.rateScale = s.rateScale := rfl
@[simp] theorem tookClaim_mem (s : State) : s.tookClaim.mem = s.mem := rfl
@[simp] theorem tookClaim_job (s : State) : s.tookClaim.job = s.job := rfl
@[simp] theorem tookClaim_env (s : State) :
    s.tookClaim.env = { s.env with claim := s.env.claim.tail, drawn := s.env.drawn + 1 } := rfl

@[simp] theorem tookAnswer_cfg (s : State) : s.tookAnswer.cfg = s.cfg := rfl
@[simp] theorem tookAnswer_args (s : State) : s.tookAnswer.args = s.args := rfl
@[simp] theorem tookAnswer_res (s : State) : s.tookAnswer.res = s.res := rfl
@[simp] theorem tookAnswer_err (s : State) : s.tookAnswer.err = s.err := rfl
@[simp] theorem tookAnswer_ring (s : State) : s.tookAnswer.ring = s.ring := rfl
@[simp] theorem tookAnswer_sess (s : State) : s.tookAnswer.sess = s.sess := rfl
@[simp] theorem tookAnswer_eng (s : State) : s.tookAnswer.eng = s.eng := rfl
@[simp] theorem tookAnswer_rateScale (s : State) : s.tookAnswer.rateScale = s.rateScale := rfl
@[simp] theorem tookAnswer_mem (s : State) : s.tookAnswer.mem = s.mem := rfl
@[simp] theorem tookAnswer_job (s : State) : s.tookAnswer.job = s.job := rfl
@[simp] theorem tookAnswer_env (s : State) :
    s.tookAnswer.env = { s.env with answers := s.env.answers.tail, drawn := s.env.drawn + 1 } := rfl

@[simp] theorem allocRing_cfg (c : Word) (s : State) : (s.allocRing c).cfg = s.cfg := rfl
@[simp] theorem allocRing_args (c : Word) (s : State) : (s.allocRing c).args = s.args := rfl
@[simp] theorem allocRing_res (c : Word) (s : State) : (s.allocRing c).res = s.res := rfl
@[simp] theorem allocRing_err (c : Word) (s : State) : (s.allocRing c).err = s.err := rfl
@[simp] theorem allocRing_ring (c : Word) (s : State) :
    (s.allocRing c).ring = ⟨true, c, 0, 0, freeBytes s.env.drawn c.toNat⟩ := rfl
@[simp] theorem allocRing_sess (c : Word) (s : State) : (s.allocRing c).sess = s.sess := rfl
@[simp] theorem allocRing_eng (c : Word) (s : State) : (s.allocRing c).eng = s.eng := rfl
@[simp] theorem allocRing_rateScale (c : Word) (s : State) : (s.allocRing c).rateScale = s.rateScale := rfl
@[simp] theorem allocRing_mem (c : Word) (s : State) : (s.allocRing c).mem = s.mem := rfl
@[simp] theorem allocRing_job (c : Word) (s : State) : (s.allocRing c).job = s.job := rfl
@[simp] theorem allocRing_env (c : Word) (s : State) :
    (s.allocRing c).env = { s.env with drawn := s.env.drawn + c.toNat } := rfl

@[simp] theorem see_cfg (v : Word) (s : State) : (s.see v).cfg = s.cfg := rfl
@[simp] theorem see_args (v : Word) (s : State) : (s.see v).args = s.args := rfl
@[simp] theorem see_res (v : Word) (s : State) : (s.see v).res = s.res := rfl
@[simp] theorem see_err (v : Word) (s : State) : (s.see v).err = s.err := rfl
@[simp] theorem see_ring (v : Word) (s : State) : (s.see v).ring = s.ring := rfl
@[simp] theorem see_sess (v : Word) (s : State) : (s.see v).sess = s.sess := rfl
@[simp] theorem see_eng (v : Word) (s : State) : (s.see v).eng = s.eng := rfl
@[simp] theorem see_rateScale (v : Word) (s : State) : (s.see v).rateScale = s.rateScale := rfl
@[simp] theorem see_mem (v : Word) (s : State) : (s.see v).mem = s.mem := rfl
@[simp] theorem see_job (v : Word) (s : State) : (s.see v).job = s.job := rfl
@[simp] theorem see_env (v : Word) (s : State) : (s.see v).env = { s.env with reads := v :: s.env.reads } := rfl
@[simp] theorem keep_cfg (n : Nat) (v : Word) (s : State) : (s.keep n v).cfg = s.cfg := rfl
@[simp] theorem keep_args (n : Nat) (v : Word) (s : State) : (s.keep n v).args = s.args := rfl
@[simp] theorem keep_res (n : Nat) (v : Word) (s : State) : (s.keep n v).res = s.res := rfl
@[simp] theorem keep_err (n : Nat) (v : Word) (s : State) : (s.keep n v).err = s.err := rfl
@[simp] theorem keep_ring (n : Nat) (v : Word) (s : State) : (s.keep n v).ring = s.ring := rfl
@[simp] theorem keep_sess (n : Nat) (v : Word) (s : State) : (s.keep n v).sess = s.sess := rfl
@[simp] theorem keep_eng (n : Nat) (v : Word) (s : State) : (s.keep n v).eng = s.eng := rfl
@[simp] theorem keep_rateScale (n : Nat) (v : Word) (s : State) : (s.keep n v).rateScale = s.rateScale := rfl
@[simp] theorem keep_mem (n : Nat) (v : Word) (s : State) : (s.keep n v).mem = s.mem := rfl
@[simp] theorem keep_job (n : Nat) (v : Word) (s : State) : (s.keep n v).job = s.job := rfl
@[simp] theorem keep_env (n : Nat) (v : Word) (s : State) :
    (s.keep n v).env = { s.env with kept := (n, v) :: s.env.kept } := rfl
@[simp] theorem keptAs_keep_self (n : Nat) (v : Word) (s : State) : (s.keep n v).keptAs n = v := by
  simp [State.keptAs, State.keep]
theorem keptAs_keep_other {m n : Nat} (h : m ≠ n) (v : Word) (s : State) : (s.keep n v).keptAs m = s.keptAs m := by
  simp [State.keptAs, State.keep, List.lookup, beq_false_of_ne h]
@[simp] theorem keptAs_see (m : Nat) (v : Word) (s : State) : (s.see v).keptAs m = s.keptAs m := rfl

@[simp] theorem setSched_cfg (l : List Turn) (s : State) : (s.setSched l).cfg = s.cfg := rfl
@[simp] theorem setSched_args (l : List Turn) (s : State) : (s.setSched l).args = s.args := rfl
@[simp] theorem setSched_res (l : List Turn) (s : State) : (s.setSched l).res = s.res := rfl
@[simp] theorem setSched_err (l : List Turn) (s : State) : (s.setSched l).err = s.err := rfl
@[simp] theorem setSched_ring (l : List Turn) (s : State) : (s.setSched l).ring = s.ring := rfl
@[simp] theorem setSched_sess (l : List Turn) (s : State) : (s.setSched l).sess = s.sess := rfl
@[simp] theorem setSched_eng (l : List Turn) (s : State) : (s.setSched l).eng = s.eng := rfl
@[simp] theorem setSched_rateScale (l : List Turn) (s : State) : (s.setSched l).rateScale = s.rateScale := rfl
@[simp] theorem setSched_mem (l : List Turn) (s : State) : (s.setSched l).mem = s.mem := rfl
@[simp] theorem setSched_job (l : List Turn) (s : State) : (s.setSched l).job = s.job := rfl
@[simp] theorem setSched_env (l : List Turn) (s : State) : (s.setSched l).env = { s.env with sched := l } := rfl

@[simp] theorem setPhased_cfg (b : Bool) (s : State) : (s.setPhased b).cfg = s.cfg := rfl
@[simp] theorem setPhased_args (b : Bool) (s : State) : (s.setPhased b).args = s.args := rfl
@[simp] theorem setPhased_res (b : Bool) (s : State) : (s.setPhased b).res = s.res := rfl
@[simp] theorem setPhased_err (b : Bool) (s : State) : (s.setPhased b).err = s.err := rfl
@[simp] theorem setPhased_ring (b : Bool) (s : State) : (s.setPhased b).ring = s.ring := rfl
@[simp] theorem setPhased_sess (b : Bool) (s : State) : (s.setPhased b).sess = s.sess := rfl
@[simp] theorem setPhased_eng (b : Bool) (s : State) : (s.setPhased b).eng = s.eng := rfl
@[simp] theorem setPhased_rateScale (b : Bool) (s : State) : (s.setPhased b).rateScale = s.rateScale := rfl
@[simp] theorem setPhased_mem (b : Bool) (s : State) : (s.setPhased b).mem = s.mem := rfl
@[simp] theorem setPhased_job (b : Bool) (s : State) : (s.setPhased b).job = s.job := rfl
@[simp] theorem setPhased_env (b : Bool) (s : State) : (s.setPhased b).env = { s.env with phased := b } := rfl

@[simp] theorem interruptEntry_cfg (s : State) : (interruptEntry s).cfg = s.cfg := rfl
@[simp] theorem interruptEntry_args (s : State) : (interruptEntry s).args = s.args := rfl
@[simp] theorem interruptEntry_res (s : State) : (interruptEntry s).res = s.res := rfl
@[simp] theorem interruptEntry_err (s : State) : (interruptEntry s).err = s.err := rfl
@[simp] theorem interruptEntry_ring (s : State) : (interruptEntry s).ring = s.ring := rfl
@[simp] theorem interruptEntry_sess (s : State) : (interruptEntry s).sess = s.sess := rfl
@[simp] theorem interruptEntry_eng (s : State) :
    (interruptEntry s).eng = { s.eng with
      dmaIdx := 0, armed := true, playIdx := s.eng.playIdx.other, irqPend := false, inHandler := true,
      fillTgt := s.eng.playIdx } := rfl
@[simp] theorem interruptEntry_rateScale (s : State) : (interruptEntry s).rateScale = s.rateScale := rfl
@[simp] theorem interruptEntry_mem (s : State) : (interruptEntry s).mem = s.mem := rfl
@[simp] theorem interruptEntry_job (s : State) : (interruptEntry s).job = s.job := rfl
@[simp] theorem interruptEntry_env (s : State) : (interruptEntry s).env = s.env := rfl

@[simp] theorem interruptReturn_cfg (s : State) : (interruptReturn s).cfg = s.cfg := rfl
@[simp] theorem interruptReturn_args (s : State) : (interruptReturn s).args = s.args := rfl
@[simp] theorem interruptReturn_res (s : State) : (interruptReturn s).res = s.res := rfl
@[simp] theorem interruptReturn_err (s : State) : (interruptReturn s).err = s.err := rfl
@[simp] theorem interruptReturn_ring (s : State) : (interruptReturn s).ring = s.ring := rfl
@[simp] theorem interruptReturn_sess (s : State) : (interruptReturn s).sess = s.sess := rfl
@[simp] theorem interruptReturn_eng (s : State) : (interruptReturn s).eng = { s.eng with inHandler := false } := rfl
@[simp] theorem interruptReturn_rateScale (s : State) : (interruptReturn s).rateScale = s.rateScale := rfl
@[simp] theorem interruptReturn_mem (s : State) : (interruptReturn s).mem = s.mem := rfl
@[simp] theorem interruptReturn_job (s : State) : (interruptReturn s).job = s.job := rfl
@[simp] theorem interruptReturn_env (s : State) : (interruptReturn s).env = s.env := rfl

@[simp] theorem startOutput_cfg (s : State) : (startOutput s).cfg = s.cfg := rfl
@[simp] theorem startOutput_args (s : State) : (startOutput s).args = s.args := rfl
@[simp] theorem startOutput_res (s : State) : (startOutput s).res = s.res := rfl
@[simp] theorem startOutput_err (s : State) : (startOutput s).err = s.err := rfl
@[simp] theorem startOutput_ring (s : State) : (startOutput s).ring = s.ring := rfl
@[simp] theorem startOutput_sess (s : State) : (startOutput s).sess = s.sess := rfl
@[simp] theorem startOutput_eng (s : State) :
    (startOutput s).eng = { s.eng with
      playIdx := .b0, dmaIdx := 0, armed := true, irqPend := false, inHandler := false, running := true,
      outEn := true, dmaClaimed := true } := rfl
@[simp] theorem startOutput_rateScale (s : State) : (startOutput s).rateScale = s.rateScale := rfl
@[simp] theorem startOutput_mem (s : State) : (startOutput s).mem = s.mem := rfl
@[simp] theorem startOutput_job (s : State) : (startOutput s).job = s.job := rfl
@[simp] theorem startOutput_env (s : State) : (startOutput s).env = s.env := rfl

@[simp] theorem resetInput_cfg (s : State) : (resetInput s).cfg = s.cfg := rfl
@[simp] theorem resetInput_args (s : State) : (resetInput s).args = ⟨0, 0, 0, 0⟩ := rfl
@[simp] theorem resetInput_res (s : State) : (resetInput s).res = ⟨0, 0, 0, 0⟩ := rfl
@[simp] theorem resetInput_err (s : State) : (resetInput s).err = .ok := rfl
@[simp] theorem resetInput_ring (s : State) : (resetInput s).ring = Ring.absent := rfl
@[simp] theorem resetInput_sess (s : State) : (resetInput s).sess = Session.unset := rfl
@[simp] theorem resetInput_eng (s : State) : (resetInput s).eng = Engine.idle s.cfg.batch := rfl
@[simp] theorem resetInput_rateScale (s : State) : (resetInput s).rateScale = 65536 := rfl
@[simp] theorem resetInput_mem (s : State) : (resetInput s).mem = s.mem := rfl
@[simp] theorem resetInput_job (s : State) : (resetInput s).job = none := rfl
@[simp] theorem resetInput_env (s : State) : (resetInput s).env = s.env := rfl

@[simp] theorem bank_b0 (e : Engine) : e.bank .b0 = e.buf0 := rfl
@[simp] theorem bank_b1 (e : Engine) : e.bank .b1 = e.buf1 := rfl
@[simp] theorem setBank_b0 (e : Engine) (k : Bank) : e.setBank .b0 k = { e with buf0 := k } := rfl
@[simp] theorem setBank_b1 (e : Engine) (k : Bank) : e.setBank .b1 k = { e with buf1 := k } := rfl
@[simp] theorem other_b0 : Slot.b0.other = .b1 := rfl
@[simp] theorem other_b1 : Slot.b1.other = .b0 := rfl

@[simp] theorem other_other (b : Slot) : b.other.other = b := by cases b <;> rfl

@[simp] theorem bank_setBank_self (e : Engine) (b : Slot) (k : Bank) : (e.setBank b k).bank b = k := by
  cases b <;> rfl

@[simp] theorem bank_setBank_other (e : Engine) (b : Slot) (k : Bank) :
    (e.setBank b k).bank b.other = e.bank b.other := by
  cases b <;> rfl

/-- Storing a buffer touches the buffers alone. -/
theorem setBank_frame (e : Engine) (b : Slot) (k : Bank) :
    e.setBank b k = { e with buf0 := (e.setBank b k).buf0, buf1 := (e.setBank b k).buf1 } := by
  cases b <;> rfl

/-- `raise` answers a next state that differs in STATUS.ERR alone. -/
theorem raise_eq (e : ErrCode) (s : State) : raise e s = .next { s with err := e } := rfl

/-- `done` answers a next state that differs in STATUS.ERR alone. -/
theorem done_eq (s : State) : done s = .next { s with err := .ok } := rfl

/-- If `raise` answers `t`, then `t` is the state with STATUS.ERR set. -/
theorem raise_next {e : ErrCode} {s t : State} (h : raise e s = .next t) : t = s.setErr e := by
  simpa [raise] using h.symm

/-- If `done` answers `t`, then `t` is the state with STATUS.ERR cleared. -/
theorem done_next {s t : State} (h : done s = .next t) : t = s.setErr .ok := by
  simpa [done] using h.symm

end Sys2Proof.Machine
end

