-- ==== Sys2Proof/Laws/Memory.lean ====
section
/-! SUPPORT. The laws of system memory: what a read finds after a store, and that the canonical form is kept. -/

namespace Sys2Proof.Machine

@[simp] theorem memory_read_nil (a : Nat) : Memory.read [] a = Memory.unlisted := rfl

theorem memory_read_cons (c : Host.Cell) (m : Memory) (a : Nat) :
    Memory.read (c :: m) a = if c.1 = a then c.2 else Memory.read m a := rfl

/-- An address below every listed one reads as an unlisted address does. -/
theorem memory_read_below {lo : Nat} {m : Memory} (h : m.wfFrom lo = true) {a : Nat} (ha : a < lo) :
    m.read a = Memory.unlisted := by
  induction m generalizing lo with
  | nil => rfl
  | cons c rest ih =>
    simp only [Memory.wfFrom, Bool.and_eq_true, decide_eq_true_eq] at h
    obtain ⟨⟨⟨h1, _⟩, _⟩, h4⟩ := h
    rw [memory_read_cons, if_neg (by omega), ih h4 (by omega)]

/-- A canonical list above an address is canonical above a smaller one. -/
theorem memory_wfFrom_mono {lo lo' : Nat} {m : Memory} (h : m.wfFrom lo = true) (hl : lo' ≤ lo) :
    m.wfFrom lo' = true := by
  cases m with
  | nil => rfl
  | cons c rest =>
    simp only [Memory.wfFrom, Bool.and_eq_true, decide_eq_true_eq] at h ⊢
    exact ⟨⟨⟨by omega, h.1.1.2⟩, h.1.2⟩, h.2⟩

theorem memory_cons_wf {lo a : Nat} {b : Byte} {m : Memory} (hl : lo ≤ a) (ha : a < 2 ^ 32)
    (h : m.wfFrom (a + 1) = true) : (Memory.cons a b m).wfFrom lo = true := by
  unfold Memory.cons
  split
  · exact memory_wfFrom_mono h (by omega)
  · simp_all [Memory.wfFrom]

/-- A store keeps the canonical form. -/
theorem memory_write_wfFrom {lo : Nat} {m : Memory} (h : m.wfFrom lo = true) {a : Nat} (hl : lo ≤ a)
    (ha : a < 2 ^ 32) (b : Byte) : (m.write a b).wfFrom lo = true := by
  induction m generalizing lo with
  | nil => exact memory_cons_wf hl ha rfl
  | cons c rest ih =>
    have hc := h
    simp only [Memory.wfFrom, Bool.and_eq_true, decide_eq_true_eq] at hc
    obtain ⟨⟨⟨h1, h2⟩, h3⟩, h4⟩ := hc
    unfold Memory.write
    split
    · refine memory_cons_wf hl ha ?_
      simp only [Memory.wfFrom, Bool.and_eq_true, decide_eq_true_eq]
      exact ⟨⟨⟨by omega, h2⟩, h3⟩, h4⟩
    · split
      · rename_i heq
        exact memory_cons_wf hl ha (heq ▸ h4)
      · simp only [Memory.wfFrom, Bool.and_eq_true, decide_eq_true_eq]
        exact ⟨⟨⟨h1, h2⟩, h3⟩, ih h4 (by omega)⟩

/-- A store at an address of the 32-bit space keeps memory canonical. -/
theorem memory_write_wf {m : Memory} (h : m.wf = true) {a : Nat} (ha : a < 2 ^ 32) (b : Byte) :
    (m.write a b).wf = true :=
  memory_write_wfFrom h (Nat.zero_le a) ha b

theorem memory_read_cons_self {m : Memory} {a : Nat} (b : Byte) (h : m.read a = Memory.unlisted) :
    (Memory.cons a b m).read a = b := by
  unfold Memory.cons
  split
  · simp_all
  · simp [memory_read_cons]

theorem memory_read_cons_other {m : Memory} {a x : Nat} (b : Byte) (hx : x ≠ a) :
    (Memory.cons a b m).read x = m.read x := by
  unfold Memory.cons
  split
  · rfl
  · simp [memory_read_cons, Ne.symm hx]

/-- Reading the byte just stored gives it. -/
theorem memory_read_write_self {lo : Nat} {m : Memory} (h : m.wfFrom lo = true) (a : Nat) (b : Byte) :
    (m.write a b).read a = b := by
  induction m generalizing lo with
  | nil => exact memory_read_cons_self b rfl
  | cons c rest ih =>
    have hc := h
    simp only [Memory.wfFrom, Bool.and_eq_true, decide_eq_true_eq] at hc
    unfold Memory.write
    split
    · rename_i hlt
      refine memory_read_cons_self b ?_
      rw [memory_read_cons, if_neg (by omega)]
      exact memory_read_below hc.2 (by omega)
    · split
      · rename_i heq
        exact memory_read_cons_self b (memory_read_below hc.2 (by omega))
      · rename_i hne
        rw [memory_read_cons, if_neg (Ne.symm hne), ih hc.2]

/-- A store leaves every other address as it was, whatever the list. -/
theorem memory_read_write_other (m : Memory) {a x : Nat} (b : Byte) (hx : x ≠ a) :
    (m.write a b).read x = m.read x := by
  induction m with
  | nil => exact memory_read_cons_other b hx
  | cons c rest ih =>
    unfold Memory.write
    split
    · exact memory_read_cons_other b hx
    · split
      · rename_i heq
        rw [memory_read_cons_other b hx, memory_read_cons, if_neg (by omega)]
      · rw [memory_read_cons, memory_read_cons, ih]

end Sys2Proof.Machine
end

