-- ==== Sys2Proof/Laws/Ring.lean ====
section
/-! SUPPORT. The laws of the ring: occupancy, storage indices, the waiting bytes, and what the phases of a ring command
can do. -/

namespace Sys2Proof.Machine

/-- The occupancy in natural numbers, for cursors inside the ring. -/
theorem cursorGap_eq {c r w : Nat} (hr : r < c) (hw : w < c) :
    cursorGap c r w = if r ≤ w then w - r else w + c - r := by
  unfold cursorGap
  split
  · rw [Int.emod_eq_of_lt (by omega) (by omega)]; omega
  · have : ((w : Int) - r) % c = ((w : Int) - r + c) % c := by simp
    rw [this, Int.emod_eq_of_lt (by omega) (by omega)]; omega

theorem cursorGap_lt {c r w : Nat} (hc : 0 < c) : cursorGap c r w < c := by
  unfold cursorGap
  have h1 := Int.emod_nonneg ((w : Int) - r) (b := (c : Int)) (by omega)
  have h2 := Int.emod_lt_of_pos ((w : Int) - r) (b := (c : Int)) (by omega)
  omega

/-- What `Ring.Ok` gives when a ring is present. -/
theorem ringOk_present {r : Ring} (h : r.Ok) (hp : r.present = true) :
    2 ≤ r.cap.toNat ∧ r.rd.toNat < r.cap.toNat ∧ r.wr.toNat < r.cap.toNat ∧ r.bytes.length = r.cap.toNat := by
  simpa [Ring.Ok, hp] using h

theorem ringOk_absent {r : Ring} (h : r.Ok) (hp : r.present = false) : r = Ring.absent := by
  simpa [Ring.Ok, hp] using h

theorem ring_used_eq {r : Ring} (h : r.Ok) (hp : r.present = true) :
    r.used = if r.rd.toNat ≤ r.wr.toNat then r.wr.toNat - r.rd.toNat
      else r.wr.toNat + r.cap.toNat - r.rd.toNat := by
  obtain ⟨_, h2, h3, _⟩ := ringOk_present h hp
  exact cursorGap_eq h2 h3

theorem ring_used_lt {r : Ring} (h : r.Ok) (hp : r.present = true) : r.used < r.cap.toNat :=
  cursorGap_lt (by have := (ringOk_present h hp).1; omega)

/-- A storage index in natural numbers, for a cursor and a distance inside the ring. -/
theorem ring_slot_eq {r : Ring} {c : Word} {i : Nat} (hc : c.toNat < r.cap.toNat) (hi : i < r.cap.toNat) :
    r.slot c i = if c.toNat + i < r.cap.toNat then c.toNat + i else c.toNat + i - r.cap.toNat := by
  unfold Ring.slot
  split
  · exact Nat.mod_eq_of_lt (by assumption)
  · rw [Nat.mod_eq_sub_mod (by omega), Nat.mod_eq_of_lt (by omega)]

theorem ring_slot_lt {r : Ring} {c : Word} {i : Nat} (h : 0 < r.cap.toNat) : r.slot c i < r.cap.toNat :=
  Nat.mod_lt _ h

/-- A cursor moved inside the ring stays inside it. -/
theorem ring_advance_toNat {r : Ring} {c : Word} {n : Nat} (h : 0 < r.cap.toNat) :
    (r.advance c n).toNat = (c.toNat + n) % r.cap.toNat := by
  have h1 := ring_slot_lt (c := c) (i := n) h
  have h2 := r.cap.isLt
  simp only [Ring.advance, BitVec.toNat_ofNat]
  exact Nat.mod_eq_of_lt (by omega)

@[simp] theorem putAt_present (r : Ring) (c : Word) (i : Nat) (b : Byte) : (r.putAt c i b).present = r.present := rfl
@[simp] theorem putAt_cap (r : Ring) (c : Word) (i : Nat) (b : Byte) : (r.putAt c i b).cap = r.cap := rfl
@[simp] theorem putAt_rd (r : Ring) (c : Word) (i : Nat) (b : Byte) : (r.putAt c i b).rd = r.rd := rfl
@[simp] theorem putAt_wr (r : Ring) (c : Word) (i : Nat) (b : Byte) : (r.putAt c i b).wr = r.wr := rfl
@[simp] theorem putAt_used (r : Ring) (c : Word) (i : Nat) (b : Byte) : (r.putAt c i b).used = r.used := rfl
@[simp] theorem putAt_slot (r : Ring) (c d : Word) (i j : Nat) (b : Byte) :
    (r.putAt c i b).slot d j = r.slot d j := rfl

@[simp] theorem putAt_length (r : Ring) (c : Word) (i : Nat) (b : Byte) :
    (r.putAt c i b).bytes.length = r.bytes.length := by
  simp [Ring.putAt]

/-- A byte stored at another index leaves a byte as it was. -/
theorem byteAt_putAt_other {r : Ring} {c d : Word} {i j : Nat} (b : Byte) (h : r.slot d j ≠ r.slot c i) :
    (r.putAt c i b).byteAt d j = r.byteAt d j := by
  show (r.bytes.set (r.slot c i) b).getD (r.slot d j) 0 = r.bytes.getD (r.slot d j) 0
  rw [List.getD_eq_getElem?_getD, List.getElem?_set_ne (Ne.symm h), List.getD_eq_getElem?_getD]

/-- A byte stored inside the storage is read back. -/
theorem byteAt_putAt_self {r : Ring} {c : Word} {i : Nat} (b : Byte) (h : r.slot c i < r.bytes.length) :
    (r.putAt c i b).byteAt c i = b := by
  show (r.bytes.set (r.slot c i) b).getD (r.slot c i) 0 = b
  rw [List.getD_eq_getElem?_getD, List.getElem?_set_self h, Option.getD_some]

theorem putAt_ok {r : Ring} (h : r.Ok) (c : Word) (i : Nat) (b : Byte) (hp : r.present = true) :
    (r.putAt c i b).Ok := by
  have := ringOk_present h hp
  simp [Ring.Ok, hp, this]

/-- Replacing bytes by free values keeps everything but the storage, and its length. -/
theorem smear_frame (r : Ring) (c : Word) (d n : Nat) :
    r.smear c d n = { r with bytes := (r.smear c d n).bytes } ∧
      (r.smear c d n).bytes.length = r.bytes.length := by
  induction n with
  | zero => exact ⟨rfl, rfl⟩
  | succ k ih =>
    have h : r.smear c d (k + 1) = (r.smear c d k).putAt c k (Config.freeByte (d + k)) := rfl
    refine ⟨?_, by rw [h, putAt_length, ih.2]⟩
    rw [h]
    conv_lhs => rw [ih.1]
    conv_rhs => rw [ih.1]
    rfl

/-- Free values at the first `n` places after a cursor leave every other index alone. -/
theorem smear_getElem? (r : Ring) (c : Word) (d n p : Nat) (h : ∀ i < n, p ≠ r.slot c i) :
    (r.smear c d n).bytes[p]? = r.bytes[p]? := by
  induction n with
  | zero => rfl
  | succ k ih =>
    have e : (r.smear c d k).slot c k = r.slot c k := by rw [(smear_frame r c d k).1]; rfl
    show ((r.smear c d k).bytes.set ((r.smear c d k).slot c k) _)[p]? = _
    rw [e, List.getElem?_set_ne (Ne.symm (h k (by omega))), ih (fun i hi => h i (by omega))]

@[simp] theorem content_length (r : Ring) : r.content.length = r.used := by simp [Ring.content]

theorem content_getElem? {r : Ring} {i : Nat} (h : i < r.used) : r.content[i]? = some (r.byteAt r.rd i) := by
  simp [Ring.content, h]

/-- Two rings with the same cursors and the same bytes at the used indices hold the same waiting bytes. -/
theorem content_congr {r r' : Ring} (hc : r'.cap = r.cap) (hr : r'.rd = r.rd) (hw : r'.wr = r.wr)
    (hb : ∀ i < r.used, r'.byteAt r.rd i = r.byteAt r.rd i) : r'.content = r.content := by
  have hu : r'.used = r.used := by simp [Ring.used, hc, hr, hw]
  simp only [Ring.content, hu, hr]
  exact List.map_congr_left (fun i hi => hb i (List.mem_range.mp hi))

/-- The `i`-th free index after the write cursor holds no waiting byte, and differs from the other free ones. -/
theorem free_slot_ne_used {r : Ring} (h : r.Ok) (hp : r.present = true) {i j : Nat} (hi : i < r.free)
    (hj : j < r.used) : r.slot r.rd j ≠ r.slot r.wr i := by
  obtain ⟨h1, h2, h3, _⟩ := ringOk_present h hp
  have hu := ring_used_eq h hp
  have hf : r.free = r.cap.toNat - 1 - r.used := rfl
  rw [ring_slot_eq h2 (by have := ring_used_lt h hp; omega), ring_slot_eq h3 (by omega)]
  split_ifs at hu ⊢ <;> omega

theorem slot_inj {r : Ring} {c : Word} {i j : Nat} (hc : c.toNat < r.cap.toNat) (hi : i < r.cap.toNat)
    (hj : j < r.cap.toNat) (h : r.slot c i = r.slot c j) : i = j := by
  rw [ring_slot_eq hc hi, ring_slot_eq hc hj] at h
  split_ifs at h <;> omega

/-- A byte stored in the free region leaves the waiting bytes as they are. -/
theorem content_putAt_free {r : Ring} (h : r.Ok) (hp : r.present = true) {i : Nat} (hi : i < r.free) (b : Byte) :
    (r.putAt r.wr i b).content = r.content :=
  content_congr rfl rfl rfl (fun _ hj => byteAt_putAt_other b (free_slot_ne_used h hp hi hj))

/-- Free values in the free region leave the waiting bytes as they are. -/
theorem content_smear_free {r : Ring} (h : r.Ok) (hp : r.present = true) {n d : Nat} (hn : n ≤ r.free) :
    (r.smear r.wr d n).content = r.content := by
  have hf := (smear_frame r r.wr d n).1
  refine content_congr (by rw [hf]) (by rw [hf]) (by rw [hf]) (fun j hj => ?_)
  have hs : (r.smear r.wr d n).slot r.rd j = r.slot r.rd j := by rw [hf]; rfl
  simp only [Ring.byteAt, List.getD_eq_getElem?_getD, hs]
  rw [smear_getElem? _ _ _ _ _ (fun i hi => free_slot_ne_used h hp (by omega) hj)]

/-- Moving the write cursor over `n` free bytes appends them to the waiting bytes (40_ring_buffer.md R102). -/
theorem content_publish {r : Ring} (h : r.Ok) (hp : r.present = true) {n : Nat} (hn : n ≤ r.free) :
    ({ r with wr := r.advance r.wr n } : Ring).content =
      r.content ++ (List.range n).map (r.byteAt r.wr) := by
  obtain ⟨h1, h2, h3, _⟩ := ringOk_present h hp
  have hu := ring_used_eq h hp
  have hlt := ring_used_lt h hp
  have hf : r.free = r.cap.toNat - 1 - r.used := rfl
  have ha := ring_advance_toNat (r := r) (c := r.wr) (n := n) (by omega)
  have hs := ring_slot_eq (r := r) (c := r.wr) (i := n) h3 (by omega)
  rw [Ring.slot] at hs
  have hu' : ({ r with wr := r.advance r.wr n } : Ring).used = r.used + n := by
    show cursorGap r.cap.toNat r.rd.toNat (r.advance r.wr n).toNat = _
    rw [ha, hs, cursorGap_eq h2 (by split_ifs <;> omega)]
    split_ifs at hu ⊢ <;> omega
  simp only [Ring.content, hu', List.range_add, List.map_append, List.map_map]
  congr 1
  refine List.map_congr_left (fun i hi => ?_)
  have hi := List.mem_range.mp hi
  show r.byteAt r.rd (r.used + i) = r.byteAt r.wr i
  have : r.slot r.rd (r.used + i) = r.slot r.wr i := by
    rw [ring_slot_eq h2 (by omega), ring_slot_eq h3 (by omega)]
    split_ifs at hu ⊢ <;> omega
  simp only [Ring.byteAt, this]

/-- Moving the read cursor over `n` used bytes takes them from the front (40_ring_buffer.md R103). -/
theorem content_consume {r : Ring} (h : r.Ok) (hp : r.present = true) {n : Nat} (hn : n ≤ r.used) :
    ({ r with rd := r.advance r.rd n } : Ring).content = r.content.drop n := by
  obtain ⟨h1, h2, h3, _⟩ := ringOk_present h hp
  have hu := ring_used_eq h hp
  have hlt := ring_used_lt h hp
  have ha := ring_advance_toNat (r := r) (c := r.rd) (n := n) (by omega)
  have hs := ring_slot_eq (r := r) (c := r.rd) (i := n) h2 (by omega)
  rw [Ring.slot] at hs
  have hrd : (r.advance r.rd n).toNat < r.cap.toNat := by rw [ha]; exact Nat.mod_lt _ (by omega)
  have hu' : ({ r with rd := r.advance r.rd n } : Ring).used = r.used - n := by
    show cursorGap r.cap.toNat (r.advance r.rd n).toNat r.wr.toNat = _
    rw [cursorGap_eq hrd h3, ha, hs]
    split_ifs at hu ⊢ <;> omega
  apply List.ext_getElem?
  intro i
  by_cases hi : i < r.used - n
  · rw [content_getElem? (by rw [hu']; exact hi), List.getElem?_drop, content_getElem? (by omega)]
    congr 1
    have : ({ r with rd := r.advance r.rd n } : Ring).slot (r.advance r.rd n) i = r.slot r.rd (n + i) := by
      show r.slot (r.advance r.rd n) i = _
      rw [ring_slot_eq hrd (by omega), ring_slot_eq h2 (by omega), ha, hs]
      split_ifs <;> omega
    simp only [Ring.byteAt, this]
  · rw [List.getElem?_eq_none (by rw [content_length, hu']; omega),
      List.getElem?_eq_none (by rw [List.length_drop, content_length]; omega)]

/-- The ring with its read cursor moved over used bytes, or its write cursor over free ones, is still a ring. -/
theorem advance_ok {r : Ring} (h : r.Ok) (hp : r.present = true) (c d : Word) (n m : Nat) :
    ({ r with rd := r.advance c n } : Ring).Ok ∧ ({ r with wr := r.advance d m } : Ring).Ok := by
  obtain ⟨h1, h2, h3, h4⟩ := ringOk_present h hp
  have hc : 0 < r.cap.toNat := by omega
  constructor <;> simp [Ring.Ok, hp, h1, h2, h3, h4, ring_advance_toNat hc, Nat.mod_lt _ hc]

end Sys2Proof.Machine
end

