-- ==== Sys2Proof/Laws/RingRun.lean ====
section
/-! SUPPORT. What the phases of a ring command do, one by one and run to the end with no other agent between them. -/

namespace Sys2Proof.Machine

/-- The ring after `n` byte copies at the places `m, m + 1, …` after a cursor, byte `i` being `f i`. -/
def Ring.copied (r : Ring) (c : Word) (f : Nat → Byte) (m n : Nat) : Ring :=
  match n with
  | 0 => r
  | k + 1 => (r.putAt c m (f m)).copied c f (m + 1) k

/-- System memory after `n` byte stores at the bytes `m, m + 1, …` of a range, byte `i` being `f i`. -/
def Memory.copied (mem : Memory) (addr : Word) (f : Nat → Byte) (m n : Nat) : Memory :=
  match n with
  | 0 => mem
  | k + 1 => Memory.copied (mem.write (busByte addr m).toNat (f m)) addr f (m + 1) k

/-- Copies change nothing but the storage, and keep its length. -/
theorem copied_frame (r : Ring) (c : Word) (f : Nat → Byte) (m n : Nat) :
    r.copied c f m n = { r with bytes := (r.copied c f m n).bytes } ∧
      (r.copied c f m n).bytes.length = r.bytes.length := by
  induction n generalizing r m with
  | zero => exact ⟨rfl, rfl⟩
  | succ k ih =>
    obtain ⟨h1, h2⟩ := ih (r.putAt c m (f m)) (m + 1)
    refine ⟨?_, by simpa [Ring.copied] using h2⟩
    show (r.putAt c m (f m)).copied c f (m + 1) k = _
    conv_lhs => rw [h1]
    rfl

/-- Copies leave every index they do not store to as it was. -/
theorem copied_getElem? (r : Ring) (c : Word) (f : Nat → Byte) (m n p : Nat)
    (h : ∀ i, m ≤ i → i < m + n → p ≠ r.slot c i) : (r.copied c f m n).bytes[p]? = r.bytes[p]? := by
  induction n generalizing r m with
  | zero => rfl
  | succ k ih =>
    show ((r.putAt c m (f m)).copied c f (m + 1) k).bytes[p]? = _
    rw [ih (r.putAt c m (f m)) (m + 1) (fun i h1 h2 => h i (by omega) (by omega))]
    show (r.bytes.set (r.slot c m) (f m))[p]? = _
    rw [List.getElem?_set_ne (Ne.symm (h m (Nat.le_refl m) (by omega)))]

/-- Copies at distinct places of the storage are read back. -/
theorem copied_byteAt {r : Ring} {c : Word} (f : Nat → Byte) {m n : Nat} (hc : c.toNat < r.cap.toNat)
    (hl : r.bytes.length = r.cap.toNat) (hn : m + n ≤ r.cap.toNat) {i : Nat} (h1 : m ≤ i) (h2 : i < m + n) :
    (r.copied c f m n).byteAt c i = f i := by
  induction n generalizing r m with
  | zero => omega
  | succ k ih =>
    show ((r.putAt c m (f m)).copied c f (m + 1) k).byteAt c i = f i
    by_cases hi : i = m
    · subst hi
      have hs := copied_getElem? (r.putAt c i (f i)) c f (i + 1) k (r.slot c i)
        (fun x hx1 hx2 he => by
          have := slot_inj (r := r) hc (by omega) (by omega) he
          omega)
      have hsl : ((r.putAt c i (f i)).copied c f (i + 1) k).slot c i = r.slot c i := by
        rw [(copied_frame (r.putAt c i (f i)) c f (i + 1) k).1]; rfl
      rw [Ring.byteAt, hsl, List.getD_eq_getElem?_getD, hs]
      have hb := byteAt_putAt_self (r := r) (c := c) (i := i) (f i)
        (by rw [hl]; exact ring_slot_lt (by omega))
      rw [Ring.byteAt, putAt_slot, List.getD_eq_getElem?_getD] at hb
      exact hb
    · exact ih (r := r.putAt c m (f m)) (m := m + 1) hc (by simpa using hl) (by show m + 1 + k ≤ r.cap.toNat; omega)
        (by omega) (by omega)

/-- Distinct bytes of one range are distinct addresses. -/
theorem busByte_inj {addr : Word} {i j : Nat} (hi : i < 2 ^ 32) (hj : j < 2 ^ 32)
    (h : (busByte addr i).toNat = (busByte addr j).toNat) : i = j := by
  have h' := BitVec.eq_of_toNat_eq h
  simp only [busByte, BitVec.add_right_inj] at h'
  have := congrArg BitVec.toNat h'
  rwa [BitVec.toNat_ofNat, BitVec.toNat_ofNat, Nat.mod_eq_of_lt hi, Nat.mod_eq_of_lt hj] at this

/-- Stores leave every address they do not store to as it was, and keep memory canonical. -/
theorem memory_copied_other (mem : Memory) (addr : Word) (f : Nat → Byte) (m n a : Nat)
    (h : ∀ i, m ≤ i → i < m + n → a ≠ (busByte addr i).toNat) :
    (Memory.copied mem addr f m n).read a = mem.read a := by
  induction n generalizing mem m with
  | zero => rfl
  | succ k ih =>
    rw [Memory.copied, ih _ _ (fun i h1 h2 => h i (by omega) (by omega)),
      memory_read_write_other _ _ (h m (Nat.le_refl m) (by omega))]

theorem memory_copied_wf {mem : Memory} (hw : mem.wf = true) (addr : Word) (f : Nat → Byte) (m n : Nat) :
    (Memory.copied mem addr f m n).wf = true := by
  induction n generalizing mem m with
  | zero => exact hw
  | succ k ih => exact ih (memory_write_wf hw (busByte addr m).isLt (f m)) (m + 1)

/-- Stores to a range are read back. -/
theorem memory_copied_self {mem : Memory} (hw : mem.wf = true) (addr : Word) (f : Nat → Byte) {m n i : Nat}
    (hn : m + n ≤ 2 ^ 32) (h1 : m ≤ i) (h2 : i < m + n) :
    (Memory.copied mem addr f m n).read (busByte addr i).toNat = f i := by
  induction n generalizing mem m with
  | zero => omega
  | succ k ih =>
    rw [Memory.copied]
    by_cases hi : i = m
    · subst hi
      rw [memory_copied_other _ _ _ _ _ _ (fun x hx1 hx2 he => by
        have := busByte_inj (by omega) (by omega) he; omega)]
      exact memory_read_write_self hw _ _
    · exact ih (memory_write_wf hw (busByte addr m).isLt (f m)) (by omega) (by omega) (by omega)

/-- `t` differs from `s` at most in STATUS.ERR, the ring's cursors and storage, RES0, system memory, the command in
progress and the count of draws. -/
def RingFrame (s t : State) : Prop :=
  ∃ e rd wr bs r m j d, t = { s with
    err := e
    ring := { s.ring with rd := rd, wr := wr, bytes := bs }
    res := { s.res with r0 := r }
    mem := m
    job := j
    env := { s.env with drawn := d } }

theorem ringFrame_refl (s : State) : RingFrame s s :=
  ⟨s.err, s.ring.rd, s.ring.wr, s.ring.bytes, s.res.r0, s.mem, s.job, s.env.drawn, rfl⟩

theorem ringFrame_trans {s t u : State} (h : RingFrame s t) (h' : RingFrame t u) : RingFrame s u := by
  obtain ⟨_, _, _, _, _, _, _, _, rfl⟩ := h
  obtain ⟨e, rd, wr, bs, r, m, j, d, rfl⟩ := h'
  exact ⟨e, rd, wr, bs, r, m, j, d, rfl⟩

/-- A step of a ring command changes nothing else. -/
theorem ringPhase_frame (j : RingJob) (s : State) : RingFrame s (ringPhase j s) := by
  have hs := (smear_frame s.ring j.cur s.env.drawn j.moved).1
  unfold ringPhase copyIn copyOut publishIn publishOut
  split <;> split <;> try split
  · exact ⟨_, _, _, _, _, _, _, _, rfl⟩
  · rw [hs]; exact ⟨_, _, _, _, _, _, _, _, rfl⟩
  all_goals exact ⟨_, _, _, _, _, _, _, _, rfl⟩

/-- Any number of steps of a ring command change nothing else either. -/
theorem ringRun_frame (n : Nat) (s : State) : RingFrame s (ringRun n s) := by
  induction n generalizing s with
  | zero => exact ringFrame_refl s
  | succ k ih =>
    unfold ringRun
    split
    · exact ringFrame_refl s
    · exact ringFrame_trans (ringPhase_frame _ s) (ih _)

/-- RB.WRITE from its `moved`-th byte on, every byte admitted: it copies them all and publishes (R102). -/
theorem ringRun_write {s : State} {j : RingJob} {n : Nat} (hj : s.job = some j) (hd : j.dir = .intoRing)
    (hn : j.total = j.moved + n) (ha : ∀ i < n, admits s.cfg (busByte j.addr (j.moved + i)) = true) :
    ringRun (n + 1) s = publishIn j { s with
      ring := s.ring.copied j.cur (fun i => s.mem.read (busByte j.addr i).toNat) j.moved n } := by
  induction n generalizing s j with
  | zero =>
    have : ¬ j.moved < j.total := by omega
    simp [ringRun, hj, ringPhase, hd, this, publishIn, Ring.copied]
  | succ k ih =>
    have hlt : j.moved < j.total := by omega
    have h0 : admits s.cfg (busByte j.addr j.moved) = true := by simpa using ha 0 (by omega)
    have e : ringRun (k + 1 + 1) s = ringRun (k + 1) { s with
        ring := s.ring.putAt j.cur j.moved (s.mem.read (busByte j.addr j.moved).toNat)
        job := some { j with moved := j.moved + 1 } } := by
      conv_lhs => unfold ringRun
      simp [hj, ringPhase, hd, hlt, copyIn, h0]
    rw [e, ih (j := { j with moved := j.moved + 1 }) rfl hd (by show j.total = j.moved + 1 + k; omega)
      (fun i hi => by
        have := ha (i + 1) (by omega)
        rwa [show j.moved + (i + 1) = j.moved + 1 + i by omega] at this)]
    rfl

/-- RB.READ from its `moved`-th byte on, every byte admitted: it copies them all and publishes (R103). -/
theorem ringRun_read {s : State} {j : RingJob} {n : Nat} (hj : s.job = some j) (hd : j.dir = .outOfRing)
    (hn : j.total = j.moved + n) (ha : ∀ i < n, admits s.cfg (busByte j.addr (j.moved + i)) = true) :
    ringRun (n + 1) s = publishOut j { s with
      mem := Memory.copied s.mem j.addr (fun i => s.ring.byteAt j.cur i) j.moved n } := by
  induction n generalizing s j with
  | zero =>
    have : ¬ j.moved < j.total := by omega
    simp [ringRun, hj, ringPhase, hd, this, publishOut, Memory.copied]
  | succ k ih =>
    have hlt : j.moved < j.total := by omega
    have h0 : admits s.cfg (busByte j.addr j.moved) = true := by simpa using ha 0 (by omega)
    have e : ringRun (k + 1 + 1) s = ringRun (k + 1) { s with
        mem := s.mem.write (busByte j.addr j.moved).toNat (s.ring.byteAt j.cur j.moved)
        job := some { j with moved := j.moved + 1 } } := by
      conv_lhs => unfold ringRun
      simp [hj, ringPhase, hd, hlt, copyOut, h0]
    rw [e, ih (j := { j with moved := j.moved + 1 }) rfl hd (by show j.total = j.moved + 1 + k; omega)
      (fun i hi => by
        have := ha (i + 1) (by omega)
        rwa [show j.moved + (i + 1) = j.moved + 1 + i by omega] at this)]
    rfl

/-- With no ring command in progress there is nothing to run. -/
theorem ringRun_idle {n : Nat} {s : State} (h : s.job = none) : ringRun n s = s := by
  cases n <;> simp [ringRun, h]

/-- RB.WRITE whose byte `moved + n` is the first refused one: ERR_BUS, nothing published (R102). -/
theorem ringRun_write_bus {s : State} {j : RingJob} {n : Nat} (x : Nat) (hj : s.job = some j)
    (hd : j.dir = .intoRing) (hn : j.moved + n < j.total)
    (ha : ∀ i < n, admits s.cfg (busByte j.addr (j.moved + i)) = true)
    (hb : admits s.cfg (busByte j.addr (j.moved + n)) = false) :
    ringRun (n + 1 + x) s = { s with
      err := .bus
      ring := (s.ring.copied j.cur (fun i => s.mem.read (busByte j.addr i).toNat) j.moved n).smear
        j.cur s.env.drawn (j.moved + n)
      job := none
      env := { s.env with drawn := s.env.drawn + (j.moved + n) } } := by
  induction n generalizing s j with
  | zero =>
    have hlt : j.moved < j.total := by omega
    have hb0 : admits s.cfg (busByte j.addr j.moved) = false := by simpa using hb
    have e : ringRun (0 + 1 + x) s = ringRun x (ringPhase j s) := by
      rw [show 0 + 1 + x = x + 1 by omega]; simp [ringRun, hj]
    have e2 : ringPhase j s = copyIn j s := by unfold ringPhase; rw [hd]; exact if_pos hlt
    rw [e, e2, copyIn, if_neg (show ¬ admits s.cfg (busByte j.addr j.moved) = true by simp [hb0]), ringRun_idle rfl]
    rfl
  | succ k ih =>
    have hlt : j.moved < j.total := by omega
    have h0 : admits s.cfg (busByte j.addr j.moved) = true := by simpa using ha 0 (by omega)
    have e : ringRun (k + 1 + 1 + x) s = ringRun (k + 1 + x) { s with
        ring := s.ring.putAt j.cur j.moved (s.mem.read (busByte j.addr j.moved).toNat)
        job := some { j with moved := j.moved + 1 } } := by
      rw [show k + 1 + 1 + x = (k + 1 + x) + 1 by omega]
      conv_lhs => unfold ringRun
      simp [hj, ringPhase, hd, hlt, copyIn, h0]
    have hs : ∀ i, j.moved + (i + 1) = j.moved + 1 + i := fun i => by omega
    rw [e, ih (j := { j with moved := j.moved + 1 }) rfl hd (by show j.moved + 1 + k < j.total; omega)
      (fun i hi => by have := ha (i + 1) (by omega); rwa [hs] at this) (by rwa [hs] at hb)]
    rw [hs k]
    rfl

/-- RB.READ whose byte `moved + n` is the first refused one: ERR_BUS, the bytes before it written (R103). -/
theorem ringRun_read_bus {s : State} {j : RingJob} {n : Nat} (x : Nat) (hj : s.job = some j)
    (hd : j.dir = .outOfRing) (hn : j.moved + n < j.total)
    (ha : ∀ i < n, admits s.cfg (busByte j.addr (j.moved + i)) = true)
    (hb : admits s.cfg (busByte j.addr (j.moved + n)) = false) :
    ringRun (n + 1 + x) s = { s with
      err := .bus
      mem := Memory.copied s.mem j.addr (fun i => s.ring.byteAt j.cur i) j.moved n
      job := none } := by
  induction n generalizing s j with
  | zero =>
    have hlt : j.moved < j.total := by omega
    have hb0 : admits s.cfg (busByte j.addr j.moved) = false := by simpa using hb
    have e : ringRun (0 + 1 + x) s = ringRun x (ringPhase j s) := by
      rw [show 0 + 1 + x = x + 1 by omega]; simp [ringRun, hj]
    have e2 : ringPhase j s = copyOut j s := by unfold ringPhase; rw [hd]; exact if_pos hlt
    rw [e, e2, copyOut, if_neg (show ¬ admits s.cfg (busByte j.addr j.moved) = true by simp [hb0]), ringRun_idle rfl]
    rfl
  | succ k ih =>
    have hlt : j.moved < j.total := by omega
    have h0 : admits s.cfg (busByte j.addr j.moved) = true := by simpa using ha 0 (by omega)
    have e : ringRun (k + 1 + 1 + x) s = ringRun (k + 1 + x) { s with
        mem := s.mem.write (busByte j.addr j.moved).toNat (s.ring.byteAt j.cur j.moved)
        job := some { j with moved := j.moved + 1 } } := by
      rw [show k + 1 + 1 + x = (k + 1 + x) + 1 by omega]
      conv_lhs => unfold ringRun
      simp [hj, ringPhase, hd, hlt, copyOut, h0]
    have hs : ∀ i, j.moved + (i + 1) = j.moved + 1 + i := fun i => by omega
    rw [e, ih (j := { j with moved := j.moved + 1 }) rfl hd (by show j.moved + 1 + k < j.total; omega)
      (fun i hi => by have := ha (i + 1) (by omega); rwa [hs] at this) (by rwa [hs] at hb)]
    rfl

end Sys2Proof.Machine
end

