-- ==== Sys2Proof/Laws/Fill.lean ====
section
/-! SUPPORT. The laws of the providers, the fill routine, and the steps of the interrupt context and sample clock. -/

namespace Sys2Proof.Machine

theorem clampCount_le (k0 : Int) (b : Nat) : clampCount k0 b ≤ b := by
  unfold clampCount; omega

@[simp] theorem clampCount_nat (k b : Nat) : clampCount (k : Int) b = min k b := by
  unfold clampCount; omega

/-- The level map's value in natural numbers, for a wrap of at most 16 bits (42_engine.md R160). -/
theorem levelOf_toNat {w : Nat} (hw : w ≤ 65535) (x : Sample) :
    (levelOf w x).toNat = (x.toInt + 32768).toNat * (w + 1) / 65536 := by
  have h2 := BitVec.toInt_lt (x := x)
  simp only [levelOf, BitVec.toNat_ofNat]
  apply Nat.mod_eq_of_lt
  have h3 : (x.toInt + 32768).toNat ≤ 65535 := by simp at h2; omega
  have h4 : (x.toInt + 32768).toNat * (w + 1) ≤ 65535 * 65536 := Nat.mul_le_mul h3 (by omega)
  omega

/-- No level exceeds the wrap. -/
theorem levelOf_le {w : Nat} (hw : w ≤ 65535) (x : Sample) : (levelOf w x).toNat ≤ w := by
  have h2 := BitVec.toInt_lt (x := x)
  rw [levelOf_toNat hw]
  have h3 : (x.toInt + 32768).toNat ≤ 65535 := by simp at h2; omega
  have h4 : (x.toInt + 32768).toNat * (w + 1) ≤ 65535 * (w + 1) := Nat.mul_le_mul_right _ h3
  omega

/-- The silence level's value. -/
theorem silence_toNat {w : Nat} (hw : w ≤ 65535) : (silence w).toNat = (w + 1) / 2 := by
  simp only [silence, BitVec.toNat_ofNat]
  exact Nat.mod_eq_of_lt (by omega)

/-- `t` differs from `s` at most in RB_RD, the answers still to come and the count of draws: all a provider changes. -/
def RequestFrame (s t : State) : Prop :=
  ∃ rd a d, t = { s with
    ring := { s.ring with rd := rd }
    env := { s.env with answers := a, drawn := d } }

/-- Whatever the provider, a request changes nothing else (42_engine.md R190 to R192). -/
theorem request_frame (max : Nat) (s : State) : RequestFrame s (request max s).after := by
  unfold request
  split
  · exact ⟨_, _, _, rfl⟩
  · unfold drainRing
    split <;> exact ⟨_, _, _, rfl⟩
  · exact ⟨s.ring.rd, _, _, rfl⟩

/-- Every provider gives the frames a fill asks of it (42_engine.md R170, R190, R191). -/
theorem request_length (max : Nat) (s : State) :
    clampCount (request max s).count max ≤ (request max s).pcm.length := by
  unfold request
  split
  · simp [clampCount]
  · unfold drainRing
    split
    · simp [clampCount]
    · simp [clampCount]
  · simp [askExternal]

theorem fillLefts_length (s : State) : (fillLefts s).length = fillCount s := by
  simp [fillLefts, fillCount, request_length]

theorem fillRights_length (s : State) : (fillRights s).length = fillCount s := by
  simp [fillRights, fillCount, request_length]

theorem fillCount_le (s : State) : fillCount s ≤ s.cfg.batch := clampCount_le _ _

/-- A fill writes BATCH levels per channel. -/
theorem fillBank_length (s : State) :
    (fillBank s).left.length = s.cfg.batch ∧ (fillBank s).right.length = s.cfg.batch := by
  have := fillCount_le s
  simp only [fillBank, List.length_append, List.length_replicate, fillLefts_length, fillRights_length]
  omega

/-- The last element of a list, or a default, satisfies what every element and the default do. -/
theorem getLastD_mem_or {α : Type} (l : List α) (d : α) : l.getLastD d = d ∨ l.getLastD d ∈ l := by
  cases l with
  | nil => exact .inl rfl
  | cons a l => exact .inr (by simp [List.getLastD])

/-- Every level a fill writes, and LAST after it, is at most the wrap if LAST was (42_engine.md R161 (c), R170). -/
theorem fill_levels {s : State}
    (h : s.eng.last.left.toNat ≤ s.sess.wrap.toNat ∧ s.eng.last.right.toNat ≤ s.sess.wrap.toNat) :
    levelsWithin s.sess.wrap (fillBank s).left ∧ levelsWithin s.sess.wrap (fillBank s).right ∧
      (fillLast s).left.toNat ≤ s.sess.wrap.toNat ∧ (fillLast s).right.toNat ≤ s.sess.wrap.toNat := by
  have hw : s.sess.wrap.toNat ≤ 65535 := by have := s.sess.wrap.isLt; omega
  have hl : ∀ v ∈ fillLefts s, v.toNat ≤ s.sess.wrap.toNat := by
    intro v hv
    simp only [fillLefts, List.mem_map] at hv
    obtain ⟨f, _, rfl⟩ := hv
    exact levelOf_le hw _
  have hr : ∀ v ∈ fillRights s, v.toNat ≤ s.sess.wrap.toNat := by
    intro v hv
    simp only [fillRights, List.mem_map] at hv
    obtain ⟨f, _, rfl⟩ := hv
    exact levelOf_le hw _
  have h1 : (fillLast s).left.toNat ≤ s.sess.wrap.toNat := by
    rcases getLastD_mem_or (fillLefts s) s.eng.last.left with e | e
    · show ((fillLefts s).getLastD s.eng.last.left).toNat ≤ _
      rw [e]; exact h.1
    · exact hl _ e
  have h2 : (fillLast s).right.toNat ≤ s.sess.wrap.toNat := by
    rcases getLastD_mem_or (fillRights s) s.eng.last.right with e | e
    · show ((fillRights s).getLastD s.eng.last.right).toNat ≤ _
      rw [e]; exact h.2
    · exact hr _ e
  refine ⟨fun v hv => ?_, fun v hv => ?_, h1, h2⟩
  · rcases List.mem_append.mp hv with hv | hv
    · exact hl v hv
    · rw [List.eq_of_mem_replicate hv]; exact h1
  · rcases List.mem_append.mp hv with hv | hv
    · exact hr v hv
    · rw [List.eq_of_mem_replicate hv]; exact h2

/-- A fill's engine: the buffer, LAST and ENG_UNDERRUN. -/
@[simp] theorem fill_eng (b : Slot) (s : State) :
    (fill b s).eng =
      ({ s.eng with last := fillLast s, underrun := fillUnderrun s }).setBank b (fillBank s) := rfl

/-- A fill changes the engine as `fill_eng` says, and otherwise only what its provider changes (42_engine.md R170). -/
theorem fill_frame (b : Slot) (s : State) :
    ∃ rd a d, fill b s = { s with
      eng := (fill b s).eng
      ring := { s.ring with rd := rd }
      env := { s.env with answers := a, drawn := d } } := by
  obtain ⟨rd, a, d, h⟩ := request_frame s.cfg.batch s
  refine ⟨rd, a, d, ?_⟩
  show ({ (request s.cfg.batch s).after with eng := _ } : State) = _
  rw [h]
  rfl

/-- The interrupt context's step changes the engine, RB_RD, the answers still to come and the count of draws, and
nothing else (42_engine.md R180, R181). -/
theorem interruptStep_frame (s : State) :
    ∃ e rd a d, interruptStep s = { s with
      eng := e
      ring := { s.ring with rd := rd }
      env := { s.env with answers := a, drawn := d } } := by
  unfold interruptStep
  split
  · obtain ⟨rd, a, d, h⟩ := fill_frame s.eng.fillTgt s
    unfold completionFill
    rw [h]
    exact ⟨_, rd, a, d, rfl⟩
  · split
    · exact ⟨_, s.ring.rd, s.env.answers, s.env.drawn, rfl⟩
    · exact ⟨s.eng, s.ring.rd, s.env.answers, s.env.drawn, rfl⟩

/-- The interrupt context's step is completion fill, completion entry, or nothing. -/
theorem interruptStep_cases (s : State) :
    (s.eng.inHandler = true ∧ interruptStep s = completionFill s) ∨
      (s.eng.inHandler = false ∧ s.eng.irqPend = true ∧ s.eng.running = true ∧
        interruptStep s = interruptEntry s) ∨
      (s.interruptEnabled = false ∧ interruptStep s = s) := by
  by_cases h : s.eng.inHandler = true
  · exact .inl ⟨h, by simp [interruptStep, h]⟩
  · simp only [Bool.not_eq_true] at h
    by_cases h2 : s.entryEnabled = true
    · refine .inr (.inl ?_)
      have h3 := h2
      simp only [State.entryEnabled, h, Bool.not_false, Bool.and_true, Bool.and_eq_true] at h3
      exact ⟨h, h3.1, h3.2, by simp [interruptStep, h, h2, completionEntry]⟩
    · simp only [Bool.not_eq_true] at h2
      exact .inr (.inr ⟨by simp [State.interruptEnabled, h, h2], by simp [interruptStep, h, h2]⟩)

/-- A tick changes OUT, DMA_IDX, ARMED and IRQ_PEND alone (42_engine.md R200). -/
theorem tick_frame (s : State) :
    ∃ o d a p, tick s = { s with eng := { s.eng with out := o, dmaIdx := d, armed := a, irqPend := p } } := by
  unfold tick
  split <;> exact ⟨_, _, _, _, rfl⟩

theorem clockTurn_frame (s : State) :
    ∃ o d a p, clockTurn s = { s with eng := { s.eng with out := o, dmaIdx := d, armed := a, irqPend := p } } := by
  unfold clockTurn
  split
  · exact tick_frame s
  · exact ⟨_, _, _, _, rfl⟩

end Sys2Proof.Machine
end

