-- ==== Sys2Proof/Laws/Fit.lean ====
section
/-! SUPPORT. The Rate Fitter's integer tests, candidate and errors in terms of the exact rationals of 41_rate.md R130. -/

namespace Sys2Proof.Machine

/-- The range test on integers is the one on the ideal divider (41_rate.md R130). -/
theorem fitRejects_eq_false_iff {p : Config.Params} {t : Nat} (k w : Nat) (ht : 0 < t) :
    fitRejects p t k w = false ↔ wrapAccepted p t k w := by
  have h1 : (0 : ℚ) < (t : ℚ) * ((w : ℚ) + 1) := by positivity
  have e1 : (p.d16Min : ℚ) / 16 ≤ idealDivider t k w ↔ p.d16Min * t * (w + 1) ≤ 16 * k := by
    unfold idealDivider
    rw [div_le_div_iff₀ (by norm_num) h1]
    constructor
    · intro h
      have : ((p.d16Min * t * (w + 1) : Nat) : ℚ) ≤ ((16 * k : Nat) : ℚ) := by push_cast; linarith
      exact_mod_cast this
    · intro h
      have : ((p.d16Min * t * (w + 1) : Nat) : ℚ) ≤ ((16 * k : Nat) : ℚ) := by exact_mod_cast h
      push_cast at this; linarith
  have e2 : idealDivider t k w ≤ (p.d16Max : ℚ) / 16 ↔ 16 * k ≤ p.d16Max * t * (w + 1) := by
    unfold idealDivider
    rw [div_le_div_iff₀ h1 (by norm_num)]
    constructor
    · intro h
      have : ((16 * k : Nat) : ℚ) ≤ ((p.d16Max * t * (w + 1) : Nat) : ℚ) := by push_cast; linarith
      exact_mod_cast this
    · intro h
      have : ((16 * k : Nat) : ℚ) ≤ ((p.d16Max * t * (w + 1) : Nat) : ℚ) := by exact_mod_cast h
      push_cast at this; linarith
  unfold wrapAccepted fitRejects
  rw [e1, e2]
  simp

/-- The candidate's divider is the ideal one rounded, ties up (41_rate.md R132). -/
theorem fitCandidate_d16 {t : Nat} (k w : Nat) (ht : 0 < t) :
    ((fitCandidate t k w).d16 : ℤ) = roundedD16 t k w := by
  have h1 : (0 : ℚ) < (t : ℚ) * ((w : ℚ) + 1) := by positivity
  have e : 16 * idealDivider t k w + 1 / 2 =
      ((32 * k + t * (w + 1) : Nat) : ℚ) / ((2 * t * (w + 1) : Nat) : ℚ) := by
    unfold idealDivider
    push_cast
    field_simp
    ring
  unfold roundedD16 fitCandidate
  rw [e, Rat.floor_natCast_div_natCast]
  norm_cast

/-- An accepted candidate's divider is in range (41_rate.md R132). -/
theorem fitCandidate_range {p : Config.Params} {t k w : Nat} (ht : 0 < t) (h : fitRejects p t k w = false) :
    p.d16Min ≤ (fitCandidate t k w).d16 ∧ (fitCandidate t k w).d16 ≤ p.d16Max := by
  simp only [fitRejects, Bool.or_eq_false_iff, decide_eq_false_iff_not, Nat.not_lt] at h
  obtain ⟨h1, h2⟩ := h
  have hp : 0 < 2 * t * (w + 1) := by positivity
  constructor
  · show p.d16Min ≤ (32 * k + t * (w + 1)) / (2 * t * (w + 1))
    rw [Nat.le_div_iff_mul_le hp]
    nlinarith
  · show (32 * k + t * (w + 1)) / (2 * t * (w + 1)) ≤ p.d16Max
    rw [← Nat.lt_add_one_iff, Nat.div_lt_iff_lt_mul hp]
    have : 0 < t * (w + 1) := by positivity
    nlinarith

/-- The error of a candidate as a rational (41_rate.md R130). -/
theorem fitted_error {c : Fitted} (t k : Nat) (h : 0 < c.den) :
    (c.errNum t k : ℚ) / (c.den : ℚ) = |achievedRate k c.wrap c.d16 - (t : ℚ)| := by
  have hd : (0 : ℚ) < (c.den : ℚ) := by exact_mod_cast h
  have e : achievedRate k c.wrap c.d16 - (t : ℚ) = ((16 * k : ℚ) - t * c.den) / c.den := by
    unfold achievedRate Fitted.den
    unfold Fitted.den at hd
    push_cast at hd ⊢
    have hd' : (c.d16 : ℚ) ≠ 0 := fun h0 => by simp [h0] at hd
    field_simp
  rw [e, abs_div, abs_of_pos hd]
  congr 1
  unfold Fitted.errNum
  rcases Nat.le_total (16 * k) (t * c.den) with h1 | h1
  · rw [Nat.sub_eq_zero_of_le h1, Nat.zero_add, Nat.cast_sub h1, abs_of_nonpos]
    · push_cast; ring
    · have : ((16 * k : Nat) : ℚ) ≤ ((t * c.den : Nat) : ℚ) := by exact_mod_cast h1
      push_cast at this; linarith
  · rw [Nat.sub_eq_zero_of_le h1, Nat.add_zero, Nat.cast_sub h1, abs_of_nonneg]
    · push_cast; ring
    · have : ((t * c.den : Nat) : ℚ) ≤ ((16 * k : Nat) : ℚ) := by exact_mod_cast h1
      push_cast at this; linarith

/-- Comparing errors by cross-multiplication compares the rationals (41_rate.md R130). -/
theorem fitImproves_some_iff {t k : Nat} {c b : Fitted} (hc : 0 < c.den) (hb : 0 < b.den) :
    fitImproves t k c (some b) = true ↔
      |achievedRate k c.wrap c.d16 - (t : ℚ)| < |achievedRate k b.wrap b.d16 - (t : ℚ)| := by
  have hc' : (0 : ℚ) < (c.den : ℚ) := by exact_mod_cast hc
  have hb' : (0 : ℚ) < (b.den : ℚ) := by exact_mod_cast hb
  rw [← fitted_error t k hc, ← fitted_error t k hb, div_lt_div_iff₀ hc' hb', fitImproves, decide_eq_true_eq]
  norm_cast

/-- The early-exit test compares the error with FIT_EPS (41_rate.md R130). -/
theorem fitClose_iff {p : Config.Params} {t k : Nat} {c : Fitted} (hc : 0 < c.den) (he : 0 < p.epsDen) :
    fitClose p t k c = true ↔ |achievedRate k c.wrap c.d16 - (t : ℚ)| < fitEps p := by
  have hc' : (0 : ℚ) < (c.den : ℚ) := by exact_mod_cast hc
  have he' : (0 : ℚ) < (p.epsDen : ℚ) := by exact_mod_cast he
  rw [← fitted_error t k hc, fitEps, div_lt_div_iff₀ hc' he', fitClose, decide_eq_true_eq]
  norm_cast

/-- The search answers the best candidate it was given or an accepted one of its range. -/
theorem fitSearch_mem {p : Config.Params} {t k n w : Nat} {best : Option Fitted} {c : Fitted}
    (h : fitSearch p t k n w best = some c) :
    best = some c ∨
      (w ≤ c.wrap ∧ c.wrap < w + n ∧ fitRejects p t k c.wrap = false ∧ c = fitCandidate t k c.wrap) := by
  induction n generalizing w best with
  | zero => exact .inl h
  | succ n ih =>
    unfold fitSearch at h
    have new : ∀ {b}, fitSearch p t k n (w + 1) b = some c → b = some c ∨
        (w ≤ c.wrap ∧ c.wrap < w + (n + 1) ∧ fitRejects p t k c.wrap = false ∧
          c = fitCandidate t k c.wrap) := by
      intro b hb
      rcases ih hb with h | ⟨h1, h2, h3⟩
      · exact .inl h
      · exact .inr ⟨by omega, by omega, h3⟩
    split at h
    · exact new h
    · rename_i hr
      simp only [Bool.not_eq_true] at hr
      have here : some (fitCandidate t k w) = some c → (w ≤ c.wrap ∧ c.wrap < w + (n + 1) ∧
          fitRejects p t k c.wrap = false ∧ c = fitCandidate t k c.wrap) := by
        intro e
        obtain rfl := Option.some.inj e
        exact ⟨Nat.le_refl w, Nat.lt_add_of_pos_right (Nat.succ_pos n), hr, rfl⟩
      split at h
      · split at h
        · exact .inr (here h)
        · exact (new h).elim (fun e => .inr (here e)) .inr
      · exact new h

/-- What `fit` answers is an accepted candidate with its wrap in range (41_rate.md R130). -/
theorem fit_mem {p : Config.Params} {t k : Nat} {c : Fitted} (h : fit p t k = some c) :
    0 < t ∧ p.wrapMin ≤ c.wrap ∧ c.wrap ≤ p.wrapMax ∧ fitRejects p t k c.wrap = false ∧
      c = fitCandidate t k c.wrap := by
  unfold fit at h
  split at h
  · simp at h
  · rcases fitSearch_mem h with h | ⟨h1, h2, h3⟩
    · simp at h
    · exact ⟨by omega, h1, by omega, h3⟩

/-- `abs(A - T)` of a candidate or an answer (41_rate.md R130). -/
def Fitted.error (c : Fitted) (t k : Nat) : ℚ := |achievedRate k c.wrap c.d16 - (t : ℚ)|

/-- An accepted candidate has a positive denominator. -/
theorem fitCandidate_den_pos {p : Config.Params} {t k w : Nat} (hp : 1 ≤ p.d16Min) (ht : 0 < t)
    (h : fitRejects p t k w = false) : 0 < (fitCandidate t k w).den :=
  Nat.mul_pos (Nat.succ_pos w) (Nat.lt_of_lt_of_le (Nat.lt_of_lt_of_le Nat.zero_lt_one hp) (fitCandidate_range ht h).1)

/-- What the search leaves: an answer closer than FIT_EPS, or one no worse than what it was given and than every accepted
wrap of its range (41_rate.md R130). -/
theorem fitSearch_best {p : Config.Params} {t k n w : Nat} {best : Option Fitted} {c : Fitted} (hp : 1 ≤ p.d16Min)
    (ht : 0 < t) (hb : ∀ b, best = some b → 0 < b.den) (h : fitSearch p t k n w best = some c) :
    fitClose p t k c = true ∨
      ((∀ b, best = some b → c.error t k ≤ b.error t k) ∧
        ∀ v, w ≤ v → v < w + n → fitRejects p t k v = false → c.error t k ≤ (fitCandidate t k v).error t k) := by
  induction n generalizing w best with
  | zero => exact .inr ⟨fun b e => by obtain rfl := Option.some.inj (h.symm.trans e); exact le_rfl, fun v h1 h2 => by omega⟩
  | succ n ih =>
    have later : ∀ {b'}, fitSearch p t k n (w + 1) b' = some c → (∀ b, b' = some b → 0 < b.den) →
        (∀ e, (∀ b, b' = some b → e ≤ b.error t k) → (∀ b, best = some b → e ≤ b.error t k) ∧
          (fitRejects p t k w = false → e ≤ (fitCandidate t k w).error t k)) →
        fitClose p t k c = true ∨
          ((∀ b, best = some b → c.error t k ≤ b.error t k) ∧
            ∀ v, w ≤ v → v < w + (n + 1) → fitRejects p t k v = false →
              c.error t k ≤ (fitCandidate t k v).error t k) := by
      intro b' hb' hd he
      rcases ih hd hb' with h1 | ⟨h1, h2⟩
      · exact .inl h1
      · obtain ⟨h3, h4⟩ := he _ h1
        refine .inr ⟨h3, fun v hv hv' hr => ?_⟩
        rcases Nat.eq_or_lt_of_le hv with rfl | hv
        · exact h4 hr
        · exact h2 v hv (by omega) hr
    unfold fitSearch at h
    split at h
    · rename_i hr
      exact later h hb fun e he => ⟨he, fun h0 => by simp [hr] at h0⟩
    · rename_i hr
      simp only [Bool.not_eq_true] at hr
      have hd := fitCandidate_den_pos hp ht hr
      split at h
      · rename_i hi
        split at h
        · rename_i hc
          obtain rfl := Option.some.inj h
          exact .inl hc
        · refine later h (fun b e => by obtain rfl := Option.some.inj e; exact hd) fun e he => ?_
          have h0 := he _ rfl
          refine ⟨fun b e' => ?_, fun _ => h0⟩
          subst e'
          exact h0.trans ((fitImproves_some_iff hd (hb b rfl)).mp hi).le
      · rename_i hi
        refine later h hb fun e he => ⟨he, fun _ => ?_⟩
        cases best with
        | none => simp [fitImproves] at hi
        | some b =>
          have := mt (fitImproves_some_iff hd (hb b rfl)).mpr hi
          exact (he b rfl).trans (not_lt.mp this)

/-- `fit` answers a rate closer than FIT_EPS or the least error of all accepted wraps (41_rate.md R130). -/
theorem fit_best {p : Config.Params} {t k : Nat} {c : Fitted} (hp : 1 ≤ p.d16Min) (h : fit p t k = some c) :
    fitClose p t k c = true ∨
      ∀ v, p.wrapMin ≤ v → v ≤ p.wrapMax → fitRejects p t k v = false →
        c.error t k ≤ (fitCandidate t k v).error t k := by
  have ht := (fit_mem h).1
  unfold fit at h
  rw [if_neg (Nat.ne_of_gt ht)] at h
  refine (fitSearch_best hp ht (fun b e => by simp at e) h).imp id fun h2 v hv hv' => h2.2 v hv (by omega)

/-- The search keeps an answer it has, and finds one where a wrap of its range is accepted. -/
theorem fitSearch_isSome {p : Config.Params} {t k n w : Nat} {best : Option Fitted}
    (h : best.isSome = true ∨ ∃ v, w ≤ v ∧ v < w + n ∧ fitRejects p t k v = false) :
    (fitSearch p t k n w best).isSome = true := by
  induction n generalizing w best with
  | zero =>
    rcases h with h | ⟨v, h1, h2, _⟩
    · exact h
    · omega
  | succ n ih =>
    unfold fitSearch
    split
    · rename_i hr
      refine ih (h.imp id ?_)
      rintro ⟨v, h1, h2, h3⟩
      rcases Nat.eq_or_lt_of_le h1 with rfl | h1
      · simp [hr] at h3
      · exact ⟨v, h1, by omega, h3⟩
    · split
      · split
        · rfl
        · exact ih (.inl rfl)
      · rename_i hi
        refine ih (.inl ?_)
        cases best with
        | none => simp [fitImproves] at hi
        | some b => rfl

/-- An accepted wrap in range makes `fit` answer (41_rate.md R130, R133). -/
theorem fit_isSome {p : Config.Params} {t k v : Nat} (ht : 0 < t) (h1 : p.wrapMin ≤ v) (h2 : v ≤ p.wrapMax)
    (h : fitRejects p t k v = false) : (fit p t k).isSome = true := by
  unfold fit
  rw [if_neg (Nat.ne_of_gt ht)]
  exact fitSearch_isSome (.inr ⟨v, h1, by omega, h⟩)

/-- A bound on the error of one accepted wrap, no smaller than FIT_EPS, bounds the error `fit` answers (41_rate.md R137). -/
theorem fit_error_le {p : Config.Params} {t k v : Nat} {e : ℚ} (hp : 1 ≤ p.d16Min) (hq : 0 < p.epsDen) (ht : 0 < t)
    (h1 : p.wrapMin ≤ v) (h2 : v ≤ p.wrapMax) (h : fitRejects p t k v = false)
    (he : (fitCandidate t k v).error t k ≤ e) (heps : fitEps p ≤ e) :
    ∃ c, fit p t k = some c ∧ c.error t k ≤ e := by
  obtain ⟨c, hc⟩ := Option.isSome_iff_exists.mp (fit_isSome ht h1 h2 h)
  refine ⟨c, hc, ?_⟩
  rcases fit_best hp hc with h3 | h3
  · obtain ⟨_, _, _, hr, e'⟩ := fit_mem hc
    have hd : 0 < c.den := by rw [e']; exact fitCandidate_den_pos hp ht hr
    exact ((fitClose_iff hd hq).mp h3).le.trans heps
  · exact (h3 v h1 h2 h).trans he

end Sys2Proof.Machine
end

