-- ==== Sys2Proof/Laws/FitAudio.lean ====
section
/-! SUPPORT. The Rate Fitter at a 125 MHz clock with the default bounds, over audio rates (41_rate.md R137 (c)): tests on
numerals, cheap to evaluate in the kernel, for a bound on the error and for an early stop, and what they say of `fit`.
A wrap is searched by its divider: the only wraps worth a test are the ones next to `2 * 10^9 / (T * D16)`. -/

namespace Sys2Proof.Machine

/-- `f` holds of one of the `n` numbers from `d` on; by the recursor, which the kernel evaluates best. -/
def anyFrom (f : Nat → Bool) (n : Nat) : Nat → Bool :=
  Nat.rec (fun _ => false) (fun _ ih d => Bool.rec (ih (Nat.succ d)) true (f d)) n

/-- `f` holds of all `2^k` numbers from `t` on. -/
def allFrom (f : Nat → Bool) (k t : Nat) : Bool :=
  match k with
  | 0 => f t
  | k + 1 => allFrom f k t && allFrom f k (t + 2 ^ k)

/-- How many of the `2^k` numbers from `t` on `f` holds of. -/
def countFrom (f : Nat → Bool) (k t : Nat) : Nat :=
  match k with
  | 0 => (f t).toNat
  | k + 1 => countFrom f k t + countFrom f k (t + 2 ^ k)

theorem anyFrom_iff (f : Nat → Bool) (n d : Nat) : anyFrom f n d = true ↔ ∃ i, d ≤ i ∧ i < d + n ∧ f i = true := by
  induction n generalizing d with
  | zero => exact ⟨fun h => by simp [anyFrom] at h, fun ⟨i, h1, h2, _⟩ => by omega⟩
  | succ n ih =>
    have e : anyFrom f (n + 1) d = Bool.rec (anyFrom f n (d + 1)) true (f d) := rfl
    rw [e]
    cases hf : f d with
    | true => exact ⟨fun _ => ⟨d, Nat.le_refl d, by omega, hf⟩, fun _ => rfl⟩
    | false =>
      refine (ih (d + 1)).trans ⟨fun ⟨i, h1, h2, h3⟩ => ⟨i, by omega, by omega, h3⟩, fun ⟨i, h1, h2, h3⟩ => ?_⟩
      rcases Nat.eq_or_lt_of_le h1 with rfl | h1
      · simp [hf] at h3
      · exact ⟨i, h1, by omega, h3⟩

theorem allFrom_spec {f : Nat → Bool} {k t : Nat} (h : allFrom f k t = true) :
    ∀ i, t ≤ i → i < t + 2 ^ k → f i = true := by
  induction k generalizing t with
  | zero =>
    intro i h1 h2
    obtain rfl : i = t := by omega
    exact h
  | succ k ih =>
    intro i h1 h2
    simp only [allFrom, Bool.and_eq_true] at h
    rcases Nat.lt_or_ge i (t + 2 ^ k) with h3 | h3
    · exact ih h.1 i h1 h3
    · exact ih h.2 i h3 (by rw [Nat.pow_succ] at h2; omega)

theorem countFrom_eq (f : Nat → Bool) (k t : Nat) : countFrom f k t = (List.range' t (2 ^ k)).countP f := by
  induction k generalizing t with
  | zero => cases h : f t <;> simp [countFrom, h]
  | succ k ih =>
    have e : List.range' t (2 ^ (k + 1)) = List.range' t (2 ^ k) ++ List.range' (t + 2 ^ k) (2 ^ k) := by
      rw [Nat.pow_succ, Nat.mul_two, List.range'_append_1]
    rw [countFrom, ih, ih, e, List.countP_append]

/-- `fit` stops early exactly if some accepted wrap's error is below FIT_EPS (41_rate.md R130). -/
theorem fit_close_iff {p : Config.Params} {t k : Nat} (hp : 1 ≤ p.d16Min) (hq : 0 < p.epsDen) (ht : 0 < t) :
    (fit p t k).any (fitClose p t k) = true ↔
      ∃ v, p.wrapMin ≤ v ∧ v ≤ p.wrapMax ∧ fitRejects p t k v = false ∧ fitClose p t k (fitCandidate t k v) = true := by
  constructor
  · intro h
    cases hc : fit p t k with
    | none => simp [hc] at h
    | some c =>
      obtain ⟨_, h1, h2, h3, e⟩ := fit_mem hc
      rw [hc] at h
      exact ⟨c.wrap, h1, h2, h3, e ▸ h⟩
  · rintro ⟨v, h1, h2, h3, h4⟩
    obtain ⟨c, hc⟩ := Option.isSome_iff_exists.mp (fit_isSome ht h1 h2 h3)
    have goal : fitClose p t k c = true := by
      rcases fit_best hp hc with h5 | h5
      · exact h5
      · obtain ⟨_, _, _, hr, e⟩ := fit_mem hc
        have hd : 0 < c.den := by rw [e]; exact fitCandidate_den_pos hp ht hr
        exact (fitClose_iff hd hq).mpr
          ((h5 v h1 h2 h3).trans_lt ((fitClose_iff (fitCandidate_den_pos hp ht h3) hq).mp h4))
    rw [hc]
    exact goal

/-- A divider `D16` next to `2 * 10^9 / (T * P)` is the candidate's (41_rate.md R132). -/
theorem fitCandidate_eq {t P d : Nat} (h1 : 2 * t * P * d ≤ 4000000000 + t * P)
    (h2 : 4000000000 + t * P < 2 * t * P * (d + 1)) : fitCandidate t 125000000 (P - 1) = ⟨P - 1, d⟩ := by
  have hP : 0 < P := by
    rcases Nat.eq_zero_or_pos P with rfl | h
    · simp at h2
    · exact h
  have e : P - 1 + 1 = P := by omega
  have ht : 0 < 2 * t * P := by
    rcases Nat.eq_zero_or_pos (2 * t * P) with h | h
    · simp [h] at h2
    · exact h
  have : (4000000000 + t * P) / (2 * t * P) = d := by
    apply Nat.le_antisymm
    · exact Nat.lt_succ_iff.mp ((Nat.div_lt_iff_lt_mul ht).mpr (by rw [Nat.mul_comm d.succ]; exact h2))
    · exact (Nat.le_div_iff_mul_le ht).mpr (by rw [Nat.mul_comm d]; exact h1)
  simp [fitCandidate, e, this]

/-- With the default bounds, the wrap `P - 1` is accepted. -/
theorem fitRejects_platform {t P : Nat} (hP : 0 < P) (h1 : 16 * t * P ≤ 2000000000)
    (h2 : 2000000000 ≤ 4095 * t * P) : fitRejects Config.platform t 125000000 (P - 1) = false := by
  have e : P - 1 + 1 = P := by omega
  simp [fitRejects, Config.platform, e, h1, h2]

/-- Some wrap with the divider `d` has an error below FIT_EPS: the least `P` with `2 * 10^9 / (P * d) < T + 1/2` also has
`2 * 10^9 / (P * d) > T - 1/2`, and lies in range. Here `a = 2T + 1` and `b = 2T - 1`. -/
def closeAt (t a b d : Nat) : Bool :=
  Nat.ble (Nat.mul (Nat.mul (Nat.succ (Nat.div 4000000000 (Nat.mul d a))) d) b) 3999999999 &&
    (Nat.ble 255 (4000000000 / (d * a)) && Nat.ble (4000000000 / (d * a)) 4095 &&
      Nat.ble (16 * t * (4000000000 / (d * a) + 1)) 2000000000)

/-- Some wrap's error is below FIT_EPS, searched divider by divider. -/
def closeSearch (t a b : Nat) : Bool :=
  anyFrom (closeAt t a b) (4000000000 / (256 * b) - 4000000000 / (4096 * a)) (4000000000 / (4096 * a) + 1)

/-- The rate `t` stops early. -/
def stopsEarly (t : Nat) : Bool := closeSearch t (2 * t + 1) (2 * t - 1)

theorem closeAt_iff {t a b d : Nat} : closeAt t a b d = true ↔
    ∃ q, q = 4000000000 / (d * a) ∧ (q + 1) * d * b < 4000000000 ∧ 255 ≤ q ∧ q ≤ 4095 ∧
      16 * t * (q + 1) ≤ 2000000000 := by
  simp only [closeAt, Bool.and_eq_true, Nat.ble_eq]
  constructor
  · rintro ⟨h1, ⟨h2, h3⟩, h4⟩
    exact ⟨_, rfl, Nat.lt_succ_of_le h1, h2, h3, h4⟩
  · rintro ⟨q, rfl, h1, h2, h3, h4⟩
    exact ⟨Nat.le_of_lt_succ h1, ⟨h2, h3⟩, h4⟩

/-- The error test on integers. -/
theorem fitClose_platform {t w d : Nat} : fitClose Config.platform t 125000000 ⟨w, d⟩ = true ↔
    4000000000 < (2 * t + 1) * ((w + 1) * d) ∧ (2 * t) * ((w + 1) * d) < 4000000000 + (w + 1) * d := by
  generalize hx : (w + 1) * d = x
  have e1 : (2 * t + 1) * x = 2 * (t * x) + x := by ring
  have e2 : (2 * t) * x = 2 * (t * x) := by ring
  simp only [fitClose, Fitted.errNum, Fitted.den, Config.platform, hx, decide_eq_true_eq, e1, e2]
  generalize t * x = y
  omega

/-- The test says whether `fit` stops early (41_rate.md R137 (c)). -/
theorem stopsEarly_iff {t : Nat} (h1 : 8000 ≤ t) (h2 : t ≤ 48000) :
    stopsEarly t = true ↔ (fit Config.platform t 125000000).any (fitClose Config.platform t 125000000) = true := by
  rw [fit_close_iff (by decide) (by decide) (by omega)]
  unfold stopsEarly closeSearch
  rw [anyFrom_iff]
  have hb : 2 * t - 1 + 1 = 2 * t := by omega
  generalize hB : 2 * t - 1 = b at *
  have hb0 : 15999 ≤ b := by omega
  have hlohi : 4000000000 / (4096 * (2 * t + 1)) ≤ 4000000000 / (256 * b) :=
    Nat.div_le_div_left (by omega) (by omega)
  constructor
  · rintro ⟨d, hd1, hd2, hc⟩
    obtain ⟨q, hq, h3, h4, h5, h6⟩ := closeAt_iff.mp hc
    have hd0 : 0 < d := Nat.lt_of_lt_of_le (Nat.succ_pos _) hd1
    have hda : 0 < d * (2 * t + 1) := Nat.mul_pos hd0 (by omega)
    have h7 : 4000000000 < (q + 1) * (d * (2 * t + 1)) := by
      rw [hq, Nat.add_mul, Nat.one_mul, Nat.mul_comm]
      exact Nat.lt_mul_div_succ 4000000000 hda |> fun h => by rw [Nat.mul_add, Nat.mul_one] at h; exact h
    have hd3 : d ≤ 976 := by
      have : d ≤ 4000000000 / (256 * b) := by omega
      have h8 : 4000000000 / (256 * b) ≤ 4000000000 / (256 * 15999) := Nat.div_le_div_left (by omega) (by omega)
      have h9 : 4000000000 / (256 * 15999) = 976 := by decide
      omega
    have e1 : (q + 1) * d * b + (q + 1) * d = 2 * t * ((q + 1) * d) := by rw [← hb]; ring
    have e2 : (q + 1) * (d * (2 * t + 1)) = 2 * t * ((q + 1) * d) + (q + 1) * d := by ring
    have h10 : (q + 1) * d ≤ (q + 1) * 976 := Nat.mul_le_mul_left _ hd3
    have h11 : t * (q + 1) * 16 ≤ 2000000000 := by linarith [h6, Nat.mul_comm t (q + 1)]
    have h12 : (q + 1) * 976 ≤ t * (q + 1) := by nlinarith
    have hcand : fitCandidate t 125000000 (q + 1 - 1) = ⟨q + 1 - 1, d⟩ := by
      apply fitCandidate_eq
      · have e : 2 * t * (q + 1) * d = 2 * t * ((q + 1) * d) := by ring
        rw [e]; omega
      · have e : 2 * t * (q + 1) * (d + 1) = 2 * t * ((q + 1) * d) + 2 * (t * (q + 1)) := by ring
        rw [e]; omega
    rw [Nat.add_sub_cancel] at hcand
    refine ⟨q, h4, h5, ?_, ?_⟩
    · have := fitRejects_platform (t := t) (P := q + 1) (by omega) h6 ?_
      · rwa [Nat.add_sub_cancel] at this
      · have : (2 * t + 1) * ((q + 1) * d) ≤ (2 * t + 1) * ((q + 1) * 976) := Nat.mul_le_mul_left _ h10
        nlinarith
    · rw [hcand]
      refine fitClose_platform.mpr ⟨?_, ?_⟩
      · have e : (2 * t + 1) * ((q + 1) * d) = 2 * t * ((q + 1) * d) + (q + 1) * d := by ring
        rw [e]; omega
      · omega
  · rintro ⟨v, hv1, hv2, hr, hc⟩
    have hv1 : 255 ≤ v := hv1
    have hv2 : v ≤ 4095 := hv2
    have hw : (fitCandidate t 125000000 v).wrap = v := rfl
    generalize hcd : fitCandidate t 125000000 v = c at *
    obtain ⟨w, d⟩ := c
    obtain rfl : w = v := hw
    obtain ⟨h3, h4⟩ := fitClose_platform.mp hc
    have h6 : 16 * t * (w + 1) ≤ 2000000000 := by
      simp [fitRejects, Config.platform] at hr
      exact of_decide_eq_false hr.1 |> Nat.not_lt.mp
    have e1 : (w + 1) * d * b + (w + 1) * d = 2 * t * ((w + 1) * d) := by rw [← hb]; ring
    have h7 : (w + 1) * d * b < 4000000000 := by omega
    have hd0 : 0 < d := by
      rcases Nat.eq_zero_or_pos d with rfl | h
      · simp at h3
      · exact h
    have hda : 0 < d * (2 * t + 1) := Nat.mul_pos hd0 (by omega)
    have hq : 4000000000 / (d * (2 * t + 1)) = w := by
      apply Nat.le_antisymm
      · refine Nat.lt_succ_iff.mp ((Nat.div_lt_iff_lt_mul hda).mpr ?_)
        have e : (w + 1) * (d * (2 * t + 1)) = (2 * t + 1) * ((w + 1) * d) := by ring
        rw [Nat.succ_eq_add_one, e]; exact h3
      · refine (Nat.le_div_iff_mul_le hda).mpr ?_
        have e : w * (d * (2 * t + 1)) + (2 * t + 1) * d = (w + 1) * d * b + 2 * ((w + 1) * d) := by
          rw [show 2 * t + 1 = b + 2 by omega]; ring
        have : (w + 1) * d ≤ t * d := Nat.mul_le_mul_right _ (by omega)
        have : (2 * t + 1) * d = 2 * (t * d) + d := by ring
        omega
    refine ⟨d, ?_, ?_, closeAt_iff.mpr ⟨w, hq.symm, h7, hv1, hv2, h6⟩⟩
    · have : 4000000000 / (4096 * (2 * t + 1)) < d := by
        rw [Nat.div_lt_iff_lt_mul (by omega)]
        have : (w + 1) * d ≤ 4096 * d := Nat.mul_le_mul_right _ (by omega)
        nlinarith
      omega
    · have : d ≤ 4000000000 / (256 * b) := by
        rw [Nat.le_div_iff_mul_le (by omega)]
        have : 256 * d ≤ (w + 1) * d := Nat.mul_le_mul_right _ (by omega)
        nlinarith
      omega

/-- The wrap nearest `2 * 10^9 / (T * d)` is in range and keeps both bounds of 41_rate.md R137 (c). -/
def boundAt (t d : Nat) : Bool :=
  Nat.rec false
    (fun w _ =>
      Nat.ble (Nat.mul 2000000000 1000072821) (Nat.mul (Nat.mul (Nat.mul (Nat.succ w) d) t) 1000145642) &&
        Nat.ble (Nat.mul (Nat.mul (Nat.mul (Nat.succ w) d) t) 1000000000) (Nat.mul 2000000000 1000072821) &&
        Nat.ble (2000000000 * 21279) ((w + 1) * d * (21279 * t + 70442)) &&
        Nat.ble ((w + 1) * d * (21279 * t - 70442)) (2000000000 * 21279) &&
        Nat.ble 255 w && Nat.ble w 4095 && Nat.ble (16 * t * (w + 1)) 2000000000)
    (Nat.div (4000000000 + t * d) (2 * t * d))

/-- Some wrap keeps both bounds at the rate `t`. -/
def boundKept (t : Nat) : Bool := anyFrom (boundAt t) (977 - 2000000000 / (4096 * t)) (2000000000 / (4096 * t))

theorem boundAt_iff {t d : Nat} : boundAt t d = true ↔
    ∃ w, w + 1 = (4000000000 + t * d) / (2 * t * d) ∧
      2000000000 * 1000072821 ≤ (w + 1) * d * t * 1000145642 ∧
      (w + 1) * d * t * 1000000000 ≤ 2000000000 * 1000072821 ∧
      2000000000 * 21279 ≤ (w + 1) * d * (21279 * t + 70442) ∧
      (w + 1) * d * (21279 * t - 70442) ≤ 2000000000 * 21279 ∧
      255 ≤ w ∧ w ≤ 4095 ∧ 16 * t * (w + 1) ≤ 2000000000 := by
  have e : Nat.div (4000000000 + t * d) (2 * t * d) = (4000000000 + t * d) / (2 * t * d) := rfl
  unfold boundAt
  rw [e]
  cases (4000000000 + t * d) / (2 * t * d) with
  | zero => exact ⟨fun h => by simp at h, fun ⟨w, h, _⟩ => by omega⟩
  | succ w =>
    simp only [Bool.and_eq_true, Nat.ble_eq]
    constructor
    · rintro ⟨⟨⟨⟨⟨⟨h1, h2⟩, h3⟩, h4⟩, h5⟩, h6⟩, h7⟩
      exact ⟨w, rfl, h1, h2, h3, h4, h5, h6, h7⟩
    · rintro ⟨v, hv, h1, h2, h3, h4, h5, h6, h7⟩
      obtain rfl : v = w := Nat.succ.inj hv
      exact ⟨⟨⟨⟨⟨⟨h1, h2⟩, h3⟩, h4⟩, h5⟩, h6⟩, h7⟩

/-- A rate at which the test finds a wrap is fitted within both bounds of 41_rate.md R137 (c). -/
theorem boundKept_spec {t : Nat} (h1 : 8000 ≤ t) (h2 : t ≤ 48000) (h : boundKept t = true) :
    ∃ c, fit Config.platform t 125000000 = some c ∧ c.error t 125000000 ≤ t * (72821 / 1000072821) ∧
      c.error t 125000000 ≤ 70442 / 21279 := by
  obtain ⟨d, hd1, hd2, hb⟩ := (anyFrom_iff _ _ _).mp h
  obtain ⟨w, -, b1, b2, b3, b4, b5, b6, b7⟩ := boundAt_iff.mp hb
  have hlo : 2000000000 / (4096 * t) ≤ 61 :=
    Nat.lt_succ_iff.mp ((Nat.div_lt_iff_lt_mul (by omega)).mpr (by omega))
  have hd : d ≤ 976 := by omega
  have e1 : (w + 1) * d * t = t * (w + 1) * d := by ring
  have htP : 8000 * 256 ≤ t * (w + 1) := Nat.mul_le_mul h1 (by omega)
  rw [e1] at b1 b2
  have hm : t * (w + 1) * d ≤ t * (w + 1) * 976 := Nat.mul_le_mul_left _ hd
  have hcand : fitCandidate t 125000000 (w + 1 - 1) = ⟨w + 1 - 1, d⟩ := by
    apply fitCandidate_eq
    · have e : 2 * t * (w + 1) * d = 2 * (t * (w + 1) * d) := by ring
      rw [e]; omega
    · have e : 2 * t * (w + 1) * (d + 1) = 2 * (t * (w + 1) * d) + 2 * (t * (w + 1)) := by ring
      rw [e]; omega
  have hacc : fitRejects Config.platform t 125000000 (w + 1 - 1) = false := by
    apply fitRejects_platform (Nat.succ_pos w) b7
    have e : 4095 * t * (w + 1) = 4095 * (t * (w + 1)) := by ring
    rw [e]; omega
  rw [Nat.add_sub_cancel] at hcand hacc
  have hden : 0 < (Fitted.mk w d).den := by
    rw [← hcand]; exact fitCandidate_den_pos (by decide) (by omega) hacc
  have hx : (0 : ℚ) < ((w : ℚ) + 1) * d := by
    have : (0 : ℚ) < ((Fitted.mk w d).den : ℚ) := by exact_mod_cast hden
    simpa [Fitted.den] using this
  have hA : achievedRate 125000000 w d = 2000000000 / (((w : ℚ) + 1) * d) := by
    unfold achievedRate; norm_num
  have ht : (8000 : ℚ) ≤ t := by exact_mod_cast h1
  have q1 : (2000000000 : ℚ) * 1000072821 ≤ t * (w + 1) * d * 1000145642 := by exact_mod_cast b1
  have q2 : (t : ℚ) * (w + 1) * d * 1000000000 ≤ 2000000000 * 1000072821 := by exact_mod_cast b2
  have q3 : (2000000000 : ℚ) * 21279 ≤ (w + 1) * d * (21279 * t + 70442) := by exact_mod_cast b3
  have q4 : ((w : ℚ) + 1) * d * (21279 * t - 70442) ≤ 2000000000 * 21279 := by
    have : (((w + 1) * d * (21279 * t - 70442) : Nat) : ℚ) ≤ ((2000000000 * 21279 : Nat) : ℚ) := by exact_mod_cast b4
    rw [Nat.cast_mul, Nat.cast_sub (by omega)] at this
    push_cast at this
    linarith
  have err : (fitCandidate t 125000000 w).error t 125000000 ≤ min ((t : ℚ) * (72821 / 1000072821)) (70442 / 21279) := by
    rw [hcand]
    show |achievedRate 125000000 w d - (t : ℚ)| ≤ _
    rw [hA, le_min_iff, abs_le, abs_le]
    refine ⟨⟨?_, ?_⟩, ?_, ?_⟩
    · have : (t : ℚ) - t * (72821 / 1000072821) ≤ 2000000000 / (((w : ℚ) + 1) * d) :=
        (le_div_iff₀ hx).mpr (by linarith)
      linarith
    · rw [sub_le_iff_le_add, div_le_iff₀ hx]
      linarith
    · have : (t : ℚ) - 70442 / 21279 ≤ 2000000000 / (((w : ℚ) + 1) * d) := (le_div_iff₀ hx).mpr (by linarith)
      linarith
    · rw [sub_le_iff_le_add, div_le_iff₀ hx]
      linarith
  have heps : fitEps Config.platform ≤ min ((t : ℚ) * (72821 / 1000072821)) (70442 / 21279) := by
    have : fitEps Config.platform = 1 / 2 := by simp [fitEps, Config.platform]
    rw [this, le_min_iff]
    exact ⟨by linarith, by norm_num⟩
  obtain ⟨c, hc, he⟩ := fit_error_le (p := Config.platform) (v := w) (by decide) (by decide) (by omega) b5 b6 hacc err heps
  exact ⟨c, hc, he.trans (min_le_left _ _), he.trans (min_le_right _ _)⟩

end Sys2Proof.Machine
end

