-- ==== Sys2Proof/Laws/PerInstr.lean ====
section
/-! SUPPORT. Statements about every command, made per command. -/

namespace Sys2Proof.Laws

/-- A command is well-formed, its word has ZERO in bits 31:8 and its listed opcode in bits 7:0 (30_encoding.md R84,
R86), and decoding that word gives the command back. -/
def RoundTrip.Statement (i : Instr) : Prop :=
  i.wf = true ∧ (cmdWordOf (encode i)).wf = true ∧ (encode i).toNat = (opcodeOf i).toNat ∧ decode (encode i) = .ok i

theorem RoundTrip.nop : RoundTrip.Statement .nop := by
  unfold RoundTrip.Statement; decide

theorem RoundTrip.rbInit : RoundTrip.Statement .rbInit := by
  unfold RoundTrip.Statement; decide

theorem RoundTrip.rbWrite : RoundTrip.Statement .rbWrite := by
  unfold RoundTrip.Statement; decide

theorem RoundTrip.rbRead : RoundTrip.Statement .rbRead := by
  unfold RoundTrip.Statement; decide

theorem RoundTrip.rbUsed : RoundTrip.Statement .rbUsed := by
  unfold RoundTrip.Statement; decide

theorem RoundTrip.rbFree : RoundTrip.Statement .rbFree := by
  unfold RoundTrip.Statement; decide

theorem RoundTrip.rbClear : RoundTrip.Statement .rbClear := by
  unfold RoundTrip.Statement; decide

theorem RoundTrip.rbDestroy : RoundTrip.Statement .rbDestroy := by
  unfold RoundTrip.Statement; decide

theorem RoundTrip.fit : RoundTrip.Statement .fit := by
  unfold RoundTrip.Statement; decide

theorem RoundTrip.rateSet : RoundTrip.Statement .rateSet := by
  unfold RoundTrip.Statement; decide

theorem RoundTrip.rateApply : RoundTrip.Statement .rateApply := by
  unfold RoundTrip.Statement; decide

theorem RoundTrip.engInit : RoundTrip.Statement .engInit := by
  unfold RoundTrip.Statement; decide

theorem RoundTrip.engSetprov : RoundTrip.Statement .engSetprov := by
  unfold RoundTrip.Statement; decide

theorem RoundTrip.engStart : RoundTrip.Statement .engStart := by
  unfold RoundTrip.Statement; decide

theorem RoundTrip.engStop : RoundTrip.Statement .engStop := by
  unfold RoundTrip.Statement; decide

theorem RoundTrip.engUnderruns : RoundTrip.Statement .engUnderruns := by
  unfold RoundTrip.Statement; decide

theorem RoundTrip.engRate : RoundTrip.Statement .engRate := by
  unfold RoundTrip.Statement; decide

end Sys2Proof.Laws
end

