-- ==== Sys2Proof/Laws/Step.lean ====
section
/-! SUPPORT. What a step can be: one inversion lemma for the step, one for a host access, one for the start of a ring
command. -/

namespace Sys2Proof.Machine

/-- `u` is `s` with another schedule and another grain of the host's turn. -/
def TurnFrame (s u : State) : Prop := ∃ l p, u = { s with env := { s.env with sched := l, phased := p } }

theorem turnFrame_refl (s : State) : TurnFrame s s := ⟨s.env.sched, s.env.phased, rfl⟩

theorem turnFrame_setSched (l : List Turn) (s : State) : TurnFrame s (s.setSched l) := ⟨l, s.env.phased, rfl⟩

theorem turnFrame_setPhased (l : List Turn) (b : Bool) (s : State) :
    TurnFrame s ((s.setSched l).setPhased b) := ⟨l, b, rfl⟩

/-- What an access that is not refused does. -/
theorem aligned32_next {w : Width} {off : BitVec 8} {go : Out} {t : State} (h : aligned32 w off go = .next t) :
    w = .w32 ∧ off.toNat % 4 = 0 ∧ go = .next t := by
  unfold aligned32 at h
  split at h
  · simp at h
  · rename_i hw
    split at h
    · simp at h
    · rename_i ho
      exact ⟨by simpa using hw, by simpa using ho, h⟩

/-- What the host's turn can be. -/
theorem hostTurn_cases {s t : State} (h : hostTurn s = .next t) :
    (∃ j, s.job = some j ∧ t = ringResume j s) ∨
      (s.job = none ∧ ∃ op hs, s.env.host = op :: hs ∧
        hostOp op { s with env := { s.env with host := hs } } = .next t) ∨
      (s.job = none ∧ s.env.host = [] ∧ t = s) := by
  unfold hostTurn at h
  split at h
  · rename_i j hj
    exact .inl ⟨j, hj, by simpa using h.symm⟩
  · rename_i hj
    split at h
    · rename_i hh
      exact .inr (.inr ⟨hj, hh, by simpa using h.symm⟩)
    · rename_i op hs hh
      exact .inr (.inl ⟨hj, op, hs, hh, h⟩)

/-- What a step can be: a tick, the interrupt context's step, the host's turn (with no interrupt step enabled), a register
read, a store of the platform, or reset. -/
theorem step_cases {s t : State} (h : step s = .next t) :
    ∃ u, TurnFrame s u ∧
      (t = clockTurn u ∨ t = interruptStep u ∨ (s.interruptEnabled = false ∧ hostTurn u = .next t) ∨
        (∃ off rest, s.env.sched = .peek off :: rest ∧ t = u.see (s.readReg off)) ∨
        (∃ a b rest, s.env.sched = .platform a b :: rest ∧ t = { u with mem := s.mem.write a.toNat b }) ∨
        (∃ rest, s.env.sched = .reset :: rest ∧ t = resetInput u)) := by
  have wait : ∀ p rest, hostTurnOrWait p rest s = .next t →
      ∃ u, TurnFrame s u ∧ (t = interruptStep u ∨ (s.interruptEnabled = false ∧ hostTurn u = .next t)) := by
    intro p rest hw
    unfold hostTurnOrWait at hw
    split at hw
    · exact ⟨s, turnFrame_refl s, .inl (by simpa using hw.symm)⟩
    · rename_i hi
      exact ⟨_, turnFrame_setPhased rest p s, .inr ⟨by simpa using hi, hw⟩⟩
  unfold step nextTurn at h
  split at h
  · unfold defaultTurn at h
    split at h
    · exact ⟨s, turnFrame_refl s, .inr (.inl (by simpa using h.symm))⟩
    · rename_i hi
      split at h
      · exact ⟨s.setPhased false, ⟨s.env.sched, false, rfl⟩, .inr (.inr (.inl ⟨by simpa using hi, h⟩))⟩
      · exact ⟨s, turnFrame_refl s, .inl (by simpa using h.symm)⟩
  · rename_i turn rest hs
    cases turn with
    | tick => exact ⟨_, turnFrame_setSched rest s, .inl (by simpa [takeTurn] using h.symm)⟩
    | irq => exact ⟨_, turnFrame_setSched rest s, .inr (.inl (by simpa [takeTurn] using h.symm))⟩
    | host =>
      obtain ⟨u, hu, hc⟩ := wait false rest h
      exact ⟨u, hu, hc.elim (fun e => .inr (.inl e)) (fun e => .inr (.inr (.inl e)))⟩
    | phase =>
      obtain ⟨u, hu, hc⟩ := wait true rest h
      exact ⟨u, hu, hc.elim (fun e => .inr (.inl e)) (fun e => .inr (.inr (.inl e)))⟩
    | peek off =>
      refine ⟨_, turnFrame_setSched rest s, .inr (.inr (.inr (.inl ⟨off, rest, hs, ?_⟩)))⟩
      obtain ⟨_, _, h⟩ := aligned32_next (w := .w32) (off := off) h
      simpa using h.symm
    | platform a b =>
      exact ⟨_, turnFrame_setSched rest s,
        .inr (.inr (.inr (.inr (.inl ⟨a, b, rest, hs, by simpa [takeTurn] using h.symm⟩))))⟩
    | reset =>
      exact ⟨_, turnFrame_setSched rest s,
        .inr (.inr (.inr (.inr (.inr ⟨rest, hs, by simpa [takeTurn] using h.symm⟩))))⟩

/-- The access writes `v` at `off`: a value of the program, or one it has kept. -/
def HostOp.Writes (op : HostOp) (off : BitVec 8) (v : Word) (s : State) : Prop :=
  op = .write .w32 off v ∨ ∃ name, op = .writeKept name off ∧ s.keptAs name = v

/-- What an action of the host's program can be: a register read, a read it keeps, a `CHK`, a write outside CMD, or a
command issued. -/
theorem hostOp_cases {op : HostOp} {s t : State} (h : hostOp op s = .next t) :
    (∃ off, op = .read .w32 off ∧ t = s.see (s.readReg off)) ∨
      (∃ name off, op = .readTo name off ∧ t = readInto name off s) ∨ (op = .check ∧ t = checkStatus s) ∨
      (∃ off v, off ≠ 0 ∧ op.Writes off v s ∧ t = { s with args := s.args.store off v }) ∨
      (∃ v, op.Writes 0 v s ∧ issue v s = .next t) := by
  have wr : ∀ off v, writeReg off v s = .next t → op.Writes off v s →
      (∃ off v, off ≠ 0 ∧ op.Writes off v s ∧ t = { s with args := s.args.store off v }) ∨
      (∃ v, op.Writes 0 v s ∧ issue v s = .next t) := by
    intro off v hw ho
    unfold writeReg at hw
    split at hw
    · rename_i h0
      subst h0
      exact .inr ⟨v, ho, hw⟩
    · rename_i h0
      exact .inl ⟨off, v, h0, ho, by simpa using hw.symm⟩
  cases op with
  | read w off =>
    obtain ⟨rfl, _, h⟩ := aligned32_next h
    exact .inl ⟨off, rfl, by simpa using h.symm⟩
  | write w off v =>
    obtain ⟨rfl, _, h⟩ := aligned32_next h
    exact .inr (.inr (.inr (wr off v h (.inl rfl))))
  | readTo name off =>
    obtain ⟨_, _, h⟩ := aligned32_next h
    exact .inr (.inl ⟨name, off, rfl, by simpa using h.symm⟩)
  | writeKept name off =>
    obtain ⟨_, _, h⟩ := aligned32_next h
    exact .inr (.inr (.inr (wr off _ h (.inr ⟨name, rfl, rfl⟩))))
  | check => exact .inr (.inr (.inl ⟨rfl, by simpa [hostOp] using h.symm⟩))

/-- A command issued either is a listed command's meaning or sets ERR_ILLEGAL (30_encoding.md R85). -/
theorem issue_cases {v : Word} {s t : State} (h : issue v s = .next t) :
    (∃ i, decode v = .ok i ∧ exec i s = .next t) ∨ t = s.setErr .illegal := by
  unfold issue at h
  split at h
  · rename_i i hi
    exact .inl ⟨i, hi, h⟩
  · exact .inr (raise_next h)

/-- A ring command from its SNAPSHOT on, whatever the grain of the turn, changes only what `RingFrame` names. -/
theorem ringStart_frame {j : RingJob} {s t : State} (h : ringStart j s = .next t) : RingFrame s t := by
  unfold ringStart at h
  split at h
  · obtain rfl : { s with job := some j } = t := by simpa using h
    exact ⟨s.err, s.ring.rd, s.ring.wr, s.ring.bytes, s.res.r0, s.mem, some j, s.env.drawn, rfl⟩
  · obtain rfl : ringRun j.left { s with job := some j } = t := by simpa using h
    exact ringFrame_trans (t := { s with job := some j })
      ⟨s.err, s.ring.rd, s.ring.wr, s.ring.bytes, s.res.r0, s.mem, some j, s.env.drawn, rfl⟩ (ringRun_frame _ _)

/-- So does a ring command that goes on. -/
theorem ringResume_frame (j : RingJob) (s : State) : RingFrame s (ringResume j s) := by
  unfold ringResume
  split
  · exact ringPhase_frame j s
  · exact ringRun_frame _ _

end Sys2Proof.Machine
end

