-- ==== Sys2Proof/Tests/Slice0.lean ====
section
/-! SUPPORT. Tests. The expected values come from the spec: the worked examples of its rules, or the named vectors of
95_test_vectors.md. The `witness_` theorems show states that meet the hypotheses of the statements in
Certificates/Slice0/Obligations.lean. -/

namespace Sys2Proof.Tests

open Sys2Proof.Machine

/-- The parameters of 95_test_vectors.md, with the search for a wrap narrowed to 900 to 910 so that tests are quick, and
with the two bytes of vector RB-19 admitted too. -/
def tcfg : Config.Params where
  aoeBase := 0x40000000
  sysClkHz := 125000000
  batch := 4
  wrapMin := 900
  wrapMax := 910
  d16Min := 16
  d16Max := 4095
  epsNum := 1
  epsDen := 2
  rbMaxBytes := 1048576
  pctMin := 2500
  pctMax := 40000
  rateMin := 8000
  rateMax := 96000
  pins := [(26, 27)]
  admitted := [(0x20000000, 0x2000), (0xFFFFFFFF, 1), (0, 1)]

/-- The parameters of 95_test_vectors.md with the whole range of wrap values. -/
def vcfg : Config.Params := { tcfg with wrapMin := 255, wrapMax := 4095 }

/-- System memory of the ring vectors: `A1 A2 A3 A4 A5` at 0x20000010, and RB-19's two bytes. -/
def tmem : Memory :=
  [(0, 0x66), (0x20000010, 0xA1), (0x20000011, 0xA2), (0x20000012, 0xA3), (0x20000013, 0xA4), (0x20000014, 0xA5),
    (0xFFFFFFFF, 0x55)]

/-- The block after reset, with a schedule and a host program, and draws that succeed once. -/
def blank (turns : List Turn) (prog : List HostOp) : State :=
  State.initial tcfg tmem { Env.empty with sched := turns, host := prog, alloc := [true], claim := [true] }

/-- The ring before vector RB-11: `A4 A5 A6 A7` waiting, three bytes free. -/
def ring8 : Ring := ⟨true, 8, 3, 7, [0xA1, 0xA2, 0xA3, 0xA4, 0xA5, 0xA6, 0xA7, 0]⟩

/-- The session of vector ENG-1. -/
def sess44 : Session := ⟨true, 44100, 26, 27, 2, 906, 50, 44101, 28396⟩

/-- A stopped engine after ENG-1, with a provider registered. -/
def stopped (p : Prov) : Engine :=
  { Engine.idle 4 with
    prov := p
    buf0 := Bank.fillWith 4 ⟨453, 453⟩
    buf1 := Bank.fillWith 4 ⟨453, 453⟩
    last := ⟨453, 453⟩
    out := ⟨453, 453⟩ }

/-- The engine of vector ENG-15, just started. -/
def started (p : Prov) : Engine :=
  { stopped p with
    running := true
    outEn := true
    armed := true
    dmaClaimed := true
    buf0 := ⟨[0, 453, 680, 906], [906, 453, 226, 0]⟩
    buf1 := ⟨[467, 481, 481, 481], [439, 425, 425, 425]⟩
    last := ⟨481, 425⟩
    underrun := 1 }

/-- The engine of vector ENG-19: buffer 0 has played, its completion is pending. -/
def completed (p : Prov) : Engine := { started p with armed := false, irqPend := true, dmaIdx := 4, out := ⟨906, 0⟩ }

/-- The engine of vector ENG-21: in the handler, filling buffer 0. -/
def handling (p : Prov) : Engine :=
  { started p with playIdx := .b1, inHandler := true, fillTgt := .b0, out := ⟨906, 0⟩ }

/-- A configured block with the ring of RB-11 and an engine. -/
def live (e : Engine) (turns : List Turn) (prog : List HostOp) : State :=
  { blank turns prog with ring := ring8, sess := sess44, eng := e }

/-- The state with operands. -/
def withArgs (a0 a1 a2 a3 : Word) (s : State) : State := { s with args := ⟨a0, a1, a2, a3⟩ }

/-- The state after a command (the state itself, should the command not give one). -/
def after (i : Instr) (s : State) : State :=
  match exec i s with
  | .next t => t
  | _ => s

/-- The state after a step. -/
def stepped (s : State) : State :=
  match step s with
  | .next t => t
  | _ => s

/-! Well-formedness. -/

theorem test_wf_zero_field : (CmdWord.mk 0x01 1).wf = false := by decide
theorem test_wf_unlisted_opcode : (CmdWord.mk 0x08 0).wf = false := by decide
theorem test_wf_listed_opcode : (CmdWord.mk 0x25 0).wf = true := by decide
theorem test_wf_params : tcfg.wf = true ∧ vcfg.wf = true := by decide
theorem test_wf_wrap_zero : ({ tcfg with wrapMin := 0 } : Config.Params).wf = false := by decide
theorem test_wf_wrap_order : ({ tcfg with wrapMin := 911 } : Config.Params).wf = false := by decide
theorem test_wf_wrap_wide : ({ tcfg with wrapMax := 65536 } : Config.Params).wf = false := by decide
theorem test_wf_div_zero : ({ tcfg with d16Min := 0 } : Config.Params).wf = false := by decide
theorem test_wf_div_order : ({ tcfg with d16Max := 15 } : Config.Params).wf = false := by decide
theorem test_wf_batch_zero : ({ tcfg with batch := 0 } : Config.Params).wf = false := by decide
theorem test_wf_batch_wide : ({ tcfg with batch := 65536 } : Config.Params).wf = false := by decide
theorem test_wf_eps : ({ tcfg with epsDen := 0 } : Config.Params).wf = false := by decide
theorem test_wf_pins : ({ tcfg with pins := [(26, 256)] } : Config.Params).wf = false := by decide

/-! Decoding, each word written out from 30_encoding.md R84 and R86. -/

theorem test_decode_nop : decode 0b00000000000000000000000000000000#32 = .ok .nop := by decide
theorem test_decode_rbInit : decode 0b00000000000000000000000000000001#32 = .ok .rbInit := by decide
theorem test_decode_rbWrite : decode 0b00000000000000000000000000000010#32 = .ok .rbWrite := by decide
theorem test_decode_rbRead : decode 0b00000000000000000000000000000011#32 = .ok .rbRead := by decide
theorem test_decode_rbUsed : decode 0b00000000000000000000000000000100#32 = .ok .rbUsed := by decide
theorem test_decode_rbFree : decode 0b00000000000000000000000000000101#32 = .ok .rbFree := by decide
theorem test_decode_rbClear : decode 0b00000000000000000000000000000110#32 = .ok .rbClear := by decide
theorem test_decode_rbDestroy : decode 0b00000000000000000000000000000111#32 = .ok .rbDestroy := by decide
theorem test_decode_fit : decode 0b00000000000000000000000000010000#32 = .ok .fit := by decide
theorem test_decode_rateSet : decode 0b00000000000000000000000000010001#32 = .ok .rateSet := by decide
theorem test_decode_rateApply : decode 0b00000000000000000000000000010010#32 = .ok .rateApply := by decide
theorem test_decode_engInit : decode 0b00000000000000000000000000100000#32 = .ok .engInit := by decide
theorem test_decode_engSetprov : decode 0b00000000000000000000000000100001#32 = .ok .engSetprov := by decide
theorem test_decode_engStart : decode 0b00000000000000000000000000100010#32 = .ok .engStart := by decide
theorem test_decode_engStop : decode 0b00000000000000000000000000100011#32 = .ok .engStop := by decide
theorem test_decode_engUnderruns : decode 0b00000000000000000000000000100100#32 = .ok .engUnderruns := by decide
theorem test_decode_engRate : decode 0b00000000000000000000000000100101#32 = .ok .engRate := by decide

/-- Vectors ENC-2, ENC-3, ENC-5 to ENC-7. -/
theorem test_decode_rejects :
    [0x00000008, 0x0000000F, 0x00000013, 0x0000001F, 0x00000026, 0x00000080, 0x000000FF, 0x00000101, 0x80000022,
      0xFFFFFFFF].map (decodeTableWord 32) = List.replicate 10 none := by decide

/-! Commands. -/

/-- Vector ENC-8. -/
theorem test_nop : (after .nop { blank [] [] with err := .illegal }).statusWord = 0 := by decide

/-- Vector ENC-5: decode comes first, and the ring is untouched. -/
theorem test_illegal :
    (stepped (live (stopped .ring) [.host] [.write .w32 0 0x101])).statusWord = 0x76 ∧
      (stepped (live (stopped .ring) [.host] [.write .w32 0 0x101])).ring = ring8 := by decide

/-- Vector RB-4. -/
theorem test_rbInit :
    (after .rbInit (withArgs 8 0 0 0 (blank [] []))).statusWord = 0x10 ∧
      (after .rbInit (withArgs 8 0 0 0 (blank [] []))).ring.cap = 8 ∧
      (after .rbInit (withArgs 8 0 0 0 (blank [] []))).res.r0 = 8 := by decide

/-- Vector RB-3c. -/
theorem test_rbInit_too_large : (after .rbInit (withArgs 1048577 0 0 0 (blank [] []))).err = .alloc := by decide

/-- Vector RB-11. -/
theorem test_rbWrite :
    (after .rbWrite (withArgs 0x20000010 5 0 0 (live (stopped .none) [] []))).ring =
        ⟨true, 8, 3, 2, [0xA2, 0xA3, 0xA3, 0xA4, 0xA5, 0xA6, 0xA7, 0xA1]⟩ ∧
      (after .rbWrite (withArgs 0x20000010 5 0 0 (live (stopped .none) [] []))).res.r0 = 3 := by decide

/-- Vector RB-19: the address wraps. -/
theorem test_rbWrite_wraps :
    (after .rbWrite (withArgs 0xFFFFFFFF 2 0 0 (live (stopped .none) [] []))).ring.bytes =
      [0x66, 0xA2, 0xA3, 0xA4, 0xA5, 0xA6, 0xA7, 0x55] := by decide

/-- Vector RB-13, on the ring that RB-11 leaves. -/
theorem test_rbRead :
    (after .rbRead (withArgs 0x20000020 100 0 0
        { live (stopped .none) [] [] with
          ring := ⟨true, 8, 3, 2, [0xA2, 0xA3, 0xA3, 0xA4, 0xA5, 0xA6, 0xA7, 0xA1]⟩, mem := [] })).mem =
      [(0x20000020, 0xA4), (0x20000021, 0xA5), (0x20000022, 0xA6), (0x20000023, 0xA7), (0x20000024, 0xA1),
        (0x20000025, 0xA2), (0x20000026, 0xA3)] := by decide

/-- Vector RB-18: the byte before the refused one is written, the ring is as it was. -/
theorem test_rbRead_bus :
    (after .rbRead (withArgs 0x20001FFF 3 0 0 { live (stopped .none) [] [] with mem := [] })).mem =
        [(0x20001FFF, 0xA4)] ∧
      (after .rbRead (withArgs 0x20001FFF 3 0 0 { live (stopped .none) [] [] with mem := [] })).ring = ring8 ∧
      (after .rbRead (withArgs 0x20001FFF 3 0 0 { live (stopped .none) [] [] with mem := [] })).err = .bus := by
  decide

/-- Vector RB-12. -/
theorem test_rbUsed :
    (after .rbUsed { live (stopped .none) [] [] with ring := { ring8 with wr := 2 } }).res.r0 = 7 := by decide

theorem test_rbFree :
    (after .rbFree { live (stopped .none) [] [] with ring := { ring8 with wr := 2 } }).res.r0 = 0 := by decide

/-- Vector RB-16. -/
theorem test_rbClear :
    (after .rbClear (live (stopped .none) [] [])).ring = { ring8 with rd := 0, wr := 0 } := by decide

/-- Vectors RB-20 and RB-20b. -/
theorem test_rbDestroy :
    (after .rbDestroy (live (started .ring) [] [])).err = .state ∧
      (after .rbDestroy (live (started .external) [] [])).ring = ⟨false, 0, 0, 0, []⟩ := by decide

/-- Table FIT-1, row 44100. -/
theorem test_fit :
    (after .fit (withArgs 44100 125000000 0 0 (blank [] []))).res = ⟨906, 50, 44101, 28396⟩ := by decide +kernel

/-- Table FIT-1, row 48000, on the whole range: the search stops early. -/
theorem test_fit_early : fit vcfg 48000 125000000 = some ⟨322, 129⟩ := by decide +kernel

/-- Vectors of 41_rate.md R135. -/
theorem test_rateSet :
    (after .rateSet (withArgs 20000 0 0 0 (blank [] []))).rateScale = 131072 ∧
      (after .rateSet (withArgs 3333 0 0 0 (blank [] []))).res.r0 = 21843 := by decide

/-- The example of 41_rate.md R136, and its corner case `N = 0`. -/
theorem test_rateApply :
    (after .rateApply (withArgs 44100 0 0 0 { blank [] [] with rateScale := 131072 })).res.r0 = 88200 ∧
      (after .rateApply (blank [] [])).res.r0 = 8000 := by decide

/-- Vector ENG-1. -/
theorem test_engInit :
    (after .engInit (withArgs 26 27 44100 2 (blank [] []))).sess = sess44 ∧
      (after .engInit (withArgs 26 27 44100 2 (blank [] []))).eng = stopped .none ∧
      (after .engInit (withArgs 26 27 44100 2 (blank [] []))).readReg 0x38 = 0x00021B1A := by decide +kernel

/-- Vectors ENG-3 and ENG-4. -/
theorem test_engInit_config :
    (after .engInit (withArgs 26 27 44100 3 (blank [] []))).statusWord = 2 ∧
      (after .engInit (withArgs 26 26 44100 2 (blank [] []))).statusWord = 2 := by decide

/-- Vectors ENG-10 and ENG-9. -/
theorem test_engSetprov :
    (after .engSetprov (withArgs 2 0 0 0 { live (stopped .none) [] [] with ring := Ring.absent })).statusWord = 0xA0 ∧
      (after .engSetprov (withArgs 3 0 0 0 (live (stopped .none) [] []))).err = .config := by decide

/-- The answers of vector ENG-15. -/
def answers15 : List Answer :=
  [⟨4, [⟨-32768, 32767⟩, ⟨0, 0⟩, ⟨16384, -16384⟩, ⟨32767, -32768⟩]⟩, ⟨2, [⟨1000, -1000⟩, ⟨2000, -2000⟩]⟩]

/-- The block before vector ENG-15's command. -/
def before15 : State :=
  { blank [] [] with
    sess := sess44
    eng := stopped .external
    env := { Env.empty with claim := [true], answers := answers15 } }

/-- Vector ENG-15. -/
theorem test_engStart :
    (after .engStart before15).eng = started .external ∧ (after .engStart before15).statusWord = 0xDA0 := by decide

/-- Vector ENG-13. -/
theorem test_engStart_resource :
    (after .engStart { before15 with env := { before15.env with claim := [false] } }).statusWord = 0xA4 := by decide

/-- Vector ENG-24. -/
theorem test_engStop :
    (after .engStop (live (handling .external) [] [])).statusWord = 0xB0 ∧
      (after .engStop (live (handling .external) [] [])).readReg 0x54 = 0x01C501C5 := by decide

/-- Vector ENG-27. -/
theorem test_engUnderruns : (after .engUnderruns (live (started .external) [] [])).res.r0 = 1 := by decide

/-- Vector ENG-27. -/
theorem test_engRate : (after .engRate (live (started .external) [] [])).res = ⟨44101, 28396, 0, 0⟩ := by decide

/-- Vectors ENG-17 and ENG-19. -/
theorem test_tick :
    (stepped (live (started .external) [.tick] [])).readReg 0x54 = 0x038A0000 ∧
      (stepped (live { started .external with dmaIdx := 3 } [.tick] [])).eng = completed .external := by decide

/-- Vector ENG-21. -/
theorem test_completion_entry :
    (stepped (live (completed .external) [.irq] [])).eng = handling .external := by decide

/-- Vector ENG-23. -/
theorem test_completion_fill :
    (stepped { live (handling .external) [.irq] [] with
        env := { Env.empty with sched := [.irq], answers := [⟨0, []⟩] } }).eng =
      { handling .external with
        inHandler := false
        buf0 := ⟨[481, 481, 481, 481], [425, 425, 425, 425]⟩
        underrun := 2 } := by decide

/-- Vector DRAIN-1. -/
theorem test_drain :
    (drainRing 4 { live (started .ring) [] [] with
        ring := ⟨true, 16, 14, 6, [0xFF, 0x7F, 0, 0, 0, 0, 1, 1, 1, 1, 1, 1, 1, 1, 0x00, 0x80]⟩ }).pcm =
      [⟨-32768, 32767⟩, ⟨0, 0⟩] := by decide

/-- Vector ENC-14: a write to RES0 is ignored. -/
theorem test_write_read_only :
    (stepped (blank [.host] [.write .w32 0x18 5])).res.r0 = 0 := by decide

/-- The expansion of `ENG.OPEN` (30_encoding.md R91). -/
theorem test_engOpen :
    (AsmLine.engOpen 44100 26 27 2).expand =
      [.write .w32 0x08 44100, .write .w32 0x00 0x12, .readTo rateName 0x18, .write .w32 0x08 26, .write .w32 0x0C 27,
        .writeKept rateName 0x10, .write .w32 0x14 2, .write .w32 0x00 0x20] := by decide

/-- A register read from another context between the `RD` and the `WR` of `ENG.OPEN` leaves the kept rate alone. -/
theorem test_engOpen_peek :
    (stepped (stepped (stepped { blank [.host, .peek 0x50, .host] [.readTo rateName 0x18, .writeKept rateName 0x10] with
        res := ⟨88200, 0, 0, 0⟩ }))).args.a2 = 88200 := by decide

/-! Witnesses: concrete states that meet the hypotheses of the statements. -/

/-- The ring of RB-11 with RB.WRITE two bytes in, one to go. -/
def writing (moved : Nat) (addr : Word) (turns : List Turn) : State :=
  { live (started .ring) turns [] with job := some ⟨.intoRing, addr, 7, 3, moved⟩ }

/-- The ring of RB-11 with RB.READ under way, `moved` of two bytes out. -/
def reading (moved : Nat) (addr : Word) (turns : List Turn) : State :=
  { live (started .external) turns [] with job := some ⟨.outOfRing, addr, 3, 2, moved⟩ }

theorem ring8_ok : ring8.Ok := by unfold Ring.Ok; decide

theorem levels_ok {l : List Level} {w : BitVec 16} (h : l.all (fun v => decide (v.toNat ≤ w.toNat)) = true) :
    levelsWithin w l := by
  intro v hv
  simpa using List.all_eq_true.mp h v hv

/-- `Inv` says nothing about the outside world. -/
theorem inv_world {s : State} (w : Env) (h : s.Inv) : ({ s with env := w } : State).Inv := h

/-- The achieved rate of vector ENG-1, from its wrap and divider. -/
theorem h44 : (44101 : Word) = (Fitted.mk 906 50).hz 125000000 ∧
    (28396 : BitVec 16) = (Fitted.mk 906 50).frac 125000000 := by decide

/-- `Inv` of the blocks built here, from facts that compute. -/
theorem live_inv (e : Engine) (j : Option RingJob) (hj : ({ live e [] [] with job := j } : State).JobOk)
    (he : ({ live e [] [] with job := j } : State).EngineOk)
    (hl : (e.buf0.left.length = 4 ∧ e.buf0.right.length = 4 ∧ e.buf1.left.length = 4 ∧ e.buf1.right.length = 4) ∧
      (e.buf0.left ++ e.buf0.right ++ e.buf1.left ++ e.buf1.right ++
        [e.last.left, e.last.right, e.out.left, e.out.right]).all (fun v => decide (v.toNat ≤ 906)) = true) :
    ({ live e [] [] with job := j } : State).Inv := by
  obtain ⟨⟨h1, h2, h3, h4⟩, h⟩ := hl
  simp only [List.all_append, Bool.and_eq_true] at h
  obtain ⟨⟨⟨⟨a, b⟩, c⟩, d⟩, o⟩ := h
  refine ⟨(by decide : tcfg.wf = true), (by decide : tmem.wf = true), ring8_ok, hj, ?_, he,
    ⟨⟨h1, h2, levels_ok a, levels_ok b⟩, ⟨h3, h4, levels_ok c, levels_ok d⟩, levels_ok o⟩⟩
  exact (if_pos rfl).mpr ⟨.inr rfl, Nat.le_of_ble_eq_true rfl, Nat.le_of_ble_eq_true rfl,
    fun _ => ⟨Nat.le_of_ble_eq_true rfl, Nat.le_of_ble_eq_true rfl, h44.1, h44.2⟩⟩

theorem witness_inv_stopped (turns : List Turn) (prog : List HostOp) : (live (stopped .ring) turns prog).Inv :=
  inv_world _ (live_inv (stopped .ring) none trivial (by unfold State.EngineOk; decide) (by decide))

theorem witness_inv_started (turns : List Turn) (prog : List HostOp) : (live (started .ring) turns prog).Inv :=
  inv_world _ (live_inv (started .ring) none trivial (by unfold State.EngineOk; decide) (by decide))

theorem witness_inv_completed (turns : List Turn) (prog : List HostOp) : (live (completed .ring) turns prog).Inv :=
  inv_world _ (live_inv (completed .ring) none trivial (by unfold State.EngineOk; decide) (by decide))

theorem started_ok (p : Prov) (h : p ≠ .none) : (live (started p) [] []).EngineOk := by
  cases p with
  | none => exact absurd rfl h
  | ring => unfold State.EngineOk; decide
  | external => unfold State.EngineOk; decide

theorem writing_inv (moved : Nat) (addr : Word) (turns : List Turn) (h : moved ≤ 3) : (writing moved addr turns).Inv :=
  inv_world _ (live_inv (started .ring) (some ⟨.intoRing, addr, 7, 3, moved⟩)
    ⟨rfl, h, rfl, Nat.le_of_ble_eq_true rfl⟩ (started_ok .ring (by decide)) (by decide))

theorem reading_inv (moved : Nat) (addr : Word) (turns : List Turn) (h : moved ≤ 2) : (reading moved addr turns).Inv :=
  inv_world _ (live_inv (started .external) (some ⟨.outOfRing, addr, 3, 2, moved⟩)
    ⟨rfl, h, rfl, Nat.le_of_ble_eq_true rfl, rfl⟩ (started_ok .external (by decide)) (by decide))

/-- UndecodableWordRaisesIllegal: each hypothesis at the edge of its range. -/
theorem witness_UndecodableWordRaisesIllegal :
    (0x00000100 : Word).extractLsb' 8 24 ≠ 0 ∧ (0x00000026 : Word).extractLsb' 0 8 ∉ listedOpcodes ∧
      (0x00000025 : Word).extractLsb' 8 24 = 0 ∧ (0x00000025 : Word).extractLsb' 0 8 ∈ listedOpcodes := by decide

/-- StepRunsTheDecodedCommand: one state per clause. -/
theorem witness_StepRunsTheDecodedCommand :
    decode 0x24 = .ok .engUnderruns ∧
      (∀ l ∈ [[Turn.host], [.phase], []], (live (started .ring) l [.write .w32 0 0x24]).job = none ∧
        (live (started .ring) l [.write .w32 0 0x24]).interruptEnabled = false ∧
        (live (started .ring) l [.write .w32 0 0x24]).env.sched = l) := by decide

/-- Its clause for a word that does not decode. -/
theorem witness_illegal_write :
    (0x00000026 : Word).extractLsb' 0 8 ∉ listedOpcodes ∧ (0x00000100 : Word).extractLsb' 8 24 ≠ 0 ∧
      (live (started .ring) [.host] [.write .w32 0 0x26]).interruptEnabled = false := by decide

theorem witness_PlacedWordRunsNext : decodeTableWord 32 0x25 = some .engRate := by decide

/-- The step runs a placed word as the first command after reset. -/
theorem test_placed_from_reset :
    (stepped (State.reset.withFetchWord 32 0x22)).err = .state ∧
      (stepped (State.reset.withFetchWord 32 0x08)).err = .illegal := by decide

theorem witness_ResetInputSetsEveryElement : (live (handling .ring) [.reset, .tick] []).env.sched = [.reset, .tick] :=
  rfl

theorem witness_RegisterWindowReads : 0x58 ≤ (0x58 : BitVec 8).toNat ∧ 0x58 ≤ (0xFC : BitVec 8).toNat := by decide

theorem witness_HostNext (op : HostOp) :
    (live (started .ring) [.host, .tick] [op]).HostNext [.tick] ∧
      (live (started .ring) [.host, .tick] [op]).env.host = [op] :=
  ⟨⟨rfl, by show (live (started .ring) [] []).interruptEnabled = false; decide, rfl⟩, rfl⟩

theorem witness_RegisterAccessEffects :
    (0x00 : BitVec 8).toNat % 4 = 0 ∧ (0xFC : BitVec 8).toNat % 4 = 0 ∧
      (blank [.peek 0xFC] []).env.sched = [.peek 0xFC] ∧ (0x04 : BitVec 8) ≠ 0 ∧ (0x04 : BitVec 8).toNat % 4 = 0 := by
  decide

/-- RegisterAccessEffects: a name that holds a value, and one that holds none. -/
theorem witness_names :
    (live (started .ring) [.host, .tick] [.readTo 3 0x4C]).HostNext [.tick] ∧
      ({ blank [] [] with env := { Env.empty with kept := [(3, 7)] } } : State).keptAs 3 = 7 ∧ (2 : Nat) ≠ 3 :=
  ⟨(witness_HostNext _).1, by decide, by decide⟩

/-- WindowAddressesRoundTrip: the first and the last address of the window, and those next to it. -/
theorem witness_WindowAddresses :
    [0x40000000, 0x400000FF, 0x40000100, 0x3FFFFFFF].map (windowOffset tcfg) = [some 0x00, some 0xFF, none, none] := by
  decide

theorem witness_SubWordAndMisalignedAccessRefused :
    Width.w8 ≠ .w32 ∧ Width.w16 ≠ .w32 ∧ (0x01 : BitVec 8).toNat % 4 ≠ 0 ∧ (0xFF : BitVec 8).toNat % 4 ≠ 0 := by decide

/-- RbInitAllocatesOrReports: one state per clause, ARG0 at the edges 1, 2, RB_MAX_BYTES and one more. -/
theorem witness_RbInitAllocatesOrReports :
    (live (stopped .none) [] []).ring.present = true ∧
      ((blank [] []).ring.present = false ∧ (withArgs 1 0 0 0 (blank [] [])).args.a0.toNat < 2) ∧
      (2 ≤ (withArgs 2 0 0 0 (blank [] [])).args.a0.toNat ∧ (blank [] []).allocOk 2 = true) ∧
      (blank [] []).allocOk 1048576 = true ∧ (blank [] []).cfg.rbMaxBytes < (1048577 : Word).toNat ∧
      ({ blank [] [] with env := { Env.empty with alloc := [false] } } : State).allocOk 2 = false := by decide

/-- RbWriteAppendsSourceBytes, with `acc` at its edges 3 (truncated) and 0. -/
theorem witness_RbWriteAppendsSourceBytes :
    (live (stopped .none) [] []).ring.Ok ∧ (live (stopped .none) [] []).ring.present = true ∧
      (live (stopped .none) [] []).env.phased = false ∧
      3 = min (5 : Word).toNat (ring8.cap.toNat - 1 - ring8.used) ∧
      0 = min (0 : Word).toNat (ring8.cap.toNat - 1 - ring8.used) ∧
      ∀ i < 3, admits tcfg ((0x20000010 : Word) + BitVec.ofNat 32 i) = true :=
  ⟨ring8_ok, by decide⟩

/-- The error cases of RB.WRITE and RB.READ: the first refused byte is byte 1 at 0x20002000. -/
theorem witness_bus_errors :
    (live (stopped .none) [] []).mem.wf = true ∧ (live (stopped .none) [] []).ring.Ok ∧
      (live (stopped .none) [] []).draining = false ∧ (live (stopped .none) [] []).env.phased = false ∧
      1 < min (5 : Word).toNat (ring8.cap.toNat - 1 - ring8.used) ∧ 1 < min (5 : Word).toNat ring8.used ∧
      (∀ i < 1, admits tcfg ((0x20001FFF : Word) + BitVec.ofNat 32 i) = true) ∧
      admits tcfg ((0x20001FFF : Word) + BitVec.ofNat 32 1) = false ∧ (blank [] []).ring.present = false :=
  ⟨by decide, ring8_ok, by decide⟩

theorem witness_RbReadRemovesOldestBytes :
    (live (stopped .none) [] []).mem.wf = true ∧ (live (stopped .none) [] []).ring.Ok ∧
      (live (stopped .none) [] []).draining = false ∧ 4 = min (100 : Word).toNat ring8.used ∧
      0 = min (0 : Word).toNat ring8.used ∧
      ∀ i < 4, admits tcfg ((0x20001000 : Word) + BitVec.ofNat 32 i) = true :=
  ⟨by decide, ring8_ok, by decide⟩

/-- The commands on a ring: none, one being drained, one not. -/
theorem witness_ring_cases :
    (blank [] []).ring.present = false ∧ Ring.absent.Ok ∧ ring8.Ok ∧
      (live (started .ring) [] []).draining = true ∧ (live (started .external) [] []).draining = false ∧
      ∃ t, exec .rbWrite (withArgs 0x20000010 5 0 0 (live { started .ring with running := false } [] [])) = .next t :=
  ⟨rfl, by unfold Ring.Ok; decide, ring8_ok, by decide, by decide, _, rfl⟩

/-- WritePhasesPublishAtTheEnd: a byte to copy, a byte refused, all copied. -/
theorem witness_WritePhases :
    (∀ s ∈ [writing 0 0x20000010 [.phase], writing 2 0x20001FFE [.phase], writing 3 0x20000010 [.phase]],
        s.interruptEnabled = false ∧ s.env.sched = [.phase]) ∧
      admits tcfg (0x20000010 + BitVec.ofNat 32 0) = true ∧
      admits tcfg (0x20001FFE + BitVec.ofNat 32 2) = false := by decide

/-- ReadPhasesPublishAtTheEnd: a byte to copy, a byte refused, all copied. -/
theorem witness_ReadPhases :
    (∀ s ∈ [reading 0 0x20001FFF [.phase], reading 1 0x20001FFF [.phase], reading 2 0x20001000 [.phase]],
        s.interruptEnabled = false ∧ s.env.sched = [.phase]) ∧
      admits tcfg (0x20001FFF + BitVec.ofNat 32 0) = true ∧
      admits tcfg (0x20001FFF + BitVec.ofNat 32 1) = false := by decide

/-- A ring command's SNAPSHOT on a phase turn. -/
theorem witness_phase_start :
    ({ live (stopped .ring) [] [] with env := { Env.empty with phased := true } } : State).draining = false ∧
      ({ live (stopped .ring) [] [] with env := { Env.empty with phased := true } } : State).ring.present = true := by
  decide

/-- OtherAgentsRespectTheRingCommand: a tick, a completion step and a peek while a write is in progress. -/
theorem witness_OtherAgents :
    (∃ t, step (writing 1 0x20000010 [.tick]) = .next t) ∧ (∃ t, step (writing 1 0x20000010 [.irq]) = .next t) ∧
      ∃ t, step (writing 1 0x20000010 [.peek 0x30]) = .next t :=
  ⟨⟨_, rfl⟩, ⟨_, rfl⟩, ⟨_, rfl⟩⟩

/-- FitFindsTheBestRate and its kin: an answer found by the whole search, one by its early end, and none. -/
theorem witness_fit :
    tcfg.wf = true ∧ fit tcfg 44100 125000000 = some ⟨906, 50⟩ ∧ fitClose tcfg 44100 125000000 ⟨906, 50⟩ = false ∧
      fit tcfg 32000 12800000 = none ∧ fit { tcfg with wrapMin := 320 } 48000 125000000 = some ⟨322, 129⟩ ∧
      fitClose tcfg 48000 125000000 ⟨322, 129⟩ = true := by decide +kernel

theorem witness_RateApply : (⌊((44100 : ℕ) : ℚ) * (131072 : ℕ) / 65536⌋ : ℤ) = 88200 := by norm_num

/-- FitCornerCases: rates at both ends of the ranges, the least and the greatest that fit among them. -/
theorem witness_FitCorners :
    tcfg.wf = true ∧ fit Config.platform 119 125000000 = none ∧
      fit Config.platform 488281 125000000 = some ⟨255, 16⟩ := by decide +kernel

/-- The tests of 41_rate.md R137 (c) at the worst rates, and at rates of table FIT-1 with and without an early stop. -/
theorem test_fit_audio :
    boundKept 44166 = true ∧ boundKept 46998 = true ∧ boundKept 8000 = true ∧ boundKept 48000 = true ∧
      stopsEarly 48000 = true ∧ stopsEarly 8000 = true ∧ stopsEarly 44100 = false ∧ stopsEarly 22050 = false := by
  decide +kernel

/-- The worst relative error of 41_rate.md R137 (c): its rate, wrap and divider. -/
theorem test_fit_worst : fit Config.platform 44166 125000000 = some ⟨1968, 23⟩ := by decide +kernel

/-- OnlyRateSetChangesTheScale: a RATE.SET, and a reset, that change it. -/
theorem witness_OnlyRateSet :
    (∃ t, step (withArgs 20000 0 0 0 (blank [.host] [.write .w32 0 0x11])) = .next t ∧ t.rateScale ≠ 65536) ∧
      ∃ t, step { blank [.reset] [] with rateScale := 131072 } = .next t ∧ t.rateScale ≠ 131072 :=
  ⟨⟨_, rfl, by decide⟩, ⟨_, rfl, by decide⟩⟩

/-- The premises of the two statements' host clause: a RATE.SET in each kind of the host's turn. -/
theorem witness_HostTurn :
    (blank [.host] []).HostTurn ∧ (blank [.phase, .tick] []).HostTurn ∧ (blank [] []).HostTurn ∧
      (blank [] [.write .w32 0 0x11]).Issues 0x11 ∧
      ({ blank [] [.writeKept 3 0] with env := { Env.empty with host := [.writeKept 3 0], kept := [(3, 0x11)] } } :
        State).Issues 0x11 :=
  ⟨.inr ⟨[], .inl rfl⟩, .inr ⟨[.tick], .inr rfl⟩, .inl rfl, ⟨rfl, [], .inl rfl⟩, ⟨rfl, [], .inr ⟨3, rfl, rfl⟩⟩⟩

/-- The level map: wraps at both ends, one odd and one even, samples at the ends. -/
theorem witness_LevelMap :
    (0 ≤ 65535 ∧ 0 % 2 = 0) ∧ (65535 ≤ 65535 ∧ 65535 % 2 = 1) ∧ (-32768 : Sample).toInt < (32767 : Sample).toInt := by
  decide

/-- EngInitConfiguresTheSession, for one and for two channels. -/
theorem witness_EngInit :
    (blank [] []).cfg.wf = true ∧ (blank [] []).eng.running = false ∧
      ((26 : Word).toNat, (27 : Word).toNat) ∈ (blank [] []).cfg.pins ∧
      fit (blank [] []).cfg (44100 : Word).toNat (blank [] []).cfg.sysClkHz = some ⟨906, 50⟩ ∧
      (453 : Level).toNat = (906 + 1) / 2 := by decide +kernel

/-- EngInitErrorsKeepTheSession: running, and each ERR_CONFIG condition. -/
theorem witness_EngInitErrors :
    (live (started .ring) [] []).eng.running = true ∧ (0 : Word) ≠ 1 ∧ (0 : Word) ≠ 2 ∧ (3 : Word) ≠ 1 ∧ (3 : Word) ≠ 2 ∧
      ((26 : Word).toNat, (26 : Word).toNat) ∉ tcfg.pins ∧ fit tcfg (0 : Word).toNat tcfg.sysClkHz = none := by decide

/-- EngSetprovRegistersTheProvider: the states of its clauses, ARG0 at 0, 2 and 3. -/
theorem witness_EngSetprov :
    (live (started .ring) [] []).eng.running = true ∧ (blank [] []).sess.configured = false ∧
      (live (stopped .none) [] []).eng.running = false ∧ (live (stopped .none) [] []).sess.configured = true ∧
      2 < (3 : Word).toNat ∧ (0 : Word).toNat = Prov.none.code.toNat ∧ (1 : Word).toNat = Prov.ring.code.toNat ∧
      (2 : Word).toNat = Prov.external.code.toNat := by decide

/-- EngStartPrefillsThenEnables and its errors. -/
theorem witness_EngStart :
    (before15.eng.running = false ∧ before15.sess.configured = true ∧ before15.eng.prov ≠ .none ∧
        before15.claimOk = true) ∧
      ({ before15 with env := { before15.env with claim := [false] } } : State).claimOk = false ∧
      (live (stopped .none) [] []).eng.prov = .none := by decide

/-- EngUnderrunsReadsTheCounter and EngRateReadsTheAchievedRate: a block before any ENG.INIT. -/
theorem witness_inv_blank : (blank [] []).Inv ∧ (blank [] []).sess.configured = false ∧ tcfg.d16Max ≤ 4095 :=
  ⟨⟨by decide, by decide, by unfold Ring.Ok; decide, trivial, by unfold State.SessionOk; decide,
      by unfold State.EngineOk; decide,
      ⟨⟨rfl, rfl, levels_ok rfl, levels_ok rfl⟩, ⟨rfl, rfl, levels_ok rfl, levels_ok rfl⟩, levels_ok rfl⟩⟩,
    rfl, by decide⟩

theorem witness_EngStop :
    (453 : Level).toNat = ((live (started .ring) [] []).sess.wrap.toNat + 1) / 2 ∧
      (0 : Level).toNat = ((blank [] []).sess.wrap.toNat + 1) / 2 ∧ (blank [] []).sess.configured = false := by decide

/-- FillConvertsAndPads: a full batch, a short one and an empty one. -/
theorem witness_Fill :
    ((4 : ℤ) = min (max (request 4 before15).count 0) 4 ∧
      (2 : ℤ) = min (max (request 4 { before15 with env := { before15.env with answers := answers15.tail } }).count 0) 4) ∧
      (0 : ℤ) = min (max (request 4 (blank [] [])).count 0) 4 ∧ before15.cfg.batch = 4 := by decide

/-- DrainTakesWholeFramesInOrder: the ring of RB-11 holds one whole stereo frame. -/
theorem witness_Drain :
    (live (started .ring) [] []).ring.Ok ∧ sess44.nch = 2 ∧ 4 = 2 * sess44.nch.toNat ∧ 1 = min 4 (ring8.used / 4) ∧
      Ring.absent.Ok ∧ 0 = min 4 (Ring.absent.used / 4) :=
  ⟨ring8_ok, by decide, by decide, by decide, by unfold Ring.Ok; decide, by decide⟩

theorem witness_Provider :
    (blank [] []).eng.prov = .none ∧ before15.eng.prov = .external ∧ before15.env.answers = answers15 ∧
      (live (stopped .external) [] []).env.answers = [] := by decide

/-- TickPlaysOneElement: the first and the last element, a gap tick, and an output that is off. -/
theorem witness_Tick :
    (((started .external).bank (started .external).playIdx).left[0]? = some 0 ∧
      ((started .external).bank (started .external).playIdx).right[3]? = some 0) ∧
      (started .external).outEn = true ∧ (started .external).armed = true ∧ (completed .external).armed = false ∧
      (stopped .external).outEn = false := by decide

/-- The completion steps. -/
theorem witness_Completion :
    ((completed .ring).irqPend = true ∧ (completed .ring).running = true ∧ (completed .ring).inHandler = false) ∧
      (started .ring).irqPend = false ∧ (handling .ring).inHandler = true ∧
      (live (completed .ring) [.host] []).interruptEnabled = true := by decide

/-- The host waits three steps here: the fill in progress, then the next completion's two. -/
theorem witness_HostWaits :
    (live { handling .ring with armed := false, irqPend := true } [.host] []).interruptEnabled = true ∧
      (stepped (live { handling .ring with armed := false, irqPend := true } [.host] [])).interruptEnabled = true := by
  decide

theorem witness_TickAndEntry :
    ((completed .ring).bank (completed .ring).playIdx.other).left[0]? = some 467 ∧
      ((completed .ring).bank (completed .ring).playIdx.other).right[0]? = some 439 := by decide

/-- Commands that end in an error, ERR_BUS among them. -/
theorem witness_Errors :
    (∃ t, exec .rbRead (blank [] []) = .next t ∧ t.err ≠ .ok) ∧
      ∃ t, exec .rbRead (withArgs 0x20001FFF 3 0 0 (live (stopped .none) [] [])) = .next t ∧ t.err = .bus ∧
        t.mem ≠ tmem :=
  ⟨⟨_, rfl, by decide⟩, ⟨_, rfl, by decide⟩⟩

/-- Steps that change system memory: RB.READ's and the platform's. -/
theorem witness_OnlyRbRead :
    (∃ t, step (withArgs 0x20000000 3 0 0 (live (stopped .none) [.host] [.write .w32 0 0x03])) = .next t ∧
        t.mem ≠ tmem) ∧
      ∃ t, step (live (stopped .none) [.platform 0xFFFFFFFF 0] []) = .next t ∧ t.mem ≠ tmem :=
  ⟨⟨_, rfl, by decide⟩, ⟨_, rfl, by decide⟩⟩

/-- A step of a running engine; its invariant is `witness_inv_started`. -/
theorem witness_steps :
    (∃ t, step (live (started .ring) [.tick] []) = .next t) ∧
      (live (started .ring) [.tick] []).eng.running = true ∧
      ∀ rest, (live (started .ring) [.tick] []).env.sched ≠ .reset :: rest :=
  ⟨⟨_, rfl⟩, rfl, by intro rest h; cases h⟩

/-- Two states that differ in the byte of the ring nobody has written. -/
theorem witness_SameVisible :
    (live (stopped .ring) [] []).SameVisible
      { live (stopped .ring) [] [] with ring := { ring8 with bytes := [0, 0, 0, 0xA4, 0xA5, 0xA6, 0xA7, 9] } } :=
  ⟨rfl, rfl, by decide, rfl⟩

end Sys2Proof.Tests
end

namespace Sys2Proof.Machine

/-! The hidden part of the ring storage: what it means that two states differ there alone. -/

/-- The ring with other storage. -/
def Ring.withBytes (r : Ring) (bs : List Byte) : Ring := { r with bytes := bs }

/-- The state with other ring storage: all that `State.SameVisible` lets differ. -/
def State.withBytes (s : State) (bs : List Byte) : State := { s with ring := s.ring.withBytes bs }

@[simp] theorem withBytes_rd (r : Ring) (bs : List Byte) : (r.withBytes bs).rd = r.rd := rfl
@[simp] theorem withBytes_bytes (r : Ring) (bs : List Byte) : (r.withBytes bs).bytes = bs := rfl
@[simp] theorem withBytes_used (r : Ring) (bs : List Byte) : (r.withBytes bs).used = r.used := rfl
@[simp] theorem withBytes_ring (s : State) (bs : List Byte) : (s.withBytes bs).ring = s.ring.withBytes bs := rfl
@[simp] theorem withBytes_job (s : State) (bs : List Byte) : (s.withBytes bs).job = s.job := rfl

/-- Two rings hold the same bytes at the `n` places from cursor `c` on. -/
def Ring.AgreeAt (r r' : Ring) (c : Word) (n : Nat) : Prop := ∀ i < n, r'.byteAt c i = r.byteAt c i

theorem State.SameVisible.eq_withBytes {s s' : State} (h : s.SameVisible s') : ∃ bs, s' = s.withBytes bs :=
  ⟨s'.ring.bytes, h.1⟩

theorem State.SameVisible.refl (s : State) : s.SameVisible s := ⟨rfl, rfl, rfl, rfl⟩

/-- The waiting bytes are the same exactly when the storage agrees on the used places. -/
theorem content_withBytes_iff {r : Ring} {bs : List Byte} :
    (r.withBytes bs).content = r.content ↔ r.AgreeAt (r.withBytes bs) r.rd r.used := by
  simp [Ring.content, Ring.AgreeAt, List.map_inj_left]

/-- A write in progress has the same bytes exactly when the storage agrees on the places it has copied to. -/
theorem unpublished_withBytes_iff {s : State} {bs : List Byte} :
    (s.withBytes bs).unpublished = s.unpublished ↔
      ∀ j, s.job = some j → j.dir = .intoRing → s.ring.AgreeAt (s.ring.withBytes bs) j.cur j.moved := by
  unfold State.unpublished
  rw [withBytes_job, withBytes_ring]
  cases s.job with
  | none => simp
  | some j => cases hd : j.dir <;> simp [hd, Ring.AgreeAt, List.map_inj_left]

theorem sameVisible_withBytes_iff {s : State} {bs : List Byte} :
    s.SameVisible (s.withBytes bs) ↔
      bs.length = s.ring.bytes.length ∧ s.ring.AgreeAt (s.ring.withBytes bs) s.ring.rd s.ring.used ∧
        ∀ j, s.job = some j → j.dir = .intoRing → s.ring.AgreeAt (s.ring.withBytes bs) j.cur j.moved := by
  rw [← content_withBytes_iff, ← unpublished_withBytes_iff]
  exact ⟨fun ⟨_, h⟩ => h, fun h => ⟨rfl, h⟩⟩

/-- An update that leaves the ring and the command in progress alone, made on both states, hides what they hid. -/
theorem State.SameVisible.update {s s' t t' : State} (h : s.SameVisible s') (hr : t.ring = s.ring)
    (hj : t.job = s.job) (ht : t' = { t with ring := s'.ring }) : t.SameVisible t' := by
  obtain ⟨bs, rfl⟩ := h.eq_withBytes
  obtain rfl : t' = t.withBytes bs := by rw [ht, withBytes_ring, ← hr]; rfl
  rw [sameVisible_withBytes_iff] at h ⊢
  rwa [hr, hj]

theorem ringOk_withBytes {r : Ring} {bs : List Byte} (h : r.Ok) (hl : bs.length = r.bytes.length) :
    (r.withBytes bs).Ok := by
  cases hp : r.present with
  | true =>
    have := ringOk_present h hp
    simp [Ring.Ok, Ring.withBytes, hp, this, hl]
  | false =>
    obtain rfl := ringOk_absent h hp
    obtain rfl : bs = [] := List.eq_nil_of_length_eq_zero hl
    exact h

/-- With no ring there is no storage to hide anything in. -/
theorem State.SameVisible.eq_of_absent {s s' : State} (h : s.SameVisible s') (hok : s.ring.Ok)
    (hp : s.ring.present = false) : s' = s := by
  obtain ⟨bs, rfl⟩ := h.eq_withBytes
  have hr := ringOk_absent hok hp
  have hbs : bs = s.ring.bytes := by
    rw [hr]
    exact List.eq_nil_of_length_eq_zero (by simpa [hr, Ring.absent] using h.2.1)
  rw [hbs]; rfl

/-! One byte stored into both rings. -/

theorem getD_set_congr {l l' : List Byte} {k p : Nat} (b : Byte) (hl : l'.length = l.length)
    (h : p ≠ k → l'.getD p 0 = l.getD p 0) : (l'.set k b).getD p 0 = (l.set k b).getD p 0 := by
  by_cases hp : p = k
  · subst hp
    simp [List.getElem?_set, hl]
  · simpa [List.getElem?_set_ne (Ne.symm hp)] using h hp

/-- The same byte stored at the same place keeps agreement anywhere. -/
theorem agreeAt_putAt {r : Ring} {bs : List Byte} {d : Word} {n : Nat} (hl : bs.length = r.bytes.length)
    (h : r.AgreeAt (r.withBytes bs) d n) (c : Word) (m : Nat) (b : Byte) :
    (r.putAt c m b).AgreeAt ((r.withBytes bs).putAt c m b) d n :=
  fun i hi => getD_set_congr b hl (fun _ => h i hi)

/-- The same byte stored at the next place extends the agreement by that place. -/
theorem agreeAt_putAt_succ {r : Ring} {bs : List Byte} {c : Word} {n : Nat} (hl : bs.length = r.bytes.length)
    (h : r.AgreeAt (r.withBytes bs) c n) (b : Byte) :
    (r.putAt c n b).AgreeAt ((r.withBytes bs).putAt c n b) c (n + 1) := by
  intro i hi
  refine getD_set_congr b hl (fun hne => h i ?_)
  have : i ≠ n := fun e => hne (by rw [e]; rfl)
  omega

@[simp] theorem smear_rd (r : Ring) (c : Word) (d n : Nat) : (r.smear c d n).rd = r.rd := by
  rw [(smear_frame r c d n).1]

@[simp] theorem smear_used (r : Ring) (c : Word) (d n : Nat) : (r.smear c d n).used = r.used := by
  rw [(smear_frame r c d n).1]; rfl

/-- The same free values stored into both rings keep agreement anywhere. -/
theorem smear_withBytes {r : Ring} {bs : List Byte} {e : Word} {k : Nat} (hl : bs.length = r.bytes.length)
    (h : r.AgreeAt (r.withBytes bs) e k) (c : Word) (d n : Nat) :
    ∃ cs, (r.withBytes bs).smear c d n = (r.smear c d n).withBytes cs ∧
      cs.length = (r.smear c d n).bytes.length ∧
      (r.smear c d n).AgreeAt ((r.smear c d n).withBytes cs) e k := by
  induction n with
  | zero => exact ⟨bs, rfl, hl, h⟩
  | succ n ih =>
    obtain ⟨cs, hs, hcl, hag⟩ := ih
    have hput := agreeAt_putAt hcl hag c n (Config.freeByte (d + n))
    refine ⟨cs.set ((r.smear c d n).slot c n) (Config.freeByte (d + n)), ?_, ?_, hput⟩
    · rw [Ring.smear, hs]; rfl
    · simpa [Ring.smear] using hcl

/-! A ring command in progress keeps its bounds, phase by phase. -/

theorem jobOk_idle {s : State} (h : s.job = none) : s.JobOk := by simp [State.JobOk, h]

theorem jobOk_intoRing {s : State} {j : RingJob} (hj : s.job = some j) (hd : j.dir = .intoRing) :
    s.JobOk ↔ s.ring.present = true ∧ j.moved ≤ j.total ∧ j.cur = s.ring.wr ∧ j.total ≤ s.ring.free := by
  simp [State.JobOk, hj, hd]

theorem jobOk_outOfRing {s : State} {j : RingJob} (hj : s.job = some j) (hd : j.dir = .outOfRing) :
    s.JobOk ↔ s.ring.present = true ∧ j.moved ≤ j.total ∧ j.cur = s.ring.rd ∧ j.total ≤ s.ring.used ∧
      s.draining = false := by
  simp [State.JobOk, hj, hd]

/-- A ring command in progress has a ring. -/
theorem jobOk_present {s : State} {j : RingJob} (h : s.JobOk) (hj : s.job = some j) : s.ring.present = true := by
  unfold State.JobOk at h
  rw [hj] at h
  exact h.1

theorem smear_ok {r : Ring} (h : r.Ok) (c : Word) (d n : Nat) : (r.smear c d n).Ok := by
  rw [(smear_frame r c d n).1]
  exact ringOk_withBytes h (smear_frame r c d n).2

/-- A phase of a ring command keeps the ring's cursors and storage, and the command's own bounds. -/
theorem ringPhase_ok {s : State} {j : RingJob} (hok : s.ring.Ok) (hjob : s.JobOk) (hj : s.job = some j) :
    (ringPhase j s).ring.Ok ∧ (ringPhase j s).JobOk := by
  have hp := jobOk_present hjob hj
  unfold ringPhase
  cases hd : j.dir with
  | intoRing =>
    obtain ⟨_, _, hcur, htot⟩ := (jobOk_intoRing hj hd).mp hjob
    by_cases hm : j.moved < j.total
    · simp only [hm, if_true]
      unfold copyIn
      split
      · exact ⟨putAt_ok hok _ _ _ hp,
          (jobOk_intoRing (j := { j with moved := j.moved + 1 }) rfl hd).mpr ⟨hp, hm, hcur, htot⟩⟩
      · exact ⟨smear_ok hok _ _ _, jobOk_idle rfl⟩
    · simp only [hm, if_false]
      exact ⟨(advance_ok hok hp j.cur j.cur j.total j.total).2, jobOk_idle rfl⟩
  | outOfRing =>
    obtain ⟨_, _, hcur, htot, hdr⟩ := (jobOk_outOfRing hj hd).mp hjob
    by_cases hm : j.moved < j.total
    · simp only [hm, if_true]
      unfold copyOut
      split
      · exact ⟨hok,
          (jobOk_outOfRing (j := { j with moved := j.moved + 1 }) rfl hd).mpr ⟨hp, hm, hcur, htot, hdr⟩⟩
      · exact ⟨hok, jobOk_idle rfl⟩
    · simp only [hm, if_false]
      exact ⟨(advance_ok hok hp j.cur j.cur j.total j.total).1, jobOk_idle rfl⟩

/-! What the phases of a ring command make of two states that differ in hidden bytes. -/

theorem copyIn_admitted {j : RingJob} {s : State} (h : admits s.cfg (busByte j.addr j.moved) = true) :
    copyIn j s = { s with
      ring := s.ring.putAt j.cur j.moved (s.mem.read (busByte j.addr j.moved).toNat)
      job := some { j with moved := j.moved + 1 } } := if_pos h

theorem copyIn_refused {j : RingJob} {s : State} (h : ¬ admits s.cfg (busByte j.addr j.moved) = true) :
    copyIn j s = { s with
      err := .bus
      ring := s.ring.smear j.cur s.env.drawn j.moved
      job := none
      env := { s.env with drawn := s.env.drawn + j.moved } } := if_neg h

/-- COPY of RB.WRITE: both rings get the same byte, or on ERR_BUS the same free values. -/
theorem copyIn_sameVisible {s s' : State} {j : RingJob} (hj : s.job = some j) (hd : j.dir = .intoRing)
    (hv : s.SameVisible s') : (copyIn j s).SameVisible (copyIn j s') := by
  obtain ⟨bs, rfl⟩ := hv.eq_withBytes
  obtain ⟨hl, hused, hmoved⟩ := sameVisible_withBytes_iff.mp hv
  by_cases ha : admits s.cfg (busByte j.addr j.moved) = true
  · have e : copyIn j (s.withBytes bs) = (copyIn j s).withBytes
        (bs.set (s.ring.slot j.cur j.moved) (s.mem.read (busByte j.addr j.moved).toNat)) := by
      rw [copyIn_admitted ha, copyIn_admitted (s := s.withBytes bs) ha]; rfl
    rw [e, sameVisible_withBytes_iff, copyIn_admitted ha]
    refine ⟨by simpa using hl, agreeAt_putAt hl hused _ _ _, ?_⟩
    rintro _ ⟨rfl⟩ _
    exact agreeAt_putAt_succ hl (hmoved j hj hd) _
  · obtain ⟨cs, hs, hcl, hag⟩ := smear_withBytes hl hused j.cur s.env.drawn j.moved
    have e : copyIn j (s.withBytes bs) = (copyIn j s).withBytes cs := by
      rw [copyIn_refused ha, copyIn_refused (s := s.withBytes bs) ha, withBytes_ring]
      exact congrArg (fun r : Ring => ({ s with
        err := .bus
        ring := r
        job := none
        env := { s.env with drawn := s.env.drawn + j.moved } } : State)) hs
    rw [e, sameVisible_withBytes_iff, copyIn_refused ha]
    refine ⟨hcl, ?_, by simp⟩
    simpa using hag

/-- COPY of RB.READ: the byte it takes is a waiting one, so it is the same in both rings. -/
theorem copyOut_sameVisible {s s' : State} {j : RingJob} (hcur : j.cur = s.ring.rd) (hused : j.moved < s.ring.used)
    (hd : j.dir = .outOfRing) (hv : s.SameVisible s') : (copyOut j s).SameVisible (copyOut j s') := by
  obtain ⟨bs, rfl⟩ := hv.eq_withBytes
  obtain ⟨hl, hag, _⟩ := sameVisible_withBytes_iff.mp hv
  have hb : (s.ring.withBytes bs).byteAt j.cur j.moved = s.ring.byteAt j.cur j.moved := by
    rw [hcur]; exact hag _ hused
  have e : copyOut j (s.withBytes bs) = (copyOut j s).withBytes bs := by
    unfold copyOut
    rw [withBytes_ring, hb, apply_ite (State.withBytes · bs)]
    rfl
  rw [e, sameVisible_withBytes_iff]
  unfold copyOut
  split
  · refine ⟨hl, hag, ?_⟩
    rintro _ ⟨rfl⟩ hd'
    simp [hd] at hd'
  · exact ⟨hl, hag, by simp⟩

/-- PUBLISH of RB.WRITE: the bytes copied in, the same in both rings, join the waiting ones. -/
theorem publishIn_sameVisible {s s' : State} {j : RingJob} (hok : s.ring.Ok) (hjob : s.JobOk) (hj : s.job = some j)
    (hd : j.dir = .intoRing) (hm : ¬ j.moved < j.total) (hv : s.SameVisible s') :
    (publishIn j s).SameVisible (publishIn j s') := by
  obtain ⟨hp, hle, hcur, htot⟩ := (jobOk_intoRing hj hd).mp hjob
  obtain ⟨bs, rfl⟩ := hv.eq_withBytes
  obtain ⟨hl, hused, hmoved⟩ := sameVisible_withBytes_iff.mp hv
  refine ⟨rfl, hl, ?_, rfl⟩
  show ({ s.ring.withBytes bs with wr := s.ring.advance j.cur j.total } : Ring).content =
    ({ s.ring with wr := s.ring.advance j.cur j.total } : Ring).content
  rw [hcur]
  calc _ = (s.ring.withBytes bs).content ++ (List.range j.total).map ((s.ring.withBytes bs).byteAt s.ring.wr) :=
        content_publish (r := s.ring.withBytes bs) (ringOk_withBytes hok hl) hp htot
    _ = s.ring.content ++ (List.range j.total).map (s.ring.byteAt s.ring.wr) := by
        have hbytes := hmoved j hj hd
        rw [hcur, show j.moved = j.total by omega] at hbytes
        rw [content_withBytes_iff.mpr hused]
        exact congrArg _ (List.map_congr_left (fun i hi => hbytes i (List.mem_range.mp hi)))
    _ = _ := (content_publish hok hp htot).symm

/-- The read cursor moved over waiting bytes leaves the others, the same in both rings. -/
theorem content_consume_congr {r : Ring} {bs : List Byte} {n : Nat} (hok : r.Ok) (hp : r.present = true)
    (hn : n ≤ r.used) (hl : bs.length = r.bytes.length) (hc : (r.withBytes bs).content = r.content) :
    ({ r.withBytes bs with rd := r.advance r.rd n } : Ring).content =
      ({ r with rd := r.advance r.rd n } : Ring).content :=
  calc _ = (r.withBytes bs).content.drop n :=
        content_consume (r := r.withBytes bs) (ringOk_withBytes hok hl) hp hn
    _ = r.content.drop n := by rw [hc]
    _ = _ := (content_consume hok hp hn).symm

/-- PUBLISH of RB.READ. -/
theorem publishOut_sameVisible {s s' : State} {j : RingJob} (hok : s.ring.Ok) (hp : s.ring.present = true)
    (hcur : j.cur = s.ring.rd) (htot : j.total ≤ s.ring.used) (hv : s.SameVisible s') :
    (publishOut j s).SameVisible (publishOut j s') := by
  obtain ⟨bs, rfl⟩ := hv.eq_withBytes
  obtain ⟨_, hl, hc, _⟩ := hv
  refine ⟨rfl, hl, ?_, rfl⟩
  have h := content_consume_congr hok hp htot hl hc
  rw [← hcur] at h
  exact h

theorem ringPhase_sameVisible {s s' : State} {j : RingJob} (hok : s.ring.Ok) (hjob : s.JobOk)
    (hj : s.job = some j) (hv : s.SameVisible s') : (ringPhase j s).SameVisible (ringPhase j s') := by
  unfold ringPhase
  cases hd : j.dir with
  | intoRing =>
    by_cases hm : j.moved < j.total
    · simpa only [hm, if_true] using copyIn_sameVisible hj hd hv
    · simpa only [hm, if_false] using publishIn_sameVisible hok hjob hj hd hm hv
  | outOfRing =>
    obtain ⟨hp, _, hcur, htot, _⟩ := (jobOk_outOfRing hj hd).mp hjob
    by_cases hm : j.moved < j.total
    · simpa only [hm, if_true] using copyOut_sameVisible hcur (by omega) hd hv
    · simpa only [hm, if_false] using publishOut_sameVisible hok hp hcur htot hv

theorem State.SameVisible.job_eq {s s' : State} (h : s.SameVisible s') : s'.job = s.job := by
  rw [h.1]

theorem State.SameVisible.env_eq {s s' : State} (h : s.SameVisible s') : s'.env = s.env := by
  rw [h.1]

theorem ringRun_sameVisible {n : Nat} {s s' : State} (hok : s.ring.Ok) (hjob : s.JobOk) (hv : s.SameVisible s') :
    (ringRun n s).SameVisible (ringRun n s') := by
  induction n generalizing s s' with
  | zero => exact hv
  | succ n ih =>
    unfold ringRun
    rw [hv.job_eq]
    cases hj : s.job with
    | none => exact hv
    | some j =>
      obtain ⟨hok', hjob'⟩ := ringPhase_ok hok hjob hj
      exact ih hok' hjob' (ringPhase_sameVisible hok hjob hj hv)

theorem ringResume_sameVisible {s s' : State} {j : RingJob} (hok : s.ring.Ok) (hjob : s.JobOk)
    (hj : s.job = some j) (hv : s.SameVisible s') : (ringResume j s).SameVisible (ringResume j s') := by
  unfold ringResume
  rw [hv.env_eq]
  split
  · exact ringPhase_sameVisible hok hjob hj hv
  · exact ringRun_sameVisible hok hjob hv

/-! The providers and the fill routine read waiting bytes only. -/

/-- The frames the ring-drain provider takes lie within the waiting bytes, whatever the channel count. -/
theorem drainCount_bytes_le (max : Nat) (s : State) :
    s.drainCount max * frameBytes s.sess.nch.toNat ≤ s.ring.used :=
  Nat.mul_le_of_le_div _ _ _ (Nat.min_le_right _ _)

theorem sampleAt_congr {r : Ring} {bs : List Byte} {off : Nat} (h : r.AgreeAt (r.withBytes bs) r.rd r.used)
    (ho : off + 1 < r.used) : (r.withBytes bs).sampleAt off = r.sampleAt off := by
  simp only [Ring.sampleAt, withBytes_rd, h off (by omega), h (off + 1) ho]

theorem frameAt_congr {s : State} {bs : List Byte} {max i : Nat}
    (h : s.ring.AgreeAt (s.ring.withBytes bs) s.ring.rd s.ring.used) (hi : i < s.drainCount max) :
    (s.ring.withBytes bs).frameAt s.sess.nch i = s.ring.frameAt s.sess.nch i := by
  have hle := drainCount_bytes_le max s
  have hend : frameBytes s.sess.nch.toNat * i + frameBytes s.sess.nch.toNat ≤ s.ring.used :=
    calc _ = (i + 1) * frameBytes s.sess.nch.toNat := by ring
      _ ≤ s.drainCount max * frameBytes s.sess.nch.toNat := Nat.mul_le_mul_right _ hi
      _ ≤ s.ring.used := hle
  have hpos : s.sess.nch.toNat ≠ 0 := by
    intro h0
    simp [State.drainCount, h0, frameBytes] at hi
  have hfirst := sampleAt_congr h (off := frameBytes s.sess.nch.toNat * i) (by unfold frameBytes at *; omega)
  unfold Ring.frameAt
  split
  · rename_i h2
    have hsecond := sampleAt_congr h (off := frameBytes s.sess.nch.toNat * i + 2)
      (by simp only [h2, frameBytes] at *; simp at *; omega)
    simp only [hfirst, hsecond]
  · simp only [hfirst]

/-- The ring-drain provider answers the same frames, and takes them from both rings. -/
theorem drainRing_sameVisible {max : Nat} {s s' : State} (hok : s.ring.Ok) (hv : s.SameVisible s') :
    (drainRing max s').count = (drainRing max s).count ∧ (drainRing max s').pcm = (drainRing max s).pcm ∧
      (drainRing max s).after.SameVisible (drainRing max s').after := by
  cases hp : s.ring.present with
  | false => rw [hv.eq_of_absent hok hp]; exact ⟨rfl, rfl, .refl _⟩
  | true =>
    obtain ⟨bs, rfl⟩ := hv.eq_withBytes
    have hag := (sameVisible_withBytes_iff.mp hv).2.1
    obtain ⟨_, hl, hc, hu⟩ := hv
    have hp' : (s.withBytes bs).ring.present = true := hp
    unfold drainRing
    rw [if_pos hp, if_pos hp']
    refine ⟨rfl, List.map_congr_left (fun i hi => frameAt_congr hag (List.mem_range.mp hi)), rfl, hl, ?_, hu⟩
    exact content_consume_congr hok hp (drainCount_bytes_le max s) hl hc

theorem request_sameVisible {max : Nat} {s s' : State} (hok : s.ring.Ok) (hv : s.SameVisible s') :
    (request max s').count = (request max s).count ∧ (request max s').pcm = (request max s).pcm ∧
      (request max s).after.SameVisible (request max s').after := by
  obtain ⟨bs, rfl⟩ := hv.eq_withBytes
  unfold request
  rw [show (s.withBytes bs).eng = s.eng from rfl]
  cases s.eng.prov with
  | none => exact ⟨rfl, rfl, hv⟩
  | ring => exact drainRing_sameVisible hok hv
  | external => exact ⟨rfl, rfl, hv.update rfl rfl rfl⟩

/-- A provider moves RB_RD inside the ring, so the ring stays a ring. -/
theorem request_ringOk {max : Nat} {s : State} (hok : s.ring.Ok) : (request max s).after.ring.Ok := by
  unfold request
  cases s.eng.prov with
  | none => exact hok
  | external => exact hok
  | ring =>
    show (drainRing max s).after.ring.Ok
    unfold drainRing
    split
    · rename_i hp
      exact (advance_ok hok hp s.ring.rd s.ring.rd _ 0).1
    · exact hok

/-- What a fill makes of the engine depends on the provider's answer, the session and the engine alone. -/
theorem fill_eng_congr {s s' : State} {bs : List Byte} (b : Slot) (hs : s' = s.withBytes bs)
    (hcount : (request s.cfg.batch s').count = (request s.cfg.batch s).count)
    (hpcm : (request s.cfg.batch s').pcm = (request s.cfg.batch s).pcm) : (fill b s').eng = (fill b s).eng := by
  have hcfg : s'.cfg = s.cfg := by rw [hs]; rfl
  have heng : s'.eng = s.eng := by rw [hs]; rfl
  have hsess : s'.sess = s.sess := by rw [hs]; rfl
  have hk : fillCount s' = fillCount s := by unfold fillCount; rw [hcfg, hcount]
  have hlefts : fillLefts s' = fillLefts s := by unfold fillLefts; rw [hk, hcfg, hpcm, hsess]
  have hrights : fillRights s' = fillRights s := by unfold fillRights; rw [hk, hcfg, hpcm, hsess]
  have hlast : fillLast s' = fillLast s := by unfold fillLast; rw [hlefts, hrights, heng]
  have hunder : fillUnderrun s' = fillUnderrun s := by unfold fillUnderrun; rw [hk, hcfg, heng]
  have hbank : fillBank s' = fillBank s := by unfold fillBank; rw [hlefts, hrights, hlast, hk, hcfg]
  rw [fill_eng, fill_eng, heng, hlast, hunder, hbank]

theorem fill_sameVisible {s s' : State} (b : Slot) (hok : s.ring.Ok) (hv : s.SameVisible s') :
    (fill b s).SameVisible (fill b s') := by
  obtain ⟨hcount, hpcm, hafter⟩ := request_sameVisible (max := s.cfg.batch) hok hv
  obtain ⟨bs, hs⟩ := hv.eq_withBytes
  have heng := fill_eng_congr b hs hcount hpcm
  have e : ∀ u : State, fill b u = { (request u.cfg.batch u).after with eng := (fill b u).eng } := fun _ => rfl
  refine hafter.update rfl rfl ?_
  rw [e s', heng, show s'.cfg.batch = s.cfg.batch by rw [hs]; rfl, hafter.1]
  rfl

theorem fill_ringOk {s : State} (b : Slot) (hok : s.ring.Ok) : (fill b s).ring.Ok := request_ringOk hok

/-! The steps of the sample clock and of the interrupt context. -/

theorem sameVisible_ite {c : Prop} [Decidable c] {a b a' b' : State} (ha : c → a.SameVisible a')
    (hb : ¬ c → b.SameVisible b') : (if c then a else b).SameVisible (if c then a' else b') := by
  split
  · exact ha ‹_›
  · exact hb ‹_›

theorem clockTurn_sameVisible {s s' : State} (hv : s.SameVisible s') :
    (clockTurn s).SameVisible (clockTurn s') := by
  obtain ⟨bs, rfl⟩ := hv.eq_withBytes
  exact sameVisible_ite (fun _ => sameVisible_ite (fun _ => hv.update rfl rfl rfl) (fun _ => hv)) (fun _ => hv)

theorem interruptReturn_sameVisible {s s' : State} (hv : s.SameVisible s') :
    (interruptReturn s).SameVisible (interruptReturn s') := by
  obtain ⟨bs, rfl⟩ := hv.eq_withBytes
  exact hv.update rfl rfl rfl

theorem startOutput_sameVisible {s s' : State} (hv : s.SameVisible s') :
    (startOutput s).SameVisible (startOutput s') := by
  obtain ⟨bs, rfl⟩ := hv.eq_withBytes
  exact hv.update rfl rfl rfl

theorem interruptStep_sameVisible {s s' : State} (hok : s.ring.Ok) (hv : s.SameVisible s') :
    (interruptStep s).SameVisible (interruptStep s') := by
  have hfill := interruptReturn_sameVisible (fill_sameVisible s.eng.fillTgt hok hv)
  obtain ⟨bs, rfl⟩ := hv.eq_withBytes
  exact sameVisible_ite (fun _ => hfill) (fun _ => sameVisible_ite (fun _ => hv.update rfl rfl rfl) (fun _ => hv))

/-! The commands. -/

/-- If `o` is a next state, so is `o'`, and the two differ in hidden ring bytes alone. -/
def SameOutcome (o o' : Out) : Prop := ∀ t, o = .next t → ∃ t', o' = .next t' ∧ t.SameVisible t'

theorem sameOutcome_next {t t' : State} (h : t.SameVisible t') : SameOutcome (.next t) (.next t') := by
  rintro _ ⟨rfl⟩
  exact ⟨t', rfl, h⟩

theorem sameOutcome_ite {c : Prop} [Decidable c] {a b a' b' : Out} (ha : c → SameOutcome a a')
    (hb : ¬ c → SameOutcome b b') : SameOutcome (if c then a else b) (if c then a' else b') := by
  split
  · exact ha ‹_›
  · exact hb ‹_›

theorem sameOutcome_raise {s s' : State} (hv : s.SameVisible s') (e : ErrCode) :
    SameOutcome (raise e s) (raise e s') := by
  obtain ⟨bs, rfl⟩ := hv.eq_withBytes
  exact sameOutcome_next (hv.update rfl rfl rfl)

theorem sameOutcome_done {s s' : State} (hv : s.SameVisible s') : SameOutcome (done s) (done s') :=
  sameOutcome_raise hv .ok

/-- A ring command's SNAPSHOT, which both states take alike, and on a whole turn the run to its end. -/
theorem sameOutcome_ringStart {s s' : State} {j : RingJob} (hok : s.ring.Ok) (hv : s.SameVisible s')
    (hjob : State.JobOk { s with job := some j }) (hm : j.moved = 0) :
    SameOutcome (ringStart j s) (ringStart j s') := by
  obtain ⟨bs, rfl⟩ := hv.eq_withBytes
  have hsnap : State.SameVisible { s with job := some j } { s.withBytes bs with job := some j } := by
    obtain ⟨hl, hused, _⟩ := sameVisible_withBytes_iff.mp hv
    refine sameVisible_withBytes_iff.mpr ⟨hl, hused, ?_⟩
    rintro _ ⟨rfl⟩ _ i hi
    omega
  exact sameOutcome_ite (fun _ => sameOutcome_next hsnap)
    (fun _ => sameOutcome_next (ringRun_sameVisible hok hjob hsnap))

theorem sameOutcome_execRbInit {s s' : State} (hok : s.ring.Ok) (hv : s.SameVisible s') :
    SameOutcome (execRbInit s) (execRbInit s') := by
  cases hp : s.ring.present with
  | false => rw [hv.eq_of_absent hok hp]; exact fun t ht => ⟨t, ht, .refl t⟩
  | true =>
    obtain ⟨bs, rfl⟩ := hv.eq_withBytes
    unfold execRbInit
    rw [if_pos hp, if_pos (show (s.withBytes bs).ring.present = true from hp)]
    exact sameOutcome_raise hv .state

theorem sameOutcome_execRbWrite {s s' : State} (hok : s.ring.Ok) (hv : s.SameVisible s') :
    SameOutcome (execRbWrite s) (execRbWrite s') := by
  obtain ⟨bs, rfl⟩ := hv.eq_withBytes
  refine sameOutcome_ite (fun hp => ?_) (fun _ => sameOutcome_raise hv .state)
  exact sameOutcome_ringStart hok hv
    ((jobOk_intoRing rfl rfl).mpr ⟨hp, Nat.zero_le _, rfl, Nat.min_le_right _ _⟩) rfl

theorem sameOutcome_execRbRead {s s' : State} (hok : s.ring.Ok) (hv : s.SameVisible s') :
    SameOutcome (execRbRead s) (execRbRead s') := by
  obtain ⟨bs, rfl⟩ := hv.eq_withBytes
  refine sameOutcome_ite (fun _ => sameOutcome_raise hv .state) (fun hp => ?_)
  refine sameOutcome_ite (fun _ => sameOutcome_raise hv .state) (fun hdr => ?_)
  exact sameOutcome_ringStart hok hv ((jobOk_outOfRing rfl rfl).mpr
    ⟨by simpa using hp, Nat.zero_le _, rfl, Nat.min_le_right _ _, show s.draining = false by simpa using hdr⟩) rfl

/-- With both cursors at 0 no byte is waiting. -/
theorem used_cleared (r : Ring) : ({ r with rd := 0, wr := 0 } : Ring).used = 0 := by
  simp [Ring.used, cursorGap]

theorem sameOutcome_execRbClear {s s' : State} (hj : s.job = none) (hv : s.SameVisible s') :
    SameOutcome (execRbClear s) (execRbClear s') := by
  obtain ⟨bs, rfl⟩ := hv.eq_withBytes
  have hclear : State.SameVisible { s with ring := { s.ring with rd := 0, wr := 0 } }
      { s.withBytes bs with ring := { s.ring.withBytes bs with rd := 0, wr := 0 } } := by
    refine sameVisible_withBytes_iff.mpr ⟨hv.2.1, ?_, by simp [hj]⟩
    intro i hi
    rw [used_cleared] at hi
    omega
  exact sameOutcome_ite (fun _ => sameOutcome_raise hv .state)
    (fun _ => sameOutcome_ite (fun _ => sameOutcome_raise hv .state) (fun _ => sameOutcome_done hclear))

theorem sameOutcome_execRbDestroy {s s' : State} (hv : s.SameVisible s') :
    SameOutcome (execRbDestroy s) (execRbDestroy s') := by
  obtain ⟨bs, rfl⟩ := hv.eq_withBytes
  exact sameOutcome_ite (fun _ => sameOutcome_done hv)
    (fun _ => sameOutcome_ite (fun _ => sameOutcome_raise hv .state) (fun _ => sameOutcome_done (.refl _)))

theorem sameOutcome_execFit {s s' : State} (hv : s.SameVisible s') :
    SameOutcome (execFit s) (execFit s') := by
  obtain ⟨bs, rfl⟩ := hv.eq_withBytes
  unfold execFit
  rw [show (s.withBytes bs).cfg = s.cfg from rfl, show (s.withBytes bs).args = s.args from rfl]
  cases fit s.cfg s.args.a0.toNat s.args.a1.toNat with
  | none => exact sameOutcome_raise hv .config
  | some c => exact sameOutcome_done (hv.update rfl rfl rfl)

/-- RATE.SET with its multiplier as a variable, which keeps the kernel from computing it. -/
theorem execRateSet_of_scale {s : State} {v : Word} (h : scaleOf s.cfg s.args.a0.toNat = v) :
    execRateSet s = done (({ s with rateScale := v }).setRes0 v) := by
  subst h; rfl

theorem sameOutcome_execRateSet {s s' : State} (hv : s.SameVisible s') :
    SameOutcome (execRateSet s) (execRateSet s') := by
  obtain ⟨bs, rfl⟩ := hv.eq_withBytes
  obtain ⟨v, hscale⟩ : ∃ v, scaleOf s.cfg s.args.a0.toNat = v := ⟨_, rfl⟩
  rw [execRateSet_of_scale hscale, execRateSet_of_scale (s := s.withBytes bs) hscale]
  exact sameOutcome_done (hv.update rfl rfl rfl)

theorem sameOutcome_execEngInit {s s' : State} (hv : s.SameVisible s') :
    SameOutcome (execEngInit s) (execEngInit s') := by
  obtain ⟨bs, rfl⟩ := hv.eq_withBytes
  refine sameOutcome_ite (fun _ => sameOutcome_raise hv .state) (fun _ => ?_)
  refine sameOutcome_ite (fun _ => sameOutcome_raise hv .config) (fun _ => ?_)
  refine sameOutcome_ite (fun _ => sameOutcome_raise hv .config) (fun _ => ?_)
  rw [show (s.withBytes bs).cfg = s.cfg from rfl, show (s.withBytes bs).args = s.args from rfl]
  cases fit s.cfg s.args.a2.toNat s.cfg.sysClkHz with
  | none => exact sameOutcome_raise hv .config
  | some c => exact sameOutcome_done (hv.update rfl rfl rfl)

theorem sameOutcome_execEngStart {s s' : State} (hok : s.ring.Ok) (hv : s.SameVisible s') :
    SameOutcome (execEngStart s) (execEngStart s') := by
  obtain ⟨bs, rfl⟩ := hv.eq_withBytes
  have hclaim : s.tookClaim.SameVisible (s.withBytes bs).tookClaim := hv.update rfl rfl rfl
  have hfill0 := fill_sameVisible .b0 (s := s.tookClaim) hok hclaim
  have hfill1 := fill_sameVisible .b1 (fill_ringOk .b0 (s := s.tookClaim) hok) hfill0
  refine sameOutcome_ite (fun _ => sameOutcome_raise hv .state) (fun _ => ?_)
  refine sameOutcome_ite (fun _ => sameOutcome_raise hv .state) (fun _ => ?_)
  exact sameOutcome_ite (fun _ => sameOutcome_done (startOutput_sameVisible hfill1))
    (fun _ => sameOutcome_raise hclaim .resource)

/-- A command issued when no ring command is in progress. -/
theorem sameOutcome_exec {s s' : State} (i : Instr) (hok : s.ring.Ok) (hj : s.job = none) (hv : s.SameVisible s') :
    SameOutcome (exec i s) (exec i s') := by
  have hupd : ∀ {t t' : State}, t.ring = s.ring → t.job = s.job → t' = { t with ring := s'.ring } →
      SameOutcome (done t) (done t') := fun h1 h2 h3 => sameOutcome_done (hv.update h1 h2 h3)
  cases i with
  | rbInit => exact sameOutcome_execRbInit hok hv
  | rbWrite => exact sameOutcome_execRbWrite hok hv
  | rbRead => exact sameOutcome_execRbRead hok hv
  | rbClear => exact sameOutcome_execRbClear hj hv
  | rbDestroy => exact sameOutcome_execRbDestroy hv
  | fit => exact sameOutcome_execFit hv
  | rateSet => exact sameOutcome_execRateSet hv
  | engInit => exact sameOutcome_execEngInit hv
  | engStart => exact sameOutcome_execEngStart hok hv
  | engSetprov =>
    obtain ⟨bs, rfl⟩ := hv.eq_withBytes
    exact sameOutcome_ite (fun _ => sameOutcome_raise hv .state)
      (fun _ => sameOutcome_ite (fun _ => sameOutcome_raise hv .config) (fun _ => hupd rfl rfl rfl))
  | nop => exact sameOutcome_done hv
  | rbUsed | rbFree | rateApply | engStop | engUnderruns | engRate =>
    obtain ⟨bs, rfl⟩ := hv.eq_withBytes
    exact hupd rfl rfl rfl

/-! The step. -/

theorem sameOutcome_aligned32 {w : Width} {off : BitVec 8} {o o' : Out} (h : SameOutcome o o') :
    SameOutcome (aligned32 w off o) (aligned32 w off o') := by
  refine sameOutcome_ite (fun _ => ?_) (fun _ => sameOutcome_ite (fun _ => ?_) (fun _ => h)) <;> rintro _ ⟨⟩

theorem sameOutcome_writeReg {s s' : State} (off : BitVec 8) (v : Word) (hok : s.ring.Ok) (hj : s.job = none)
    (hv : s.SameVisible s') : SameOutcome (writeReg off v s) (writeReg off v s') := by
  refine sameOutcome_ite (fun _ => ?_) (fun _ => ?_)
  · unfold issue
    cases decode v with
    | ok i => exact sameOutcome_exec i hok hj hv
    | error _ => exact sameOutcome_raise hv .illegal
  · obtain ⟨bs, rfl⟩ := hv.eq_withBytes
    exact sameOutcome_next (hv.update rfl rfl rfl)

theorem sameOutcome_hostOp {s s' : State} (op : HostOp) (hok : s.ring.Ok) (hj : s.job = none)
    (hv : s.SameVisible s') : SameOutcome (hostOp op s) (hostOp op s') := by
  have hwrite := fun off v => sameOutcome_writeReg off v hok hj hv
  obtain ⟨bs, rfl⟩ := hv.eq_withBytes
  cases op with
  | read w off => exact sameOutcome_aligned32 (sameOutcome_next (hv.update rfl rfl rfl))
  | write w off v => exact sameOutcome_aligned32 (hwrite off v)
  | readTo name off => exact sameOutcome_aligned32 (sameOutcome_next (hv.update rfl rfl rfl))
  | writeKept name off => exact sameOutcome_aligned32 (hwrite off (s.keptAs name))
  | check =>
    exact sameOutcome_next (sameVisible_ite (fun _ => hv.update rfl rfl rfl) (fun _ => hv.update rfl rfl rfl))

/-- The host's turn goes on with a ring command in progress. -/
theorem hostTurn_job {s : State} {j : RingJob} (hj : s.job = some j) : hostTurn s = .next (ringResume j s) := by
  unfold hostTurn; rw [hj]

/-- With neither a command in progress nor an access to make, the host's turn passes. -/
theorem hostTurn_idle {s : State} (hj : s.job = none) (hh : s.env.host = []) : hostTurn s = .next s := by
  unfold hostTurn; simp only [hj, hh]

/-- With no command in progress the host makes its next access. -/
theorem hostTurn_access {s : State} {op : HostOp} {rest : List HostOp} (hj : s.job = none)
    (hh : s.env.host = op :: rest) : hostTurn s = hostOp op { s with env := { s.env with host := rest } } := by
  unfold hostTurn; split <;> simp_all

theorem sameOutcome_hostTurn {s s' : State} (hok : s.ring.Ok) (hjob : s.JobOk) (hv : s.SameVisible s') :
    SameOutcome (hostTurn s) (hostTurn s') := by
  have hjob' := hv.job_eq
  have henv' := hv.env_eq
  cases hj : s.job with
  | some j =>
    rw [hostTurn_job hj, hostTurn_job (hjob'.trans hj)]
    exact sameOutcome_next (ringResume_sameVisible hok hjob hj hv)
  | none =>
    cases hh : s.env.host with
    | nil =>
      rw [hostTurn_idle hj hh, hostTurn_idle (hjob'.trans hj) (by rw [henv', hh])]
      exact sameOutcome_next hv
    | cons op rest =>
      rw [hostTurn_access hj hh, hostTurn_access (hjob'.trans hj) (by rw [henv', hh])]
      obtain ⟨bs, rfl⟩ := hv.eq_withBytes
      exact sameOutcome_hostOp op (s := { s with env := { s.env with host := rest } }) hok hj
        (hv.update rfl rfl rfl)

theorem setSched_sameVisible {s s' : State} (hv : s.SameVisible s') (l : List Turn) :
    (s.setSched l).SameVisible (s'.setSched l) := by
  obtain ⟨bs, rfl⟩ := hv.eq_withBytes
  exact hv.update rfl rfl rfl

theorem setPhased_sameVisible {s s' : State} (hv : s.SameVisible s') (p : Bool) :
    (s.setPhased p).SameVisible (s'.setPhased p) := by
  obtain ⟨bs, rfl⟩ := hv.eq_withBytes
  exact hv.update rfl rfl rfl

theorem sameOutcome_hostTurnOrWait {s s' : State} (p : Bool) (rest : List Turn) (hok : s.ring.Ok) (hjob : s.JobOk)
    (hv : s.SameVisible s') : SameOutcome (hostTurnOrWait p rest s) (hostTurnOrWait p rest s') := by
  have hirq := sameOutcome_next (interruptStep_sameVisible hok hv)
  have hhost := sameOutcome_hostTurn (s := (s.setSched rest).setPhased p) hok hjob
    (setPhased_sameVisible (setSched_sameVisible hv rest) p)
  obtain ⟨bs, rfl⟩ := hv.eq_withBytes
  exact sameOutcome_ite (fun _ => hirq) (fun _ => hhost)

theorem sameOutcome_defaultTurn {s s' : State} (hok : s.ring.Ok) (hjob : s.JobOk) (hv : s.SameVisible s') :
    SameOutcome (defaultTurn s) (defaultTurn s') := by
  have hirq := sameOutcome_next (interruptStep_sameVisible hok hv)
  have hhost := sameOutcome_hostTurn (s := s.setPhased false) hok hjob (setPhased_sameVisible hv false)
  have hclock := sameOutcome_next (clockTurn_sameVisible hv)
  obtain ⟨bs, rfl⟩ := hv.eq_withBytes
  exact sameOutcome_ite (fun _ => hirq) (fun _ => sameOutcome_ite (fun _ => hhost) (fun _ => hclock))

theorem sameOutcome_takeTurn {s s' : State} (turn : Turn) (rest : List Turn) (hok : s.ring.Ok) (hjob : s.JobOk)
    (hv : s.SameVisible s') : SameOutcome (takeTurn turn rest s) (takeTurn turn rest s') := by
  have hsched := setSched_sameVisible hv rest
  cases turn with
  | tick => exact sameOutcome_next (clockTurn_sameVisible hsched)
  | irq => exact sameOutcome_next (interruptStep_sameVisible (s := s.setSched rest) hok hsched)
  | host => exact sameOutcome_hostTurnOrWait false rest hok hjob hv
  | phase => exact sameOutcome_hostTurnOrWait true rest hok hjob hv
  | peek off =>
    obtain ⟨bs, rfl⟩ := hv.eq_withBytes
    exact sameOutcome_aligned32 (sameOutcome_next (hv.update rfl rfl rfl))
  | platform a b =>
    obtain ⟨bs, rfl⟩ := hv.eq_withBytes
    exact sameOutcome_next (hv.update rfl rfl rfl)
  | reset =>
    obtain ⟨bs, rfl⟩ := hv.eq_withBytes
    exact sameOutcome_next (.refl _)

/-- Settles O59, turn by turn: each turn's effect is read off the bytes `State.SameVisible` keeps equal. -/
theorem unwrittenRingBytesStayHidden : Obligations.UnwrittenRingBytesStayHidden := by
  unfold Obligations.UnwrittenRingBytesStayHidden
  intro s s' t hinv hv ht
  obtain ⟨_, _, hok, hjob, _⟩ := hinv
  have hstep : SameOutcome (step s) (step s') := by
    unfold step nextTurn
    rw [hv.env_eq]
    cases s.env.sched with
    | nil => exact sameOutcome_defaultTurn hok hjob hv
    | cons turn rest => exact sameOutcome_takeTurn turn rest hok hjob hv
  exact hstep t ht

end Sys2Proof.Machine
namespace Sys2Proof.Machine

/-! What no command writes. -/

/-- The command may write everything but the ARG registers, and RATE_SCALE only if it is RATE.SET. -/
def KeepsInputs (i : Instr) (s : State) (o : Out) : Prop :=
  ∀ t, o = .next t → t.args = s.args ∧ (i ≠ .rateSet → t.rateScale = s.rateScale)

section
variable {i : Instr} {s u : State}

theorem keepsInputs_next (ha : u.args = s.args) (hr : u.rateScale = s.rateScale) :
    KeepsInputs i s (.next u) := by
  rintro _ ⟨rfl⟩
  exact ⟨ha, fun _ => hr⟩

theorem keepsInputs_raise (e : ErrCode) (ha : u.args = s.args) (hr : u.rateScale = s.rateScale) :
    KeepsInputs i s (raise e u) := keepsInputs_next ha hr

theorem keepsInputs_done (ha : u.args = s.args) (hr : u.rateScale = s.rateScale) : KeepsInputs i s (done u) :=
  keepsInputs_next ha hr

theorem keepsInputs_ite {c : Prop} [Decidable c] {o o' : Out} (h : KeepsInputs i s o) (h' : KeepsInputs i s o') :
    KeepsInputs i s (if c then o else o') := by
  split
  · exact h
  · exact h'

/-- A ring command, from its SNAPSHOT on. -/
theorem keepsInputs_ringStart (j : RingJob) : KeepsInputs i s (ringStart j s) := by
  intro t h
  obtain ⟨_, _, _, _, _, _, _, _, rfl⟩ := ringStart_frame h
  exact ⟨rfl, fun _ => rfl⟩

theorem fill_args (b : Slot) (s : State) : (fill b s).args = s.args := by
  obtain ⟨_, _, _, h⟩ := fill_frame b s
  rw [h]

theorem fill_rateScale (b : Slot) (s : State) : (fill b s).rateScale = s.rateScale := by
  obtain ⟨_, _, _, h⟩ := fill_frame b s
  rw [h]

theorem keepsInputs_fit : KeepsInputs i s (execFit s) := by
  unfold execFit
  cases fit s.cfg s.args.a0.toNat s.args.a1.toNat with
  | none => exact keepsInputs_raise .config rfl rfl
  | some c => exact keepsInputs_done rfl rfl

theorem keepsInputs_rateSet : KeepsInputs .rateSet s (execRateSet s) := by
  intro t h
  obtain ⟨v, hscale⟩ : ∃ v, scaleOf s.cfg s.args.a0.toNat = v := ⟨_, rfl⟩
  rw [execRateSet_of_scale hscale] at h
  rw [done_next h]
  exact ⟨rfl, fun hne => absurd rfl hne⟩

theorem keepsInputs_engInit : KeepsInputs i s (execEngInit s) := by
  refine keepsInputs_ite (keepsInputs_raise .state rfl rfl) (keepsInputs_ite (keepsInputs_raise .config rfl rfl)
    (keepsInputs_ite (keepsInputs_raise .config rfl rfl) ?_))
  cases fit s.cfg s.args.a2.toNat s.cfg.sysClkHz with
  | none => exact keepsInputs_raise .config rfl rfl
  | some c => exact keepsInputs_done rfl rfl

theorem keepsInputs_engStart : KeepsInputs i s (execEngStart s) := by
  refine keepsInputs_ite (keepsInputs_raise .state rfl rfl) (keepsInputs_ite (keepsInputs_raise .state rfl rfl)
    (keepsInputs_ite (keepsInputs_done ?_ ?_) (keepsInputs_raise .resource rfl rfl)))
  · simp [fill_args]
  · simp [fill_rateScale]

end

theorem exec_keepsInputs (i : Instr) (s : State) : KeepsInputs i s (exec i s) := by
  have fails : ∀ e, KeepsInputs i s (raise e s) := fun e => keepsInputs_raise e rfl rfl
  cases i with
  | rbInit =>
    exact keepsInputs_ite (fails .state) (keepsInputs_ite (fails .config)
      (keepsInputs_ite (keepsInputs_done rfl rfl) (keepsInputs_raise .alloc rfl rfl)))
  | rbWrite => exact keepsInputs_ite (keepsInputs_ringStart _) (fails .state)
  | rbRead => exact keepsInputs_ite (fails .state) (keepsInputs_ite (fails .state) (keepsInputs_ringStart _))
  | rbClear => exact keepsInputs_ite (fails .state) (keepsInputs_ite (fails .state) (keepsInputs_done rfl rfl))
  | rbDestroy =>
    exact keepsInputs_ite (keepsInputs_done rfl rfl) (keepsInputs_ite (fails .state) (keepsInputs_done rfl rfl))
  | fit => exact keepsInputs_fit
  | rateSet => exact keepsInputs_rateSet
  | engInit => exact keepsInputs_engInit
  | engSetprov => exact keepsInputs_ite (fails .state) (keepsInputs_ite (fails .config) (keepsInputs_done rfl rfl))
  | engStart => exact keepsInputs_engStart
  | nop | rbUsed | rbFree | rateApply | engStop | engUnderruns | engRate => exact keepsInputs_done rfl rfl

/-- Settles O52, command by command (`exec_keepsInputs`). -/
theorem commandsNeverWriteArguments : Obligations.CommandsNeverWriteArguments := by
  unfold Obligations.CommandsNeverWriteArguments
  intro i s t h
  exact (exec_keepsInputs i s t h).1

/-! Which word puts a command into CMD. -/

/-- A listed opcode's number is the opcode of the command it decodes to. -/
theorem instrOfOpcode_some {n : Nat} {i : Instr} (h : instrOfOpcode n = some i) : n = (opcodeOf i).toNat := by
  unfold instrOfOpcode at h
  split at h <;> cases h <;> rfl

/-- A command word is its two fields (30_encoding.md R84). -/
theorem word_eq_fields (v : Word) : v.extractLsb' 8 24 ++ v.extractLsb' 0 8 = v := by
  ext k hk
  rw [BitVec.getElem_append]
  split
  · simp [BitVec.getLsbD_eq_getElem hk]
  · simp [show 8 + (k - 8) = k by omega, BitVec.getLsbD_eq_getElem hk]

/-- Only a command's own word decodes to it (30_encoding.md R84 to R86). -/
theorem decode_eq_ok {v : Word} {i : Instr} (h : decode v = .ok i) : v = encode i := by
  unfold decode at h
  split at h
  · rename_i hz
    split at h
    · rename_i i' hi
      obtain rfl : i' = i := by simpa using h
      have hop : v.extractLsb' 0 8 = opcodeOf i' := BitVec.eq_of_toNat_eq (instrOfOpcode_some hi)
      have hzero : v.extractLsb' 8 24 = 0 := hz
      rw [encode, ← hop, ← hzero, word_eq_fields]
    · cases h
  · cases h

/-! What changes RATE_SCALE. -/

theorem interruptStep_rateScale (s : State) : (interruptStep s).rateScale = s.rateScale := by
  obtain ⟨_, _, _, _, h⟩ := interruptStep_frame s
  rw [h]

theorem clockTurn_rateScale (s : State) : (clockTurn s).rateScale = s.rateScale := by
  obtain ⟨_, _, _, _, h⟩ := clockTurn_frame s
  rw [h]

theorem checkStatus_rateScale (s : State) : (checkStatus s).rateScale = s.rateScale := by
  unfold checkStatus
  split <;> rfl

/-- Of all words written to CMD only RATE.SET's changes RATE_SCALE (41_rate.md R135). -/
theorem issue_rateScale {v : Word} {s t : State} (h : issue v s = .next t) (hne : t.rateScale ≠ s.rateScale) :
    v = 0x11 := by
  rcases issue_cases h with ⟨i, hi, hx⟩ | rfl
  · by_cases hset : i = .rateSet
    · subst hset
      exact decode_eq_ok hi
    · exact absurd ((exec_keepsInputs i s t hx).2 hset) hne
  · exact absurd rfl hne

/-- An action of the host's program that changes RATE_SCALE puts RATE.SET's word into CMD. -/
theorem hostOp_rateScale {op : HostOp} {s t : State} (h : hostOp op s = .next t) (hne : t.rateScale ≠ s.rateScale) :
    op.Writes 0 0x11 s := by
  rcases hostOp_cases h with ⟨_, _, rfl⟩ | ⟨_, _, _, rfl⟩ | ⟨_, rfl⟩ | ⟨_, _, _, _, rfl⟩ | ⟨v, hw, hi⟩
  · exact absurd rfl hne
  · exact absurd rfl hne
  · exact absurd (checkStatus_rateScale s) hne
  · exact absurd rfl hne
  · rwa [issue_rateScale hi hne] at hw

/-- A turn of the host that changes RATE_SCALE issues RATE.SET, with no ring command in progress. -/
theorem hostTurn_rateScale {s t : State} (h : hostTurn s = .next t) (hne : t.rateScale ≠ s.rateScale) :
    s.Issues 0x11 := by
  rcases hostTurn_cases h with ⟨j, _, rfl⟩ | ⟨hj, op, hs, hh, ho⟩ | ⟨_, _, rfl⟩
  · obtain ⟨_, _, _, _, _, _, _, _, hf⟩ := ringResume_frame j s
    exact absurd (by rw [hf]) hne
  · refine ⟨hj, hs, ?_⟩
    rcases hostOp_rateScale ho hne with rfl | ⟨name, rfl, hk⟩
    · exact .inl hh
    · exact .inr ⟨name, hh, hk⟩
  · exact absurd rfl hne

/-- So does a turn of the host that may have to wait, and it did not wait. -/
theorem hostTurnOrWait_rateScale {p : Bool} {rest : List Turn} {s t : State}
    (h : hostTurnOrWait p rest s = .next t) (hne : t.rateScale ≠ s.rateScale) :
    s.interruptEnabled = false ∧ s.Issues 0x11 := by
  unfold hostTurnOrWait at h
  split at h
  · obtain rfl : interruptStep s = t := by simpa using h
    exact absurd (interruptStep_rateScale s) hne
  · rename_i hi
    exact ⟨by simpa using hi, hostTurn_rateScale (s := (s.setSched rest).setPhased p) h hne⟩

theorem defaultTurn_rateScale {s t : State} (h : defaultTurn s = .next t) (hne : t.rateScale ≠ s.rateScale) :
    s.interruptEnabled = false ∧ s.Issues 0x11 := by
  unfold defaultTurn at h
  split at h
  · obtain rfl : interruptStep s = t := by simpa using h
    exact absurd (interruptStep_rateScale s) hne
  · rename_i hi
    split at h
    · exact ⟨by simpa using hi, hostTurn_rateScale (s := s.setPhased false) h hne⟩
    · obtain rfl : clockTurn s = t := by simpa using h
      exact absurd (clockTurn_rateScale s) hne

/-- Settles O31, turn by turn: every turn but the host's and reset keeps RATE_SCALE. -/
theorem onlyRateSetChangesTheScale : Obligations.OnlyRateSetChangesTheScale := by
  unfold Obligations.OnlyRateSetChangesTheScale
  intro s t h hne
  unfold step nextTurn at h
  split at h
  · rename_i hs
    exact .inr ⟨.inl hs, defaultTurn_rateScale h hne⟩
  · rename_i turn rest hs
    cases turn with
    | tick =>
      obtain rfl : clockTurn (s.setSched rest) = t := by simpa [takeTurn] using h
      exact absurd (clockTurn_rateScale _) hne
    | irq =>
      obtain rfl : interruptStep (s.setSched rest) = t := by simpa [takeTurn] using h
      exact absurd (interruptStep_rateScale _) hne
    | host => exact .inr ⟨.inr ⟨rest, .inl hs⟩, hostTurnOrWait_rateScale h hne⟩
    | phase => exact .inr ⟨.inr ⟨rest, .inr hs⟩, hostTurnOrWait_rateScale h hne⟩
    | peek off =>
      obtain ⟨_, _, ⟨rfl⟩⟩ := aligned32_next (w := .w32) (off := off) h
      exact absurd rfl hne
    | platform a b =>
      obtain ⟨rfl⟩ := h
      exact absurd rfl hne
    | reset => exact .inl ⟨rest, hs⟩

/-! How long the interrupt context can hold the host up. -/

/-- The steps the interrupt context has still to take: the fill of a handler in progress, and entry and fill of a
pending completion of a running engine. -/
def State.interruptStepsLeft (s : State) : Nat :=
  (if s.eng.inHandler then 1 else 0) + (if s.eng.irqPend && s.eng.running then 2 else 0)

theorem interruptStepsLeft_le (s : State) : s.interruptStepsLeft ≤ 3 := by
  unfold State.interruptStepsLeft
  split <;> split <;> omega

theorem interruptStepsLeft_eq_zero_iff (s : State) : s.interruptStepsLeft = 0 ↔ s.interruptEnabled = false := by
  unfold State.interruptStepsLeft State.interruptEnabled State.entryEnabled
  cases s.eng.inHandler <;> simp

/-- A fill leaves the engine's control bits alone. -/
theorem fill_control (b : Slot) (s : State) :
    (fill b s).eng.irqPend = s.eng.irqPend ∧ (fill b s).eng.running = s.eng.running := by
  rw [fill_eng, setBank_frame]
  exact ⟨rfl, rfl⟩

/-- Each enabled step of the interrupt context leaves it one fewer. -/
theorem interruptStepsLeft_interruptStep {s : State} (h : s.interruptEnabled = true) :
    (interruptStep s).interruptStepsLeft + 1 = s.interruptStepsLeft := by
  rcases interruptStep_cases s with ⟨hin, e⟩ | ⟨hin, hpend, hrun, e⟩ | ⟨hoff, _⟩
  · obtain ⟨hp, hr⟩ := fill_control s.eng.fillTgt s
    rw [e]
    simp only [State.interruptStepsLeft, completionFill, interruptReturn_eng, hp, hr, hin]
    simp
    omega
  · rw [e]
    simp [State.interruptStepsLeft, hin, hpend, hrun]
  · simp [hoff] at h

/-- What a step of the interrupt context leaves to the host. -/
def State.SameHost (s t : State) : Prop :=
  t.env.sched = s.env.sched ∧ t.env.host = s.env.host ∧ t.job = s.job ∧ t.args = s.args ∧ t.res = s.res

theorem interruptStep_sameHost (s : State) : s.SameHost (interruptStep s) := by
  obtain ⟨_, _, _, _, h⟩ := interruptStep_frame s
  rw [h]
  exact ⟨rfl, rfl, rfl, rfl, rfl⟩

/-- While an interrupt step is enabled, the host's turn is that step (10_state.md R21). -/
theorem step_host_waits {s : State} {turn : Turn} {rest : List Turn} (ht : turn = .host ∨ turn = .phase)
    (hs : s.env.sched = turn :: rest) (h : s.interruptEnabled = true) : step s = .next (interruptStep s) := by
  unfold step nextTurn
  rw [hs]
  rcases ht with rfl | rfl <;> exact if_pos h

/-- The run of exactly the steps left ends with none enabled and the host's turn untouched. -/
theorem run_interruptStepsLeft {turn : Turn} {rest : List Turn} (ht : turn = .host ∨ turn = .phase) (n : Nat)
    (s : State) (hs : s.env.sched = turn :: rest) (hn : s.interruptStepsLeft = n) :
    ∃ u, Host.Core.run Sys2Proof.core n s = .next u ∧ u.interruptEnabled = false ∧ s.SameHost u := by
  induction n generalizing s with
  | zero => exact ⟨s, rfl, (interruptStepsLeft_eq_zero_iff s).mp hn, rfl, rfl, rfl, rfl, rfl⟩
  | succ n ih =>
    have hen : s.interruptEnabled = true := by
      by_contra hoff
      have := (interruptStepsLeft_eq_zero_iff s).mpr (by simpa using hoff)
      omega
    have hleft := interruptStepsLeft_interruptStep hen
    obtain ⟨hsched, hhost, hjob, hargs, hres⟩ := interruptStep_sameHost s
    obtain ⟨u, hu, hoff, hsched', hhost', hjob', hargs', hres'⟩ :=
      ih (interruptStep s) (hsched.trans hs) (by omega)
    refine ⟨u, ?_, hoff, hsched'.trans hsched, hhost'.trans hhost, hjob'.trans hjob, hargs'.trans hargs,
      hres'.trans hres⟩
    have hstep : Sys2Proof.core.step s = .next (interruptStep s) := step_host_waits ht hs hen
    simpa only [Host.Core.run, hstep] using hu

/-- Settles O48: the steps left bound the wait, and there are at most three. -/
theorem hostWaitsAtMostThreeInterruptSteps : Obligations.HostWaitsAtMostThreeInterruptSteps := by
  unfold Obligations.HostWaitsAtMostThreeInterruptSteps
  intro s turn rest ht hs
  obtain ⟨u, hu, hoff, hsched, hkept⟩ := run_interruptStepsLeft ht s.interruptStepsLeft s hs rfl
  exact ⟨step_host_waits ht hs, s.interruptStepsLeft, u, interruptStepsLeft_le s, hu, hoff, hsched.trans hs, hkept⟩

/-! STATUS, field by field. -/

theorem slot_bit_getLsbD (b : Slot) : b.bit.getLsbD 0 = decide (b = .b1) := by
  cases b <;> decide

/-- The one-bit fields of STATUS. -/
theorem statusWord_bits (s : State) :
    s.statusWord.getLsbD 4 = s.ring.present ∧ s.statusWord.getLsbD 5 = s.sess.configured ∧
    s.statusWord.getLsbD 8 = s.eng.running ∧ s.statusWord.getLsbD 9 = decide (s.eng.playIdx = .b1) ∧
    s.statusWord.getLsbD 10 = s.eng.outEn ∧ s.statusWord.getLsbD 11 = s.eng.armed ∧
    s.statusWord.getLsbD 12 = s.eng.irqPend ∧ s.statusWord.getLsbD 13 = s.eng.inHandler := by
  unfold State.statusWord
  repeat rw [BitVec.getLsbD_append]
  rw [← slot_bit_getLsbD]
  simp

/-- The wider fields of STATUS and its reserved bits. -/
theorem statusWord_fields (s : State) :
    s.statusWord.extractLsb' 0 4 = s.err.code ∧ s.statusWord.extractLsb' 6 2 = s.eng.prov.code ∧
      s.statusWord.extractLsb' 14 18 = 0 := by
  unfold State.statusWord
  refine ⟨BitVec.extractLsb'_append_eq_right, ?_, ?_⟩
  · repeat rw [BitVec.extractLsb'_append_eq_of_le (by decide)]
    exact BitVec.extractLsb'_append_eq_right
  · repeat rw [BitVec.extractLsb'_append_eq_of_le (by decide)]
    exact BitVec.extractLsb'_eq_self

/-- Settles O8: the layout of `State.statusWord`, and the engine's part of the invariant. -/
theorem statusWordFields : Obligations.StatusWordFields := by
  unfold Obligations.StatusWordFields
  refine ⟨fun s => ?_, rfl, rfl⟩
  obtain ⟨herr, hprov, hzero⟩ := statusWord_fields s
  obtain ⟨hpresent, hcfg, hrun, hplay, hout, harmed, hpend, hin⟩ := statusWord_bits s
  refine ⟨herr, hpresent, hcfg, hprov, hrun, hplay, hout, harmed, hpend, hin, hzero, ?_⟩
  rintro ⟨_, _, _, _, _, ⟨houtEn, hclaim, _⟩, _⟩
  exact ⟨houtEn, hclaim⟩

end Sys2Proof.Machine

namespace Sys2Proof.Machine

/-! The register window and its addresses. -/

/-- An offset lies in the window exactly at its own address. -/
theorem windowOffset_eq_some_iff {p : Config.Params} {a : Word} {off : BitVec 8} :
    windowOffset p a = some off ↔ a = p.aoeBase + off.setWidth 32 := by
  unfold windowOffset
  have hoff := off.isLt
  constructor
  · intro h
    split at h
    · obtain rfl := Option.some.inj h
      bv_omega
    · cases h
  · rintro rfl
    have hd : p.aoeBase + off.setWidth 32 - p.aoeBase = off.setWidth 32 := by bv_omega
    rw [hd, if_pos (by bv_omega)]
    congr 1
    bv_omega

theorem windowOffset_eq_none_iff {p : Config.Params} {a : Word} :
    windowOffset p a = none ↔ 256 ≤ (a - p.aoeBase).toNat := by
  rw [windowOffset, ite_eq_right_iff]
  simp

theorem busAddress_toNat (p : Config.Params) (off : BitVec 8) :
    (busAddress p off).toNat = (p.aoeBase.toNat + off.toNat) % 2 ^ 32 := by
  simp [busAddress, BitVec.toNat_add]

/-- Settles O12: `windowOffset` inverts `busAddress` on the 256 addresses of the window. -/
theorem windowAddressesRoundTrip : Obligations.WindowAddressesRoundTrip := by
  unfold Obligations.WindowAddressesRoundTrip
  intro p off a
  exact ⟨busAddress_toNat p off, windowOffset_eq_some_iff.mpr rfl, windowOffset_eq_some_iff,
    windowOffset_eq_none_iff⟩

/-! The accesses that are refused. -/

theorem aligned32_subWord {w : Width} {off : BitVec 8} {go : Out} (hw : w ≠ .w32) :
    aligned32 w off go = .refused .subWordAccess := if_pos hw

theorem aligned32_misaligned {off : BitVec 8} {go : Out} (ho : off.toNat % 4 ≠ 0) :
    aligned32 .w32 off go = .refused .misalignedAccess := by
  unfold aligned32
  rw [if_neg (by simp), if_pos ho]

/-- With the host's whole turn next and nothing in its way, the step is the host's next access. -/
theorem step_hostNext {s : State} {rest : List Turn} {op : HostOp} {hs : List HostOp} (hn : s.HostNext rest)
    (hh : s.env.host = op :: hs) :
    step s = hostOp op { s with env := { s.env with sched := rest, host := hs, phased := false } } := by
  obtain ⟨hj, hi, hsched⟩ := hn
  unfold step nextTurn
  rw [hsched]
  calc hostTurnOrWait false rest s
      = hostTurn ((s.setSched rest).setPhased false) := if_neg (by simp [hi])
    _ = _ := hostTurn_access (s := (s.setSched rest).setPhased false) hj hh

/-- Settles O11: a read and a write alike pass through `aligned32`. -/
theorem subWordAndMisalignedAccessRefused : Obligations.SubWordAndMisalignedAccessRefused := by
  unfold Obligations.SubWordAndMisalignedAccessRefused
  intro s w off v hs rest hn hop
  obtain ⟨go, hstep⟩ : ∃ go, step s = aligned32 w off go := by
    rcases hop with hh | hh <;> exact ⟨_, step_hostNext hn hh⟩
  rw [hstep]
  refine ⟨aligned32_subWord, ?_⟩
  rintro rfl ho
  exact aligned32_misaligned ho

/-! What changes system memory. -/

theorem interruptStep_mem (s : State) : (interruptStep s).mem = s.mem := by
  obtain ⟨_, _, _, _, h⟩ := interruptStep_frame s
  rw [h]

theorem clockTurn_mem (s : State) : (clockTurn s).mem = s.mem := by
  obtain ⟨_, _, _, _, h⟩ := clockTurn_frame s
  rw [h]

theorem checkStatus_mem (s : State) : (checkStatus s).mem = s.mem := by
  unfold checkStatus
  split <;> rfl

theorem fill_mem (b : Slot) (s : State) : (fill b s).mem = s.mem := by
  obtain ⟨_, _, _, h⟩ := fill_frame b s
  rw [h]

/-- A phase of RB.WRITE only reads system memory, and the command stays an RB.WRITE (40_ring_buffer.md R102). -/
theorem ringPhase_intoRing {j : RingJob} {s : State} (hd : j.dir = .intoRing) :
    (ringPhase j s).mem = s.mem ∧ ∀ j', (ringPhase j s).job = some j' → j'.dir = .intoRing := by
  unfold ringPhase
  rw [hd]
  by_cases hm : j.moved < j.total
  · by_cases ha : admits s.cfg (busByte j.addr j.moved) = true
    · simp [hm, copyIn_admitted ha, hd]
    · simp [hm, copyIn_refused ha]
  · simp [hm, publishIn]

theorem ringRun_intoRing_mem (n : Nat) {s : State} (hd : ∀ j, s.job = some j → j.dir = .intoRing) :
    (ringRun n s).mem = s.mem := by
  induction n generalizing s with
  | zero => rfl
  | succ n ih =>
    unfold ringRun
    split
    · rfl
    · rename_i j hj
      obtain ⟨hmem, hdir⟩ := ringPhase_intoRing (s := s) (hd j hj)
      rw [ih hdir, hmem]

theorem ringResume_intoRing_mem {j : RingJob} {s : State} (hj : s.job = some j) (hd : j.dir = .intoRing) :
    (ringResume j s).mem = s.mem := by
  unfold ringResume
  split
  · exact (ringPhase_intoRing hd).1
  · refine ringRun_intoRing_mem _ ?_
    simp [hj, hd]

/-- If the outcome is a next state, then one with the property. -/
def Ensures (P : State → Prop) (o : Out) : Prop := ∀ t, o = .next t → P t

section
variable {P : State → Prop} {u : State}

theorem ensures_next (h : P u) : Ensures P (.next u) := by
  rintro _ ⟨rfl⟩
  exact h

theorem ensures_raise (e : ErrCode) (h : P (u.setErr e)) : Ensures P (raise e u) := ensures_next h

theorem ensures_done (h : P (u.setErr .ok)) : Ensures P (done u) := ensures_next h

theorem ensures_ite {c : Prop} [Decidable c] {o o' : Out} (h : Ensures P o) (h' : Ensures P o') :
    Ensures P (if c then o else o') := by
  split
  · exact h
  · exact h'

end

/-- The outcome, if a next state, has the system memory of `s`. -/
abbrev KeepsMem (s : State) : Out → Prop := Ensures (fun t => t.mem = s.mem)

section
variable {s : State}

/-- RB.WRITE, from its SNAPSHOT on. -/
theorem keepsMem_ringStart {j : RingJob} (hd : j.dir = .intoRing) : KeepsMem s (ringStart j s) := by
  refine ensures_ite (ensures_next rfl) (ensures_next (ringRun_intoRing_mem _ ?_))
  rintro _ ⟨rfl⟩
  exact hd

theorem keepsMem_fit : KeepsMem s (execFit s) := by
  unfold execFit
  cases fit s.cfg s.args.a0.toNat s.args.a1.toNat with
  | none => exact ensures_raise .config rfl
  | some c => exact ensures_done rfl

theorem keepsMem_engInit : KeepsMem s (execEngInit s) := by
  refine ensures_ite (ensures_raise .state rfl) (ensures_ite (ensures_raise .config rfl)
    (ensures_ite (ensures_raise .config rfl) ?_))
  cases fit s.cfg s.args.a2.toNat s.cfg.sysClkHz with
  | none => exact ensures_raise .config rfl
  | some c => exact ensures_done rfl

theorem keepsMem_engStart : KeepsMem s (execEngStart s) := by
  refine ensures_ite (ensures_raise .state rfl) (ensures_ite (ensures_raise .state rfl)
    (ensures_ite (ensures_done ?_) (ensures_raise .resource rfl)))
  simp [fill_mem]

end

/-- Every command but RB.READ leaves system memory alone. -/
theorem exec_keepsMem {i : Instr} (s : State) (hi : i ≠ .rbRead) : KeepsMem s (exec i s) := by
  have fails : ∀ e, KeepsMem s (raise e s) := fun e => ensures_raise e rfl
  cases i with
  | rbRead => exact absurd rfl hi
  | rbInit =>
    exact ensures_ite (fails .state) (ensures_ite (fails .config)
      (ensures_ite (ensures_done rfl) (ensures_raise .alloc rfl)))
  | rbWrite => exact ensures_ite (keepsMem_ringStart rfl) (fails .state)
  | rbClear => exact ensures_ite (fails .state) (ensures_ite (fails .state) (ensures_done rfl))
  | rbDestroy => exact ensures_ite (ensures_done rfl) (ensures_ite (fails .state) (ensures_done rfl))
  | fit => exact keepsMem_fit
  | engInit => exact keepsMem_engInit
  | engSetprov => exact ensures_ite (fails .state) (ensures_ite (fails .config) (ensures_done rfl))
  | engStart => exact keepsMem_engStart
  | nop | rbUsed | rbFree | rateSet | rateApply | engStop | engUnderruns | engRate => exact ensures_done rfl

/-- Of all words written to CMD only RB.READ's changes system memory (20_memory.md R60). -/
theorem issue_mem {v : Word} {s t : State} (h : issue v s = .next t) (hne : t.mem ≠ s.mem) : v = 0x03 := by
  rcases issue_cases h with ⟨i, hi, hx⟩ | rfl
  · by_cases hread : i = .rbRead
    · subst hread
      exact decode_eq_ok hi
    · exact absurd (exec_keepsMem s hread t hx) hne
  · exact absurd rfl hne

/-- An action of the host's program that changes system memory puts RB.READ's word into CMD. -/
theorem hostOp_mem {op : HostOp} {s t : State} (h : hostOp op s = .next t) (hne : t.mem ≠ s.mem) :
    op.Writes 0 0x03 s := by
  rcases hostOp_cases h with ⟨_, _, rfl⟩ | ⟨_, _, _, rfl⟩ | ⟨_, rfl⟩ | ⟨_, _, _, _, rfl⟩ | ⟨v, hw, hi⟩
  · exact absurd rfl hne
  · exact absurd rfl hne
  · exact absurd (checkStatus_mem s) hne
  · exact absurd rfl hne
  · rwa [issue_mem hi hne] at hw

/-- A turn of the host that changes system memory goes on with an RB.READ or issues one. -/
theorem hostTurn_mem {s t : State} (h : hostTurn s = .next t) (hne : t.mem ≠ s.mem) :
    (∃ j, s.job = some j ∧ j.dir = .outOfRing) ∨ s.Issues 0x03 := by
  rcases hostTurn_cases h with ⟨j, hj, rfl⟩ | ⟨hj, op, hs, hh, ho⟩ | ⟨_, _, rfl⟩
  · refine .inl ⟨j, hj, ?_⟩
    cases hd : j.dir with
    | intoRing => exact absurd (ringResume_intoRing_mem hj hd) hne
    | outOfRing => rfl
  · refine .inr ⟨hj, hs, ?_⟩
    rcases hostOp_mem ho hne with rfl | ⟨name, rfl, hk⟩
    · exact .inl hh
    · exact .inr ⟨name, hh, hk⟩
  · exact absurd rfl hne

/-- On a turn that is not the host's, only the platform's own store changes system memory. -/
theorem platform_of_mem_ne {s t : State} (h : step s = .next t) (hne : t.mem ≠ s.mem) (hturn : ¬ s.HostTurn) :
    ∃ a b rest, s.env.sched = .platform a b :: rest := by
  unfold step nextTurn at h
  split at h
  · rename_i hs
    exact absurd (.inl hs) hturn
  · rename_i turn rest hs
    cases turn with
    | tick =>
      obtain rfl : clockTurn (s.setSched rest) = t := by simpa [takeTurn] using h
      exact absurd (clockTurn_mem _) hne
    | irq =>
      obtain rfl : interruptStep (s.setSched rest) = t := by simpa [takeTurn] using h
      exact absurd (interruptStep_mem _) hne
    | host => exact absurd (.inr ⟨rest, .inl hs⟩) hturn
    | phase => exact absurd (.inr ⟨rest, .inr hs⟩) hturn
    | peek off =>
      obtain ⟨_, _, ⟨rfl⟩⟩ := aligned32_next (w := .w32) (off := off) h
      exact absurd rfl hne
    | platform a b => exact ⟨a, b, rest, hs⟩
    | reset =>
      obtain ⟨rfl⟩ := h
      exact absurd rfl hne

/-- Settles O56: the host's turns by `hostTurn_mem`, the other agents' by `platform_of_mem_ne`. -/
theorem onlyRbReadWritesSystemMemory : Obligations.OnlyRbReadWritesSystemMemory := by
  unfold Obligations.OnlyRbReadWritesSystemMemory
  intro s t h hne
  by_cases hturn : s.HostTurn
  · obtain ⟨_, ⟨l, p, rfl⟩, rfl | rfl | ⟨hi, hh⟩ | ⟨_, _, _, rfl⟩ | ⟨a, b, rest, hs, _⟩ | ⟨_, _, rfl⟩⟩ := step_cases h
    · exact absurd (clockTurn_mem _) hne
    · exact absurd (interruptStep_mem _) hne
    · exact .inr ⟨hturn, hi, hostTurn_mem (s := (s.setSched l).setPhased p) hh hne⟩
    · exact absurd rfl hne
    · exact .inl ⟨a, b, rest, hs⟩
    · exact absurd rfl hne
  · exact .inl (platform_of_mem_ne h hne hturn)

end Sys2Proof.Machine

namespace Sys2Proof.Machine

/-! Command words: which of them decode, and to what (30_encoding.md R84 to R86). -/

/-- Every command's row of the opcode table is read back from its word. -/
theorem roundTrip : ∀ i : Instr, Laws.RoundTrip.Statement i
  | .nop => Laws.RoundTrip.nop
  | .rbInit => Laws.RoundTrip.rbInit
  | .rbWrite => Laws.RoundTrip.rbWrite
  | .rbRead => Laws.RoundTrip.rbRead
  | .rbUsed => Laws.RoundTrip.rbUsed
  | .rbFree => Laws.RoundTrip.rbFree
  | .rbClear => Laws.RoundTrip.rbClear
  | .rbDestroy => Laws.RoundTrip.rbDestroy
  | .fit => Laws.RoundTrip.fit
  | .rateSet => Laws.RoundTrip.rateSet
  | .rateApply => Laws.RoundTrip.rateApply
  | .engInit => Laws.RoundTrip.engInit
  | .engSetprov => Laws.RoundTrip.engSetprov
  | .engStart => Laws.RoundTrip.engStart
  | .engStop => Laws.RoundTrip.engStop
  | .engUnderruns => Laws.RoundTrip.engUnderruns
  | .engRate => Laws.RoundTrip.engRate

theorem decode_encode (i : Instr) : decode (encode i) = .ok i := by
  obtain ⟨_, _, _, h⟩ := roundTrip i
  exact h

/-- Settles O1: `decode_eq_ok` one way, `decode_encode` the other. -/
theorem decodeExactlyTheEncodedWords : Obligations.DecodeExactlyTheEncodedWords := by
  unfold Obligations.DecodeExactlyTheEncodedWords
  intro w i
  constructor
  · exact decode_eq_ok
  · rintro rfl
    exact decode_encode i

theorem cmdWordOf_wf_iff (w : Word) :
    (cmdWordOf w).wf = true ↔ w.extractLsb' 8 24 = 0 ∧ w.extractLsb' 0 8 ∈ listedOpcodes := by
  simp [CmdWord.wf, cmdWordOf]

/-- Every listed opcode is some command's. -/
theorem instrOfOpcode_listed : ∀ b ∈ listedOpcodes, ∃ i, instrOfOpcode b.toNat = some i := by
  simp only [← Option.isSome_iff_exists]
  decide

/-- The two conditions of 30_encoding.md R85 are exactly those under which a word decodes. -/
theorem decodes_iff (w : Word) :
    (∃ i, decode w = .ok i) ↔ w.extractLsb' 8 24 = 0 ∧ w.extractLsb' 0 8 ∈ listedOpcodes := by
  constructor
  · rintro ⟨i, hi⟩
    obtain rfl := decode_eq_ok hi
    obtain ⟨_, hwf, _, _⟩ := roundTrip i
    exact (cmdWordOf_wf_iff _).mp hwf
  · rintro ⟨hzero, hop⟩
    obtain ⟨i, hi⟩ := instrOfOpcode_listed _ hop
    refine ⟨i, ?_⟩
    unfold decode cmdWordOf
    simp only [hzero, hi, if_true]

theorem issue_decoded {w : Word} {i : Instr} (h : decode w = .ok i) (s : State) : issue w s = exec i s := by
  unfold issue
  rw [h]

theorem issue_undecodable {w : Word} (h : w.extractLsb' 8 24 ≠ 0 ∨ w.extractLsb' 0 8 ∉ listedOpcodes) (s : State) :
    issue w s = .next { s with err := .illegal } := by
  unfold issue
  cases hd : decode w with
  | ok i =>
    obtain ⟨hzero, hop⟩ := (decodes_iff w).mp ⟨i, hd⟩
    exact absurd h (by simp [hzero, hop])
  | error _ => exact raise_eq .illegal s

/-- Settles O2: `issue_undecodable`, and `decodes_iff` for the words left. -/
theorem undecodableWordRaisesIllegal : Obligations.UndecodableWordRaisesIllegal := by
  unfold Obligations.UndecodableWordRaisesIllegal
  exact ⟨fun w s h => ⟨issue_undecodable h s, rfl⟩, fun w hzero hop => (decodes_iff w).mpr ⟨hzero, hop⟩⟩

/-- Settles O3: seven of the words are `encode` of their commands; the decoder evaluates to the error on the others. -/
theorem sampleWordsDecode : Obligations.SampleWordsDecode := by
  unfold Obligations.SampleWordsDecode
  exact ⟨decode_encode .nop, decode_encode .rbWrite, decode_encode .rbDestroy, decode_encode .fit,
    decode_encode .rateApply, decode_encode .engInit, decode_encode .engRate, rfl, rfl, rfl, rfl⟩

/-- Settles O13: the word 0 is NOP's, and NOP is `done` alone. -/
theorem nopWritesOnlyErr : Obligations.NopWritesOnlyErr := by
  unfold Obligations.NopWritesOnlyErr
  exact ⟨decode_encode .nop, done_eq⟩

/-! The host's next access, whichever turn makes it. -/

theorem aligned32_word {off : BitVec 8} (ho : off.toNat % 4 = 0) (go : Out) : aligned32 .w32 off go = go := by
  simp [aligned32, ho]

/-- A write to CMD issues the word (30_encoding.md R84). -/
theorem hostOp_writeCmd (w : Word) (s : State) : hostOp (.write .w32 0 w) s = issue w s := rfl

/-- On a phase turn with nothing in its way, the step is the host's next access. -/
theorem step_phaseNext {s : State} {rest : List Turn} {op : HostOp} {hs : List HostOp} (hj : s.job = none)
    (hi : s.interruptEnabled = false) (hsched : s.env.sched = .phase :: rest) (hh : s.env.host = op :: hs) :
    step s = hostOp op { s with env := { s.env with sched := rest, phased := true, host := hs } } := by
  unfold step nextTurn
  rw [hsched]
  calc hostTurnOrWait true rest s
      = hostTurn ((s.setSched rest).setPhased true) := if_neg (by simp [hi])
    _ = _ := hostTurn_access (s := (s.setSched rest).setPhased true) hj hh

/-- With an empty schedule and nothing in its way, the step is the host's next access (log entry 3). -/
theorem step_defaultNext {s : State} {op : HostOp} {hs : List HostOp} (hj : s.job = none)
    (hi : s.interruptEnabled = false) (hsched : s.env.sched = []) (hh : s.env.host = op :: hs) :
    step s = hostOp op { s with env := { s.env with phased := false, host := hs } } := by
  have hready : s.hostReady = true := by simp [State.hostReady, hh]
  unfold step nextTurn
  rw [hsched]
  calc defaultTurn s
      = hostTurn (s.setPhased false) := by rw [defaultTurn, if_neg (by simp [hi]), if_pos hready]
    _ = _ := hostTurn_access (s := s.setPhased false) hj hh

/-- Settles O4: whichever turn it is, the step is `issue` of the word on `u`. -/
theorem stepRunsTheDecodedCommand : Obligations.StepRunsTheDecodedCommand := by
  unfold Obligations.StepRunsTheDecodedCommand
  intro s u w hs rest hj hi hh hturn
  have hstep : step s = issue w u := by
    rw [← hostOp_writeCmd]
    rcases hturn with ⟨hsched, rfl⟩ | ⟨hsched, rfl⟩ | ⟨hsched, rfl⟩
    · exact step_hostNext ⟨hj, hi, hsched⟩ hh
    · exact step_phaseNext hj hi hsched hh
    · exact step_defaultNext hj hi hsched hh
  rw [hstep]
  exact ⟨fun i hd => issue_decoded hd u, fun hbad => issue_undecodable hbad u⟩

/-- The placed command is the host's next access, on a whole turn of its own. -/
theorem withFetchWord_hostNext (s : State) (nbits w : Nat) : (s.withFetchWord nbits w).HostNext s.env.sched := by
  refine ⟨rfl, ?_, rfl⟩
  simp [State.withFetchWord, State.withCommand, State.interruptEnabled, State.entryEnabled]

theorem decodeTableWord_eq_some {nbits w : Nat} {i : Instr} (h : decodeTableWord nbits w = some i) :
    decode (BitVec.ofNat 32 (w % 2 ^ nbits)) = .ok i := by
  unfold decodeTableWord at h
  split at h
  · rename_i i' hd
    obtain rfl := Option.some.inj h
    exact hd
  · cases h

/-- Settles O5: the step takes back the turn and the access that `withFetchWord` places. -/
theorem placedWordRunsNext : Obligations.PlacedWordRunsNext := by
  unfold Obligations.PlacedWordRunsNext
  intro s nbits w i h
  rw [step_hostNext (withFetchWord_hostNext s nbits w) rfl, hostOp_writeCmd,
    issue_decoded (decodeTableWord_eq_some h)]
  rfl

/-! What the register window reads as, and what an access does. -/

/-- The fields of ENG_CFG (10_state.md R38). -/
theorem cfgWord_fields (e : Session) :
    e.cfgWord.extractLsb' 0 8 = e.pinL ∧ e.cfgWord.extractLsb' 8 8 = e.pinR ∧
      e.cfgWord.extractLsb' 16 2 = e.nch ∧ e.cfgWord.extractLsb' 18 14 = 0 := by
  unfold Session.cfgWord
  refine ⟨BitVec.extractLsb'_append_eq_right, ?_, ?_, ?_⟩
  · rw [BitVec.extractLsb'_append_eq_of_le (by decide)]
    exact BitVec.extractLsb'_append_eq_right
  · repeat rw [BitVec.extractLsb'_append_eq_of_le (by decide)]
    exact BitVec.extractLsb'_append_eq_right
  · repeat rw [BitVec.extractLsb'_append_eq_of_le (by decide)]
    exact BitVec.extractLsb'_eq_self

/-- The halves of OUT_LEVEL (10_state.md R44). -/
theorem stereo_word_fields (v : Stereo) :
    v.word.extractLsb' 0 16 = v.left ∧ v.word.extractLsb' 16 16 = v.right :=
  ⟨BitVec.extractLsb'_append_eq_right, BitVec.extractLsb'_append_eq_left⟩

/-- The reserved offsets past the last register (30_encoding.md R81). -/
theorem readReg_reserved {off : BitVec 8} (h : 0x58 ≤ off.toNat) (s : State) : s.readReg off = 0 := by
  unfold State.readReg
  split
  case h_22 => rfl
  all_goals omega

/-- Settles O9: the window offset by offset; the fields of ENG_CFG and OUT_LEVEL are the parts they are joined from,
and the narrow registers are widened with zeros. -/
theorem registerWindowReads : Obligations.RegisterWindowReads := by
  unfold Obligations.RegisterWindowReads
  intro s
  obtain ⟨hpinL, hpinR, hnch, hzero⟩ := cfgWord_fields s.sess
  obtain ⟨hleft, hright⟩ := stereo_word_fields s.eng.out
  exact ⟨rfl, rfl, rfl, rfl, rfl, rfl, rfl, rfl, rfl, rfl, rfl, rfl, rfl, rfl, hpinL, hpinR, hnch, hzero,
    BitVec.toNat_setWidth_of_le (by decide), BitVec.toNat_setWidth_of_le (by decide), rfl,
    BitVec.toNat_setWidth_of_le (by decide), rfl, rfl, hleft, hright, fun off h => readReg_reserved h s⟩

/-- A write stores into the ARG register at the offset, if there is one (30_encoding.md R82). -/
theorem argRegs_store_eq (g : ArgRegs) (off : BitVec 8) (v : Word) :
    g.store off v =
      ⟨if off = 0x08 then v else g.a0, if off = 0x0C then v else g.a1,
        if off = 0x10 then v else g.a2, if off = 0x14 then v else g.a3⟩ := by
  unfold ArgRegs.store
  split <;> simp_all [← BitVec.toNat_inj]

/-- A register read from any context (30_encoding.md R83). -/
theorem step_peek {s : State} {off : BitVec 8} {rest : List Turn} (ho : off.toNat % 4 = 0)
    (hsched : s.env.sched = .peek off :: rest) : step s = .next ((s.setSched rest).see (s.readReg off)) := by
  unfold step nextTurn
  rw [hsched]
  exact aligned32_word ho _

theorem writeReg_arg {off : BitVec 8} (h : off ≠ 0) (v : Word) (s : State) :
    writeReg off v s = .next { s with args := s.args.store off v } := if_neg h

theorem keptAs_readInto_self (name : Nat) (off : BitVec 8) (s : State) :
    (readInto name off s).keptAs name = s.readReg off := keptAs_keep_self name _ _

theorem keptAs_readInto_other {name other : Nat} (h : other ≠ name) (off : BitVec 8) (s : State) :
    (readInto name off s).keptAs other = s.keptAs other := keptAs_keep_other h _ _

/-- Settles O10: each access is `hostOp` of an aligned offset on the state whose turn is taken. -/
theorem registerAccessEffects : Obligations.RegisterAccessEffects := by
  unfold Obligations.RegisterAccessEffects
  intro s off v hs rest ho
  refine ⟨step_peek ho, fun hn hh => ?_, fun hn hh h0 => ?_, fun name => ⟨fun hn hh => ?_, fun hn hh hk => ?_⟩⟩
  · rw [step_hostNext hn hh]
    exact aligned32_word ho _
  · rw [step_hostNext hn hh, ← argRegs_store_eq]
    exact (aligned32_word ho _).trans (writeReg_arg h0 v _)
  · rw [step_hostNext hn hh]
    exact ⟨_, aligned32_word ho _, keptAs_readInto_self name off _, fun other h => keptAs_readInto_other h off _, rfl⟩
  · rw [step_hostNext hn hh,
      step_hostNext (s := { s with env := { s.env with host := .write .w32 off v :: hs } }) hn rfl, ← hk]
    rfl

/-! `CHK`. -/

theorem errCode_code_eq_zero_iff (e : ErrCode) : e.code = 0 ↔ e = .ok := by
  cases e <;> decide

/-- `CHK` tests the ERR field of the STATUS word it reads (30_encoding.md R91). -/
theorem statusWord_err_eq_zero_iff (s : State) : s.statusWord.extractLsb' 0 4 = 0 ↔ s.err = .ok := by
  obtain ⟨herr, _, _⟩ := statusWord_fields s
  rw [herr, errCode_code_eq_zero_iff]

/-- `CHK` reads and keeps STATUS, whether or not the program goes on. -/
theorem checkStatus_eq (s : State) :
    checkStatus s = { s with
      env := { s.env with
        reads := s.statusWord :: s.env.reads
        kept := (statusName, s.statusWord) :: s.env.kept
        host := if s.statusWord.extractLsb' 0 4 = 0 then s.env.host else [] } } := by
  simp only [statusWord_err_eq_zero_iff]
  unfold checkStatus
  split <;> rfl

/-- Settles O50: `checkStatus` on the state without the access and the turn. -/
theorem checkStopsTheProgramOnError : Obligations.CheckStopsTheProgramOnError := by
  unfold Obligations.CheckStopsTheProgramOnError
  intro s hs rest hn hh
  rw [step_hostNext hn hh]
  exact congrArg Host.Outcome.next (checkStatus_eq _)

end Sys2Proof.Machine

namespace Sys2Proof.Machine

/-! What a command can end in: one inversion lemma for `exec`. -/

/-- `t` differs from `s` at most in STATUS.ERR, the RES registers and RATE_SCALE: what a command that only reports
changes. -/
def ReportFrame (s t : State) : Prop := ∃ e r k, t = { s with err := e, res := r, rateScale := k }

/-- The ends of a command issued in state `s`, with the conditions under which its pseudocode reaches them. -/
inductive CommandEnd (s : State) : State → Prop where
  /-- An error, or a command that only reports. -/
  | report {t : State} (h : ReportFrame s t) : CommandEnd s t
  /-- RB.INIT, ERR_ALLOC (R101). -/
  | allocFailed : CommandEnd s (s.tookAlloc.setErr .alloc)
  /-- RB.INIT with its new ring (R101). -/
  | allocated (hp : s.ring.present = false) (hc : 2 ≤ s.args.a0.toNat) :
      CommandEnd s (((s.tookAlloc.allocRing s.args.a0).setRes0 s.args.a0).setErr .ok)
  /-- RB.WRITE from its SNAPSHOT on (R102). -/
  | write {t : State} (hp : s.ring.present = true) (h : ringStart (writeJob s) s = .next t) : CommandEnd s t
  /-- RB.READ from its SNAPSHOT on (R103). -/
  | read {t : State} (hp : s.ring.present = true) (hd : s.draining = false)
      (h : ringStart (readJob s) s = .next t) : CommandEnd s t
  /-- RB.CLEAR (R107). -/
  | cleared (hp : s.ring.present = true) :
      CommandEnd s (({ s with ring := { s.ring with rd := 0, wr := 0 } } : State).setErr .ok)
  /-- RB.DESTROY (R108). -/
  | destroyed : CommandEnd s (({ s with ring := Ring.absent } : State).setErr .ok)
  /-- ENG.INIT with its new session (42_engine.md R162). -/
  | session (c : Fitted) (hrun : s.eng.running = false) (hnch : s.args.a3 = 1 ∨ s.args.a3 = 2)
      (hfit : fit s.cfg s.args.a2.toNat s.cfg.sysClkHz = some c) :
      CommandEnd s ((({ s with sess := newSession s c, eng := freshEngine s (silence c.wrap) } :
        State).setFitted c s.cfg.sysClkHz).setErr .ok)
  /-- ENG.SETPROV (42_engine.md R163). -/
  | provider (hrun : s.eng.running = false) (hconf : s.sess.configured = true) :
      CommandEnd s (({ s with eng := { s.eng with prov := Prov.ofWord s.args.a0 } } : State).setErr .ok)
  /-- ENG.START (42_engine.md R164). -/
  | started (hconf : s.sess.configured = true) (hprov : s.eng.prov ≠ .none) :
      CommandEnd s ((startOutput (fill .b1 (fill .b0 s.tookClaim))).setErr .ok)
  /-- ENG.START, ERR_RESOURCE (42_engine.md R164). -/
  | claimFailed : CommandEnd s (s.tookClaim.setErr .resource)
  /-- ENG.STOP (42_engine.md R165). -/
  | stopped :
      CommandEnd s (({ s with
        eng := if s.sess.configured then s.eng.halted.silenced (silence s.sess.wrap.toNat) else s.eng.halted } :
        State).setErr .ok)

theorem ensures_cond {P : State → Prop} {c : Prop} [Decidable c] {o o' : Out} (h : c → Ensures P o)
    (h' : ¬ c → Ensures P o') : Ensures P (if c then o else o') := by
  split
  · exact h ‹_›
  · exact h' ‹_›

theorem reportFrame_setErr (s : State) (e : ErrCode) : ReportFrame s (s.setErr e) := ⟨e, s.res, s.rateScale, rfl⟩

section
variable (s : State)

theorem raise_end (e : ErrCode) : Ensures (CommandEnd s) (raise e s) :=
  ensures_raise e (.report (reportFrame_setErr s e))

theorem execRbInit_end : Ensures (CommandEnd s) (execRbInit s) := by
  refine ensures_cond (fun _ => raise_end s .state) fun hp => ?_
  refine ensures_cond (fun _ => raise_end s .config) fun hc => ?_
  exact ensures_ite (ensures_done (.allocated (by simpa using hp) (by omega))) (ensures_raise .alloc .allocFailed)

theorem execRbWrite_end : Ensures (CommandEnd s) (execRbWrite s) :=
  ensures_cond (fun hp _ h => .write hp h) fun _ => raise_end s .state

theorem execRbRead_end : Ensures (CommandEnd s) (execRbRead s) := by
  refine ensures_cond (fun _ => raise_end s .state) fun hp => ?_
  refine ensures_cond (fun _ => raise_end s .state) fun hd => ?_
  exact fun _ h => .read (by simpa using hp) (by simpa using hd) h

theorem execRbClear_end : Ensures (CommandEnd s) (execRbClear s) := by
  refine ensures_cond (fun _ => raise_end s .state) fun hp => ?_
  exact ensures_ite (raise_end s .state) (ensures_done (.cleared (by simpa using hp)))

theorem execRbDestroy_end : Ensures (CommandEnd s) (execRbDestroy s) :=
  ensures_ite (raise_end s .ok) (ensures_ite (raise_end s .state) (ensures_done .destroyed))

theorem execFit_end : Ensures (CommandEnd s) (execFit s) := by
  unfold execFit
  cases fit s.cfg s.args.a0.toNat s.args.a1.toNat with
  | none => exact raise_end s .config
  | some c => exact ensures_done (.report ⟨_, _, _, rfl⟩)

theorem execRateSet_end : Ensures (CommandEnd s) (execRateSet s) := by
  obtain ⟨v, hscale⟩ : ∃ v, scaleOf s.cfg s.args.a0.toNat = v := ⟨_, rfl⟩
  rw [execRateSet_of_scale hscale]
  exact ensures_done (.report ⟨_, _, _, rfl⟩)

theorem execEngInit_end : Ensures (CommandEnd s) (execEngInit s) := by
  refine ensures_cond (fun _ => raise_end s .state) fun hrun => ?_
  refine ensures_cond (fun _ => raise_end s .config) fun hnch => ?_
  refine ensures_ite (raise_end s .config) ?_
  cases hfit : fit s.cfg s.args.a2.toNat s.cfg.sysClkHz with
  | none => exact raise_end s .config
  | some c => exact ensures_done (.session c (by simpa using hrun) (by tauto) hfit)

theorem execEngSetprov_end : Ensures (CommandEnd s) (execEngSetprov s) := by
  refine ensures_cond (fun _ => raise_end s .state) fun hready => ?_
  obtain ⟨hrun, hconf⟩ : s.eng.running = false ∧ s.sess.configured = true := by simpa using hready
  exact ensures_ite (raise_end s .config) (ensures_done (.provider hrun hconf))

theorem execEngStart_end : Ensures (CommandEnd s) (execEngStart s) := by
  refine ensures_cond (fun _ => raise_end s .state) fun hready => ?_
  obtain ⟨_, hconf⟩ : s.eng.running = false ∧ s.sess.configured = true := by simpa using hready
  refine ensures_cond (fun _ => raise_end s .state) fun hprov => ?_
  exact ensures_ite (ensures_done (.started hconf hprov)) (ensures_raise .resource .claimFailed)

end

/-- Every command ends in one of the ways `CommandEnd` lists. -/
theorem exec_end {i : Instr} {s t : State} (h : exec i s = .next t) : CommandEnd s t := by
  suffices he : Ensures (CommandEnd s) (exec i s) from he t h
  cases i with
  | rbInit => exact execRbInit_end s
  | rbWrite => exact execRbWrite_end s
  | rbRead => exact execRbRead_end s
  | rbClear => exact execRbClear_end s
  | rbDestroy => exact execRbDestroy_end s
  | fit => exact execFit_end s
  | rateSet => exact execRateSet_end s
  | engInit => exact execEngInit_end s
  | engSetprov => exact execEngSetprov_end s
  | engStart => exact execEngStart_end s
  | engStop => exact ensures_done .stopped
  | nop | rbUsed | rbFree | rateApply | engUnderruns | engRate => exact ensures_done (.report ⟨_, _, _, rfl⟩)

/-! The phases of a ring command, one equation each. -/

section
variable {s : State} {j : RingJob}

theorem ringPhase_copyIn (hd : j.dir = .intoRing) (hm : j.moved < j.total) : ringPhase j s = copyIn j s := by
  unfold ringPhase
  rw [hd]
  exact if_pos hm

theorem ringPhase_publishIn (hd : j.dir = .intoRing) (hm : ¬ j.moved < j.total) :
    ringPhase j s = publishIn j s := by
  unfold ringPhase
  rw [hd]
  exact if_neg hm

theorem ringPhase_copyOut (hd : j.dir = .outOfRing) (hm : j.moved < j.total) : ringPhase j s = copyOut j s := by
  unfold ringPhase
  rw [hd]
  exact if_pos hm

theorem ringPhase_publishOut (hd : j.dir = .outOfRing) (hm : ¬ j.moved < j.total) :
    ringPhase j s = publishOut j s := by
  unfold ringPhase
  rw [hd]
  exact if_neg hm

theorem copyOut_admitted (ha : admits s.cfg (busByte j.addr j.moved) = true) :
    copyOut j s = { s with
      mem := s.mem.write (busByte j.addr j.moved).toNat (s.ring.byteAt j.cur j.moved)
      job := some { j with moved := j.moved + 1 } } := if_pos ha

theorem copyOut_refused (ha : ¬ admits s.cfg (busByte j.addr j.moved) = true) :
    copyOut j s = { s with err := .bus, job := none } := if_neg ha

theorem ringRun_succ (n : Nat) (hj : s.job = some j) : ringRun (n + 1) s = ringRun n (ringPhase j s) := by
  simp [ringRun, hj]

end

/-! What the phases of a ring command make of the waiting bytes. -/

theorem content_absent : Ring.absent.content = [] := rfl

/-- With both cursors at 0 no byte is waiting. -/
theorem content_cleared (r : Ring) : ({ r with rd := 0, wr := 0 } : Ring).content = [] :=
  List.eq_nil_of_length_eq_zero (by rw [content_length, used_cleared])

section
variable {s : State} {j : RingJob}

/-- The SNAPSHOT of RB.WRITE is within the free bytes (40_ring_buffer.md R102). -/
theorem writeJob_ok (hp : s.ring.present = true) : State.JobOk { s with job := some (writeJob s) } :=
  (jobOk_intoRing rfl rfl).mpr ⟨hp, Nat.zero_le _, rfl, Nat.min_le_right _ _⟩

/-- The SNAPSHOT of RB.READ is within the waiting bytes (40_ring_buffer.md R103). -/
theorem readJob_ok (hp : s.ring.present = true) (hd : s.draining = false) :
    State.JobOk { s with job := some (readJob s) } :=
  (jobOk_outOfRing rfl rfl).mpr ⟨hp, Nat.zero_le _, rfl, Nat.min_le_right _ _, hd⟩

/-- COPY of RB.WRITE, refused or not, stores into the free region alone (40_ring_buffer.md R102). -/
theorem copyIn_content (hok : s.ring.Ok) (hp : s.ring.present = true) (hcur : j.cur = s.ring.wr)
    (hm : j.moved < s.ring.free) : (copyIn j s).ring.content = s.ring.content := by
  by_cases ha : admits s.cfg (busByte j.addr j.moved) = true
  · rw [copyIn_admitted ha, hcur]
    exact content_putAt_free hok hp hm _
  · rw [copyIn_refused ha, hcur]
    exact content_smear_free hok hp hm.le

theorem copyOut_ring (j : RingJob) (s : State) : (copyOut j s).ring = s.ring := by
  unfold copyOut
  split <;> rfl

theorem unpublished_intoRing (hj : s.job = some j) (hd : j.dir = .intoRing) :
    s.unpublished = (List.range j.moved).map (s.ring.byteAt j.cur) := by
  simp [State.unpublished, hj, hd]

/-- PUBLISH of RB.WRITE appends what it has copied (40_ring_buffer.md R102). -/
theorem publishIn_content (hok : s.ring.Ok) (hp : s.ring.present = true) (hcur : j.cur = s.ring.wr)
    (htot : j.total ≤ s.ring.free) :
    (publishIn j s).ring.content = s.ring.content ++ (List.range j.total).map (s.ring.byteAt j.cur) := by
  rw [hcur, ← content_publish hok hp htot, publishIn, hcur]

/-- PUBLISH of RB.READ drops what it has copied (40_ring_buffer.md R103). -/
theorem publishOut_content (hok : s.ring.Ok) (hp : s.ring.present = true) (hcur : j.cur = s.ring.rd)
    (htot : j.total ≤ s.ring.used) : (publishOut j s).ring.content = s.ring.content.drop j.total := by
  rw [← content_consume hok hp htot, publishOut, hcur]

end

/-- Bytes are appended at the back, or dropped from the front. -/
def FifoStep (l l' : List Byte) : Prop := (∃ x, l' = l ++ x) ∨ ∃ n, l' = l.drop n

theorem fifoStep_of_eq {l l' : List Byte} (h : l' = l) : FifoStep l l' := .inr ⟨0, h⟩

theorem fifoStep_nil (l : List Byte) : FifoStep l [] := .inr ⟨l.length, by simp⟩

/-- A phase before the last leaves the waiting bytes alone; the last one moves them as a queue. -/
theorem ringPhase_fifo {s : State} {j : RingJob} (hok : s.ring.Ok) (hjob : s.JobOk) (hj : s.job = some j) :
    (ringPhase j s).ring.content = s.ring.content ∨
      ((ringPhase j s).job = none ∧ FifoStep s.ring.content (ringPhase j s).ring.content) := by
  cases hd : j.dir with
  | intoRing =>
    obtain ⟨hp, _, hcur, htot⟩ := (jobOk_intoRing hj hd).mp hjob
    by_cases hm : j.moved < j.total
    · rw [ringPhase_copyIn hd hm]
      exact .inl (copyIn_content hok hp hcur (by omega))
    · rw [ringPhase_publishIn hd hm]
      exact .inr ⟨rfl, .inl ⟨_, publishIn_content hok hp hcur htot⟩⟩
  | outOfRing =>
    obtain ⟨hp, _, hcur, htot, _⟩ := (jobOk_outOfRing hj hd).mp hjob
    by_cases hm : j.moved < j.total
    · rw [ringPhase_copyOut hd hm, copyOut_ring]
      exact .inl rfl
    · rw [ringPhase_publishOut hd hm]
      exact .inr ⟨rfl, .inr ⟨_, publishOut_content hok hp hcur htot⟩⟩

theorem ringRun_fifo (n : Nat) {s : State} (hok : s.ring.Ok) (hjob : s.JobOk) :
    FifoStep s.ring.content (ringRun n s).ring.content := by
  induction n generalizing s with
  | zero => exact fifoStep_of_eq rfl
  | succ n ih =>
    cases hj : s.job with
    | none => rw [ringRun_idle hj]; exact fifoStep_of_eq rfl
    | some j =>
      obtain ⟨hok', hjob'⟩ := ringPhase_ok hok hjob hj
      rw [ringRun_succ n hj]
      rcases ringPhase_fifo hok hjob hj with hsame | ⟨hend, hstep⟩
      · rw [← hsame]; exact ih hok' hjob'
      · rw [ringRun_idle hend]; exact hstep

theorem ringResume_fifo {s : State} {j : RingJob} (hok : s.ring.Ok) (hjob : s.JobOk) (hj : s.job = some j) :
    FifoStep s.ring.content (ringResume j s).ring.content := by
  unfold ringResume
  split
  · exact (ringPhase_fifo hok hjob hj).elim fifoStep_of_eq fun ⟨_, h⟩ => h
  · exact ringRun_fifo _ hok hjob

theorem ringStart_fifo {s t : State} {j : RingJob} (hok : s.ring.Ok)
    (hjob : State.JobOk { s with job := some j }) (h : ringStart j s = .next t) :
    FifoStep s.ring.content t.ring.content := by
  suffices he : Ensures (fun t => FifoStep s.ring.content t.ring.content) (ringStart j s) from he t h
  exact ensures_ite (ensures_next (fifoStep_of_eq rfl)) (ensures_next (ringRun_fifo _ hok hjob))

/-! What a provider makes of the waiting bytes. -/

/-- A provider leaves the ring alone, or is the ring-drain one and moves RB_RD over waiting bytes (42_engine.md
R190 to R192). -/
theorem request_ring (max : Nat) (s : State) :
    (request max s).after.ring = s.ring ∨
      (s.eng.prov = .ring ∧ s.ring.present = true ∧ ∃ n ≤ s.ring.used,
        (request max s).after.ring = { s.ring with rd := s.ring.advance s.ring.rd n }) := by
  unfold request
  cases hprov : s.eng.prov with
  | none => exact .inl rfl
  | external => exact .inl rfl
  | ring =>
    cases hp : s.ring.present with
    | false => exact .inl (by simp [drainRing, hp])
    | true => exact .inr ⟨rfl, rfl, _, drainCount_bytes_le max s, by simp [drainRing, hp]⟩

theorem fill_ring (b : Slot) (s : State) : (fill b s).ring = (request s.cfg.batch s).after.ring := rfl

/-- A fill takes waiting bytes from the front, if any (42_engine.md R170, R190). -/
theorem fill_content (b : Slot) {s : State} (hok : s.ring.Ok) :
    ∃ n, (fill b s).ring.content = s.ring.content.drop n := by
  rcases request_ring s.cfg.batch s with hsame | ⟨_, hp, n, hn, hring⟩
  · exact ⟨0, by rw [fill_ring, hsame, List.drop_zero]⟩
  · exact ⟨n, by rw [fill_ring, hring, content_consume hok hp hn]⟩

theorem interruptStep_content {s : State} (hok : s.ring.Ok) :
    ∃ n, (interruptStep s).ring.content = s.ring.content.drop n := by
  rcases interruptStep_cases s with ⟨_, e⟩ | ⟨_, _, _, e⟩ | ⟨_, e⟩
  · rw [e]; exact fill_content s.eng.fillTgt hok
  · rw [e]; exact ⟨0, rfl⟩
  · rw [e]; exact ⟨0, rfl⟩

/-! Every step treats the waiting bytes as a queue. -/

theorem exec_fifo {i : Instr} {s t : State} (hok : s.ring.Ok) (h : exec i s = .next t) :
    FifoStep s.ring.content t.ring.content := by
  cases exec_end h with
  | report hframe =>
    obtain ⟨_, _, _, rfl⟩ := hframe
    exact fifoStep_of_eq rfl
  | allocated hp hc =>
    rw [ringOk_absent hok hp, content_absent]
    exact fifoStep_of_eq (content_cleared (s.tookAlloc.allocRing s.args.a0).ring)
  | write hp hstart => exact ringStart_fifo hok (writeJob_ok hp) hstart
  | read hp hd hstart => exact ringStart_fifo hok (readJob_ok hp hd) hstart
  | cleared hp =>
    have hnil := content_cleared s.ring
    simp only [setErr_ring, hnil]
    exact fifoStep_nil _
  | destroyed => exact fifoStep_nil _
  | started hconf hprov =>
    have hok0 := fill_ringOk .b0 (s := s.tookClaim) hok
    obtain ⟨n, hn⟩ := fill_content .b0 (s := s.tookClaim) hok
    obtain ⟨m, hm⟩ := fill_content .b1 hok0
    exact .inr ⟨n + m, by simpa [hn, List.drop_drop] using hm⟩
  | allocFailed | session | provider | claimFailed | stopped => exact fifoStep_of_eq rfl

theorem checkStatus_ring (s : State) : (checkStatus s).ring = s.ring := by
  unfold checkStatus
  split <;> rfl

theorem hostOp_fifo {op : HostOp} {s t : State} (hok : s.ring.Ok) (h : hostOp op s = .next t) :
    FifoStep s.ring.content t.ring.content := by
  rcases hostOp_cases h with ⟨_, _, rfl⟩ | ⟨_, _, _, rfl⟩ | ⟨_, rfl⟩ | ⟨_, _, _, _, rfl⟩ | ⟨v, _, hi⟩
  · exact fifoStep_of_eq rfl
  · exact fifoStep_of_eq rfl
  · exact fifoStep_of_eq (by rw [checkStatus_ring])
  · exact fifoStep_of_eq rfl
  · rcases issue_cases hi with ⟨_, _, hx⟩ | rfl
    · exact exec_fifo hok hx
    · exact fifoStep_of_eq rfl

theorem hostTurn_fifo {s t : State} (hok : s.ring.Ok) (hjob : s.JobOk) (h : hostTurn s = .next t) :
    FifoStep s.ring.content t.ring.content := by
  rcases hostTurn_cases h with ⟨j, hj, rfl⟩ | ⟨_, op, hs, _, ho⟩ | ⟨_, _, rfl⟩
  · exact ringResume_fifo hok hjob hj
  · exact hostOp_fifo (s := { s with env := { s.env with host := hs } }) hok ho
  · exact fifoStep_of_eq rfl

theorem clockTurn_ring (s : State) : (clockTurn s).ring = s.ring := by
  obtain ⟨_, _, _, _, h⟩ := clockTurn_frame s
  rw [h]

/-- Settles O58, turn by turn: the host's commands by `hostTurn_fifo`, the engine by `interruptStep_content`. -/
theorem ringStaysAFifoQueue : Obligations.RingStaysAFifoQueue := by
  unfold Obligations.RingStaysAFifoQueue
  intro s t hinv h
  obtain ⟨_, _, hok, hjob, _⟩ := hinv
  suffices hstep : FifoStep s.ring.content t.ring.content from hstep
  obtain ⟨_, ⟨l, p, rfl⟩, rfl | rfl | ⟨_, hh⟩ | ⟨_, _, _, rfl⟩ | ⟨_, _, _, _, rfl⟩ | ⟨_, _, rfl⟩⟩ := step_cases h
  · exact fifoStep_of_eq (by rw [clockTurn_ring])
  · exact .inr (interruptStep_content (s := (s.setSched l).setPhased p) hok)
  · exact hostTurn_fifo (s := (s.setSched l).setPhased p) hok hjob hh
  · exact fifoStep_of_eq rfl
  · exact fifoStep_of_eq rfl
  · exact fifoStep_nil _

end Sys2Proof.Machine

namespace Sys2Proof.Machine

/-! The parts of the invariant, and what each depends on. -/

/-- The bounds of 00_scope.md R7 that the invariant's proof uses. -/
theorem params_bounds {p : Config.Params} (h : p.wf = true) :
    1 ≤ p.wrapMin ∧ p.wrapMax ≤ 65535 ∧ 1 ≤ p.batch := by
  simp only [Config.Params.wf, Bool.and_eq_true, decide_eq_true_eq] at h
  obtain ⟨⟨⟨⟨⟨⟨⟨⟨hmin, _⟩, hmax⟩, _⟩, _⟩, hbatch⟩, _⟩, _⟩, _⟩ := h
  exact ⟨hmin, hmax, hbatch⟩

/-- `t` meets the invariant and has the parameters of `s`. -/
def State.Keeps (s t : State) : Prop := t.Inv ∧ t.cfg = s.cfg

theorem State.Keeps.trans {s t u : State} (h : s.Keeps t) (h' : t.Keeps u) : s.Keeps u :=
  ⟨h'.1, h'.2.trans h.2⟩

/-- A change of the ring, of system memory, and of what the invariant does not speak of. -/
theorem keeps_of_ring {s t : State} (h : s.Inv) (hcfg : t.cfg = s.cfg) (hsess : t.sess = s.sess)
    (heng : t.eng = s.eng) (hmem : t.mem.wf = true) (hring : t.ring.Ok) (hjob : t.JobOk) : s.Keeps t := by
  obtain ⟨hwf, _, _, _, hs, he, hl⟩ := h
  refine ⟨⟨hcfg ▸ hwf, hmem, hring, hjob, ?_, ?_, ?_⟩, hcfg⟩
  · unfold State.SessionOk at hs ⊢
    rwa [hsess, hcfg, heng]
  · unfold State.EngineOk at he ⊢
    rwa [hcfg, heng]
  · unfold State.LevelsOk at hl ⊢
    rwa [hsess, hcfg, heng]

/-- A change of the ring, the session and the engine, whose parts of the invariant are given. -/
theorem keeps_of_engine {s t : State} (h : s.Inv) (hcfg : t.cfg = s.cfg) (hmem : t.mem = s.mem)
    (hring : t.ring.Ok) (hjob : t.JobOk) (hs : t.SessionOk) (he : t.EngineOk) (hl : t.LevelsOk) : s.Keeps t := by
  obtain ⟨hwf, hm, _⟩ := h
  exact ⟨⟨hcfg ▸ hwf, hmem ▸ hm, hring, hjob, hs, he, hl⟩, hcfg⟩

/-- A configured session's registers speak of no engine state. -/
theorem sessionOk_congr {s t : State} (hconf : s.sess.configured = true) (hcfg : t.cfg = s.cfg)
    (hsess : t.sess = s.sess) (h : s.SessionOk) : t.SessionOk := by
  unfold State.SessionOk at h ⊢
  rw [hsess, hcfg]
  simpa only [hconf, if_true] using h

theorem sessionOk_unset {s : State} (hconf : s.sess.configured = false) :
    s.SessionOk ↔ s.sess = Session.unset ∧ s.eng.prov = .none ∧ s.eng.running = false ∧ s.eng.underrun = 0 := by
  simp [State.SessionOk, hconf]

theorem sessionOk_wrap {s : State} (hconf : s.sess.configured = true) (h : s.SessionOk) :
    s.cfg.wrapMin ≤ s.sess.wrap.toNat := by
  simp only [State.SessionOk, hconf, if_true] at h
  obtain ⟨_, hwrap, _⟩ := h
  exact hwrap

/-- Only a configured session runs (10_state.md R32). -/
theorem configured_of_running {s : State} (h : s.SessionOk) (hrun : s.eng.running = true) :
    s.sess.configured = true := by
  by_contra hconf
  obtain ⟨_, _, hstop, _⟩ := (sessionOk_unset (by simpa using hconf)).mp h
  simp [hstop] at hrun

/-- A stopped engine has no transfer armed, no completion pending and is not in its handler (42_engine.md R201). -/
theorem engineOk_stopped {s : State} (h : s.EngineOk) (hrun : s.eng.running = false) :
    s.eng.outEn = false ∧ s.eng.dmaClaimed = false ∧ s.eng.armed = false ∧ s.eng.irqPend = false ∧
      s.eng.inHandler = false := by
  obtain ⟨hout, hdma, _, harm, hirq, hin, _⟩ := h
  simp only [hrun] at hout hdma harm hirq hin
  exact ⟨hout, hdma, by simpa using harm, by simpa using hirq, by simpa using hin⟩

/-- What a stopped engine's control state comes to. -/
theorem engineOk_of_stopped {s : State} (hrun : s.eng.running = false) (hout : s.eng.outEn = false)
    (hdma : s.eng.dmaClaimed = false) (harm : s.eng.armed = false) (hirq : s.eng.irqPend = false)
    (hin : s.eng.inHandler = false) (hidx : s.eng.dmaIdx ≤ s.cfg.batch) : s.EngineOk := by
  simp [State.EngineOk, hrun, hout, hdma, harm, hirq, hin, hidx]

theorem engineOk_dmaIdx {s : State} (h : s.EngineOk) : s.eng.dmaIdx ≤ s.cfg.batch := by
  obtain ⟨_, _, _, _, _, _, _, hidx⟩ := h
  exact hidx

theorem levelsOk_iff {s : State} : s.LevelsOk ↔
    s.eng.buf0.Ok s.cfg.batch s.sess.wrap ∧ s.eng.buf1.Ok s.cfg.batch s.sess.wrap ∧
      (s.eng.last.left.toNat ≤ s.sess.wrap.toNat ∧ s.eng.last.right.toNat ≤ s.sess.wrap.toNat) ∧
      s.eng.out.left.toNat ≤ s.sess.wrap.toNat ∧ s.eng.out.right.toNat ≤ s.sess.wrap.toNat := by
  simp [State.LevelsOk, levelsWithin, and_assoc]

theorem bank_fillWith_ok {n : Nat} {v : Stereo} {wrap : BitVec 16} (hl : v.left.toNat ≤ wrap.toNat)
    (hr : v.right.toNat ≤ wrap.toNat) : (Bank.fillWith n v).Ok n wrap := by
  refine ⟨List.length_replicate, List.length_replicate, fun x hx => ?_, fun x hx => ?_⟩
  · rw [List.eq_of_mem_replicate hx]; exact hl
  · rw [List.eq_of_mem_replicate hx]; exact hr

/-- The silence level is in range, as no wrap is 0 (42_engine.md R160). -/
theorem silence_le {w : Nat} (h1 : 1 ≤ w) (h2 : w ≤ 65535) : (silence w).toNat ≤ w := by
  rw [silence_toNat h2]; omega

theorem levelsWithin_getD {wrap : BitVec 16} {l : List Level} (h : levelsWithin wrap l) (i : Nat) :
    (l.getD i 0).toNat ≤ wrap.toNat := by
  rw [List.getD_eq_getElem?_getD]
  cases hi : l[i]? with
  | none => exact Nat.zero_le _
  | some v => exact h v (List.mem_of_getElem? hi)

/-! The ring command in progress. -/

/-- Taking waiting bytes leaves that many fewer. -/
theorem used_consume {r : Ring} (hok : r.Ok) (hp : r.present = true) {n : Nat} (hn : n ≤ r.used) :
    ({ r with rd := r.advance r.rd n } : Ring).used = r.used - n := by
  rw [← content_length, content_consume hok hp hn, List.length_drop, content_length]

/-- A fill leaves the engine's control state alone (42_engine.md R170). -/
theorem fill_eng_frame (b : Slot) (s : State) :
    ∃ k0 k1, (fill b s).eng =
      { s.eng with buf0 := k0, buf1 := k1, last := fillLast s, underrun := fillUnderrun s } := by
  cases b <;> exact ⟨_, _, rfl⟩

theorem fill_job (b : Slot) (s : State) : (fill b s).job = s.job := by
  obtain ⟨_, _, _, h⟩ := fill_frame b s
  rw [h]

theorem fill_cfg (b : Slot) (s : State) : (fill b s).cfg = s.cfg := by
  obtain ⟨_, _, _, h⟩ := fill_frame b s
  rw [h]

theorem fill_sess (b : Slot) (s : State) : (fill b s).sess = s.sess := by
  obtain ⟨_, _, _, h⟩ := fill_frame b s
  rw [h]

theorem fill_draining (b : Slot) (s : State) : (fill b s).draining = s.draining := by
  obtain ⟨_, _, h⟩ := fill_eng_frame b s
  simp only [State.draining, h]

/-- A command in progress whose engine control state, parameters and ring are as they were keeps its bounds. -/
theorem jobOk_congr {s t : State} (hring : t.ring = s.ring) (hjob : t.job = s.job) (hdr : t.draining = s.draining)
    (h : s.JobOk) : t.JobOk := by
  unfold State.JobOk at h ⊢
  rwa [hring, hjob, hdr]

/-- A fill of a running engine frees bytes for an RB.WRITE in progress, and takes none from an RB.READ, which a draining
engine excludes (40_ring_buffer.md R104, R109). -/
theorem fill_jobOk (b : Slot) {s : State} (hok : s.ring.Ok) (hrun : s.eng.running = true) (h : s.JobOk) :
    (fill b s).JobOk := by
  rcases request_ring s.cfg.batch s with hsame | ⟨hprov, hp, n, hn, hring⟩
  · exact jobOk_congr hsame (fill_job b s) (fill_draining b s) h
  · cases hj : s.job with
    | none => exact jobOk_idle ((fill_job b s).trans hj)
    | some j =>
      have hj' := (fill_job b s).trans hj
      cases hd : j.dir with
      | intoRing =>
        obtain ⟨_, hm, hcur, htot⟩ := (jobOk_intoRing hj hd).mp h
        have hfree : s.ring.free ≤ (fill b s).ring.free := by
          rw [fill_ring, hring]
          simp only [Ring.free, used_consume hok hp hn]
          omega
        refine (jobOk_intoRing hj' hd).mpr ⟨?_, hm, ?_, htot.trans hfree⟩
        · rw [fill_ring, hring]; exact hp
        · rw [fill_ring, hring]; exact hcur
      | outOfRing =>
        obtain ⟨_, _, _, _, hdr⟩ := (jobOk_outOfRing hj hd).mp h
        simp [State.draining, hprov, hrun] at hdr

/-! The engine's steps. -/

/-- A fill keeps the buffers' and levels' part of the invariant (42_engine.md R161 (c), R202). -/
theorem fill_levelsOk (b : Slot) {s : State} (h : s.LevelsOk) : (fill b s).LevelsOk := by
  obtain ⟨h0, h1, hlast, hout⟩ := levelsOk_iff.mp h
  obtain ⟨hleft, hright, hlast'⟩ := fill_levels hlast
  obtain ⟨hlenL, hlenR⟩ := fillBank_length s
  have hnew : (fillBank s).Ok s.cfg.batch s.sess.wrap := ⟨hlenL, hlenR, hleft, hright⟩
  rw [levelsOk_iff, fill_cfg, fill_sess, fill_eng]
  cases b with
  | b0 => exact ⟨hnew, h1, hlast', hout⟩
  | b1 => exact ⟨h0, hnew, hlast', hout⟩

theorem fill_engineOk (b : Slot) {s : State} (h : s.EngineOk) : (fill b s).EngineOk := by
  obtain ⟨_, _, heng⟩ := fill_eng_frame b s
  unfold State.EngineOk at h ⊢
  rw [heng, fill_cfg]
  exact h

/-- A fill of a running engine keeps the invariant (42_engine.md R170). -/
theorem fill_keeps (b : Slot) {s : State} (h : s.Inv) (hrun : s.eng.running = true) : s.Keeps (fill b s) := by
  have hparts := h
  obtain ⟨_, _, hok, hjob, hs, he, hl⟩ := hparts
  exact keeps_of_engine h (fill_cfg b s) (fill_mem b s) (fill_ringOk b hok) (fill_jobOk b hok hrun hjob)
    (sessionOk_congr (configured_of_running hs hrun) (fill_cfg b s) (fill_sess b s) hs) (fill_engineOk b he)
    (fill_levelsOk b hl)

/-- Return from the interrupt (60_exceptions.md R229). -/
theorem interruptReturn_keeps {s : State} (h : s.Inv) : s.Keeps (interruptReturn s) := by
  have hparts := h
  obtain ⟨_, _, hok, hjob, hs, he, hl⟩ := hparts
  obtain ⟨hout, hdma, hprov, harm, hirq, _, hor, hidx⟩ := he
  exact keeps_of_engine h rfl rfl hok hjob hs ⟨hout, hdma, hprov, harm, hirq, by simp, hor, hidx⟩ hl

/-- Completion entry hands the other buffer to the output and this one to the handler (42_engine.md R180, R201). -/
theorem interruptEntry_keeps {s : State} (h : s.Inv) (hrun : s.eng.running = true) : s.Keeps (interruptEntry s) := by
  have hparts := h
  obtain ⟨hwf, _, hok, hjob, hs, he, hl⟩ := hparts
  obtain ⟨hout, hdma, hprov, _⟩ := he
  obtain ⟨_, _, hbatch⟩ := params_bounds hwf
  refine keeps_of_engine h rfl rfl hok hjob hs ?_ hl
  exact ⟨hout, hdma, hprov, fun _ => ⟨hrun, hbatch⟩, by simp, fun _ => ⟨hrun, (other_other _).symm⟩,
    fun _ => .inl rfl, Nat.zero_le _⟩

theorem interruptStep_keeps {s : State} (h : s.Inv) : s.Keeps (interruptStep s) := by
  have hparts := h
  obtain ⟨_, _, _, _, _, ⟨_, _, _, _, _, hhandler, _⟩, _⟩ := hparts
  rcases interruptStep_cases s with ⟨hin, e⟩ | ⟨_, _, hrun, e⟩ | ⟨_, e⟩
  · obtain ⟨hrun, _⟩ := hhandler hin
    have hfill := fill_keeps s.eng.fillTgt h hrun
    rw [e]
    exact hfill.trans (interruptReturn_keeps hfill.1)
  · rw [e]; exact interruptEntry_keeps h hrun
  · rw [e]; exact ⟨h, rfl⟩

/-- What OUT takes from the playing buffer is in range (42_engine.md R200, R202). -/
theorem nextOut_le {s : State} (h : s.LevelsOk) :
    s.eng.nextOut.left.toNat ≤ s.sess.wrap.toNat ∧ s.eng.nextOut.right.toNat ≤ s.sess.wrap.toNat := by
  obtain ⟨h0, h1, _⟩ := levelsOk_iff.mp h
  have hbank : (s.eng.bank s.eng.playIdx).Ok s.cfg.batch s.sess.wrap := by
    cases s.eng.playIdx with
    | b0 => exact h0
    | b1 => exact h1
  obtain ⟨_, _, hleft, hright⟩ := hbank
  exact ⟨levelsWithin_getD hleft _, levelsWithin_getD hright _⟩

/-- A tick keeps the invariant: at the last element of the buffer the transfer is no longer armed and its completion is
pending, before it neither changes (42_engine.md R200). -/
theorem tick_keeps {s : State} (h : s.Inv) : s.Keeps (tick s) := by
  unfold tick
  split
  · rename_i harmed
    have hparts := h
    obtain ⟨_, _, hok, hjob, hs, he, hl⟩ := hparts
    obtain ⟨hout, hdma, hprov, harm, hirq, hin, _, _⟩ := he
    obtain ⟨hrun, hidx⟩ := harm harmed
    have hnopend : s.eng.irqPend = false := by
      by_contra hp
      obtain ⟨_, hoff⟩ := hirq (by simpa using hp)
      simp [hoff] at harmed
    obtain ⟨h0, h1, hlast, _⟩ := levelsOk_iff.mp hl
    refine keeps_of_engine h rfl rfl hok hjob hs ⟨hout, hdma, hprov, ?_, ?_, hin, ?_, hidx⟩
      (levelsOk_iff.mpr ⟨h0, h1, hlast, nextOut_le hl⟩)
    · intro ha
      simp only [decide_eq_true_eq] at ha
      exact ⟨hrun, Nat.lt_of_le_of_ne hidx ha⟩
    · intro hp
      simp only [hnopend, Bool.false_or, decide_eq_true_eq] at hp
      exact ⟨hrun, by simp [hp]⟩
    · intro _
      by_cases hlast : s.eng.dmaIdx + 1 = s.cfg.batch <;> simp [hlast]
  · exact ⟨h, rfl⟩

theorem clockTurn_keeps {s : State} (h : s.Inv) : s.Keeps (clockTurn s) := by
  unfold clockTurn
  split
  · exact tick_keeps h
  · exact ⟨h, rfl⟩

/-! The engine's commands, issued with no ring command in progress. -/

theorem newSession_wrap {s : State} {c : Fitted} (hwf : s.cfg.wf = true)
    (hfit : fit s.cfg s.args.a2.toNat s.cfg.sysClkHz = some c) : (newSession s c).wrap.toNat = c.wrap := by
  obtain ⟨_, _, hmax, _⟩ := fit_mem hfit
  obtain ⟨_, h16, _⟩ := params_bounds hwf
  simp only [newSession, BitVec.toNat_ofNat]
  exact Nat.mod_eq_of_lt (by omega)

/-- The session ENG.INIT configures holds the fit's wrap, divider and rate (41_rate.md R137 (a) and (b)). -/
theorem newSession_ok {s t : State} {c : Fitted} (hwf : s.cfg.wf = true) (hnch : s.args.a3 = 1 ∨ s.args.a3 = 2)
    (hfit : fit s.cfg s.args.a2.toNat s.cfg.sysClkHz = some c) (hcfg : t.cfg = s.cfg)
    (hsess : t.sess = newSession s c) : t.SessionOk := by
  obtain ⟨ht, hmin, hmax, hrej, hc⟩ := fit_mem hfit
  obtain ⟨hdmin, hdmax⟩ : s.cfg.d16Min ≤ c.d16 ∧ c.d16 ≤ s.cfg.d16Max := hc ▸ fitCandidate_range ht hrej
  have hwrap := newSession_wrap hwf hfit
  have hch : s.args.a3.setWidth 2 = (1 : BitVec 2) ∨ s.args.a3.setWidth 2 = (2 : BitVec 2) := by
    rcases hnch with e | e <;> simp [e]
  unfold State.SessionOk
  rw [hcfg, hsess]
  refine ⟨hch, hwrap.symm ▸ hmin, hwrap.symm ▸ hmax, fun hd => ?_⟩
  have hdiv : (newSession s c).div.toNat = c.d16 := by
    simp only [newSession, BitVec.toNat_ofNat]
    exact Nat.mod_eq_of_lt (by omega)
  rw [hwrap, hdiv]
  exact ⟨hdmin, hdmax, rfl, rfl⟩

/-- ENG.INIT on a stopped engine: a session in range, and buffers, LAST and OUT at its silence level (42_engine.md R162). -/
theorem engInit_keeps {s t : State} {c : Fitted} (h : s.Inv) (hrun : s.eng.running = false)
    (hnch : s.args.a3 = 1 ∨ s.args.a3 = 2) (hfit : fit s.cfg s.args.a2.toNat s.cfg.sysClkHz = some c)
    (hcfg : t.cfg = s.cfg) (hmem : t.mem = s.mem) (hring : t.ring = s.ring) (hjob : t.job = none)
    (hsess : t.sess = newSession s c) (heng : t.eng = freshEngine s (silence c.wrap)) : s.Keeps t := by
  have hparts := h
  obtain ⟨hwf, _, hok, _, _, he, _⟩ := hparts
  obtain ⟨hmin, hmax, _⟩ := params_bounds hwf
  obtain ⟨_, hcmin, hcmax, _⟩ := fit_mem hfit
  have hv : (silence c.wrap).toNat ≤ (newSession s c).wrap.toNat := by
    rw [newSession_wrap hwf hfit]
    exact silence_le (by omega) (by omega)
  refine keeps_of_engine h hcfg hmem (hring ▸ hok) (jobOk_idle hjob) (newSession_ok hwf hnch hfit hcfg hsess) ?_ ?_
  · obtain ⟨hout, hdma, harm, hirq, hin⟩ := engineOk_stopped he hrun
    have hidx := engineOk_dmaIdx he
    unfold State.EngineOk
    rw [heng, hcfg]
    exact engineOk_of_stopped (s := { s with eng := freshEngine s (silence c.wrap) }) hrun hout hdma harm hirq hin hidx
  · rw [levelsOk_iff, heng, hsess, hcfg]
    have hbank := bank_fillWith_ok (n := s.cfg.batch) (v := ⟨silence c.wrap, silence c.wrap⟩) hv hv
    exact ⟨hbank, hbank, ⟨hv, hv⟩, hv, hv⟩

theorem engSetprov_keeps {s : State} (h : s.Inv) (hj : s.job = none) (hrun : s.eng.running = false)
    (hconf : s.sess.configured = true) (p : Prov) : s.Keeps { s with eng := { s.eng with prov := p } } := by
  have hparts := h
  obtain ⟨_, _, hok, _, hs, he, hl⟩ := hparts
  obtain ⟨hout, hdma, harm, hirq, hin⟩ := engineOk_stopped he hrun
  have hidx := engineOk_dmaIdx he
  exact keeps_of_engine h rfl rfl hok (jobOk_idle hj) (sessionOk_congr hconf rfl rfl hs)
    (engineOk_of_stopped hrun hout hdma harm hirq hin hidx) hl

/-- ENG.START enables the output only after both prefills, with the first transfer armed (42_engine.md R164). -/
theorem engStart_keeps {s : State} (h : s.Inv) (hj : s.job = none) (hconf : s.sess.configured = true)
    (hprov : s.eng.prov ≠ .none) : s.Keeps (startOutput (fill .b1 (fill .b0 s.tookClaim))) := by
  have hparts := h
  obtain ⟨hwf, _, hok, _, hs, _, hl⟩ := hparts
  obtain ⟨_, _, hbatch⟩ := params_bounds hwf
  have hok1 := fill_ringOk .b1 (fill_ringOk .b0 (s := s.tookClaim) hok)
  have hl1 := fill_levelsOk .b1 (fill_levelsOk .b0 (s := s.tookClaim) hl)
  obtain ⟨_, _, he0⟩ := fill_eng_frame .b0 s.tookClaim
  obtain ⟨_, _, he1⟩ := fill_eng_frame .b1 (fill .b0 s.tookClaim)
  have hcfg : (fill .b1 (fill .b0 s.tookClaim)).cfg = s.cfg := by simp only [fill_cfg, tookClaim_cfg]
  have hprov1 : (fill .b1 (fill .b0 s.tookClaim)).eng.prov = s.eng.prov := by rw [he1, he0]; rfl
  refine keeps_of_engine h hcfg (by simp only [startOutput_mem, fill_mem, tookClaim_mem]) hok1
    (jobOk_idle (by simp only [startOutput_job, fill_job, tookClaim_job, hj]))
    (sessionOk_congr hconf hcfg (by simp only [startOutput_sess, fill_sess, tookClaim_sess]) hs) ?_ hl1
  refine ⟨rfl, rfl, fun _ => hprov1 ▸ hprov, fun _ => ⟨rfl, ?_⟩, by simp, by simp, fun _ => .inl rfl, Nat.zero_le _⟩
  rw [startOutput_cfg, hcfg]
  exact hbatch

/-- A session that is not configured stays so: ENG.STOP leaves the provider and the underrun count (42_engine.md R165). -/
theorem engStop_keeps {s : State} (h : s.Inv) (hj : s.job = none) :
    s.Keeps { s with
      eng := if s.sess.configured then s.eng.halted.silenced (silence s.sess.wrap.toNat) else s.eng.halted } := by
  have hparts := h
  obtain ⟨hwf, _, hok, _, hs, he, hl⟩ := hparts
  have hidx := engineOk_dmaIdx he
  cases hconf : s.sess.configured with
  | false =>
    obtain ⟨hunset, hprov, _, hunder⟩ := (sessionOk_unset hconf).mp hs
    exact keeps_of_engine (t := { s with eng := s.eng.halted }) h rfl rfl hok (jobOk_idle hj)
      ((sessionOk_unset (s := { s with eng := s.eng.halted }) hconf).mpr ⟨hunset, hprov, rfl, hunder⟩)
      (engineOk_of_stopped rfl rfl rfl rfl rfl rfl hidx) hl
  | true =>
    obtain ⟨hmin, _, _⟩ := params_bounds hwf
    have hmin' := sessionOk_wrap hconf hs
    have hv : (silence s.sess.wrap.toNat).toNat ≤ s.sess.wrap.toNat :=
      silence_le (by omega) (by have := s.sess.wrap.isLt; omega)
    obtain ⟨h0, h1, _⟩ := levelsOk_iff.mp hl
    exact keeps_of_engine h rfl rfl hok (jobOk_idle hj) (sessionOk_congr hconf rfl rfl hs)
      (engineOk_of_stopped rfl rfl rfl rfl rfl rfl hidx) (levelsOk_iff.mpr ⟨h0, h1, ⟨hv, hv⟩, hv, hv⟩)

/-! The ring's commands. -/

/-- RB.INIT's new ring (40_ring_buffer.md R101). -/
theorem allocated_ok {c : Word} {bs : List Byte} (hc : 2 ≤ c.toNat) (hl : bs.length = c.toNat) :
    (Ring.mk true c 0 0 bs).Ok := by
  simp only [Ring.Ok, if_true]
  exact ⟨hc, Nat.lt_of_lt_of_le Nat.zero_lt_two hc, Nat.lt_of_lt_of_le Nat.zero_lt_two hc, hl⟩

theorem cleared_ok {r : Ring} (h : r.Ok) (hp : r.present = true) : ({ r with rd := 0, wr := 0 } : Ring).Ok := by
  obtain ⟨hcap, _, _, hlen⟩ := ringOk_present h hp
  have hr : ({ r with rd := 0, wr := 0 } : Ring) = ⟨true, r.cap, 0, 0, r.bytes⟩ := by rw [← hp]
  rw [hr]
  exact allocated_ok hcap hlen

theorem absent_ok : Ring.absent.Ok := by simp [Ring.Ok, Ring.absent]

theorem freeBytes_length (d n : Nat) : (freeBytes d n).length = n := by simp [freeBytes]

/-- A phase of a ring command keeps memory canonical (40_ring_buffer.md R103). -/
theorem ringPhase_mem_wf {s : State} (j : RingJob) (h : s.mem.wf = true) : (ringPhase j s).mem.wf = true := by
  cases hd : j.dir with
  | intoRing => rw [(ringPhase_intoRing hd).1]; exact h
  | outOfRing =>
    by_cases hm : j.moved < j.total
    · rw [ringPhase_copyOut hd hm]
      by_cases ha : admits s.cfg (busByte j.addr j.moved) = true
      · rw [copyOut_admitted ha]
        exact memory_write_wf h (busByte j.addr j.moved).isLt _
      · rw [copyOut_refused ha]
        exact h
    · rw [ringPhase_publishOut hd hm]
      exact h

theorem ringPhase_keeps {s : State} {j : RingJob} (h : s.Inv) (hj : s.job = some j) : s.Keeps (ringPhase j s) := by
  have hparts := h
  obtain ⟨_, hmem, hok, hjob, _⟩ := hparts
  obtain ⟨hok', hjob'⟩ := ringPhase_ok hok hjob hj
  have hmem' := ringPhase_mem_wf j hmem
  obtain ⟨_, _, _, _, _, _, _, _, e⟩ := ringPhase_frame j s
  exact keeps_of_ring h (by rw [e]) (by rw [e]) (by rw [e]) hmem' hok' hjob'

theorem ringRun_keeps (n : Nat) {s : State} (h : s.Inv) : s.Keeps (ringRun n s) := by
  induction n generalizing s with
  | zero => exact ⟨h, rfl⟩
  | succ n ih =>
    cases hj : s.job with
    | none =>
      rw [ringRun_idle hj]
      exact ⟨h, rfl⟩
    | some j =>
      have hphase := ringPhase_keeps h hj
      rw [ringRun_succ n hj]
      exact hphase.trans (ih hphase.1)

theorem ringResume_keeps {s : State} {j : RingJob} (h : s.Inv) (hj : s.job = some j) :
    s.Keeps (ringResume j s) := by
  unfold ringResume
  split
  · exact ringPhase_keeps h hj
  · exact ringRun_keeps _ h

theorem ringStart_keeps {s t : State} {j : RingJob} (h : s.Inv) (hjob : State.JobOk { s with job := some j })
    (hstart : ringStart j s = .next t) : s.Keeps t := by
  have hparts := h
  obtain ⟨_, hmem, hok, _⟩ := hparts
  have hsnap : s.Keeps { s with job := some j } := keeps_of_ring h rfl rfl rfl hmem hok hjob
  suffices he : Ensures s.Keeps (ringStart j s) from he t hstart
  exact ensures_ite (ensures_next hsnap) (ensures_next (hsnap.trans (ringRun_keeps _ hsnap.1)))

/-! Every step keeps the invariant. -/

/-- A command issued with no ring command in progress keeps the invariant. -/
theorem exec_keeps {i : Instr} {s t : State} (h : s.Inv) (hj : s.job = none) (hx : exec i s = .next t) :
    s.Keeps t := by
  have hparts := h
  obtain ⟨_, hmem, hok, hjob, _⟩ := hparts
  have hring : ∀ {u : State}, u.cfg = s.cfg → u.sess = s.sess → u.eng = s.eng → u.mem = s.mem → u.ring.Ok →
      u.job = s.job → s.Keeps u := fun h1 h2 h3 h4 h5 h6 =>
    keeps_of_ring h h1 h2 h3 (h4.symm ▸ hmem) h5 (jobOk_idle (h6.trans hj))
  cases exec_end hx with
  | report hframe =>
    obtain ⟨_, _, _, rfl⟩ := hframe
    exact ⟨h, rfl⟩
  | allocFailed => exact ⟨h, rfl⟩
  | allocated hp hc => exact hring rfl rfl rfl rfl (allocated_ok hc (freeBytes_length _ _)) rfl
  | write hp hstart => exact ringStart_keeps h (writeJob_ok hp) hstart
  | read hp hd hstart => exact ringStart_keeps h (readJob_ok hp hd) hstart
  | cleared hp => exact hring rfl rfl rfl rfl (cleared_ok hok hp) rfl
  | destroyed => exact hring rfl rfl rfl rfl absent_ok rfl
  | session c hrun hnch hfit => exact engInit_keeps h hrun hnch hfit rfl rfl rfl hj rfl rfl
  | provider hrun hconf => exact engSetprov_keeps h hj hrun hconf _
  | started hconf hprov => exact engStart_keeps h hj hconf hprov
  | claimFailed => exact ⟨h, rfl⟩
  | stopped => exact engStop_keeps h hj

theorem checkStatus_frame (s : State) : ∃ w, checkStatus s = { s with env := w } := by
  unfold checkStatus
  split <;> exact ⟨_, rfl⟩

theorem hostOp_keeps {op : HostOp} {s t : State} (h : s.Inv) (hj : s.job = none) (ho : hostOp op s = .next t) :
    s.Keeps t := by
  rcases hostOp_cases ho with ⟨_, _, rfl⟩ | ⟨_, _, _, rfl⟩ | ⟨_, rfl⟩ | ⟨_, _, _, _, rfl⟩ | ⟨v, _, hi⟩
  · exact ⟨h, rfl⟩
  · exact ⟨h, rfl⟩
  · obtain ⟨_, e⟩ := checkStatus_frame s
    rw [e]
    exact ⟨h, rfl⟩
  · exact ⟨h, rfl⟩
  · rcases issue_cases hi with ⟨_, _, hx⟩ | rfl
    · exact exec_keeps h hj hx
    · exact ⟨h, rfl⟩

theorem hostTurn_keeps {s t : State} (h : s.Inv) (ht : hostTurn s = .next t) : s.Keeps t := by
  rcases hostTurn_cases ht with ⟨j, hj, rfl⟩ | ⟨hj, op, hs, _, ho⟩ | ⟨_, _, rfl⟩
  · exact ringResume_keeps h hj
  · exact hostOp_keeps (s := { s with env := { s.env with host := hs } }) h hj ho
  · exact ⟨h, rfl⟩

/-- The reset values meet the invariant (70_reset_and_hazards.md R260). -/
theorem resetInput_keeps {s : State} (h : s.Inv) : s.Keeps (resetInput s) := by
  have hbank : (Bank.fillWith s.cfg.batch ⟨0, 0⟩).Ok s.cfg.batch Session.unset.wrap :=
    bank_fillWith_ok (Nat.zero_le _) (Nat.zero_le _)
  exact keeps_of_engine h rfl rfl absent_ok (jobOk_idle rfl) ((sessionOk_unset rfl).mpr ⟨rfl, rfl, rfl, rfl⟩)
    (engineOk_of_stopped rfl rfl rfl rfl rfl rfl (Nat.zero_le _))
    (levelsOk_iff.mpr ⟨hbank, hbank, ⟨Nat.zero_le _, Nat.zero_le _⟩, Nat.zero_le _, Nat.zero_le _⟩)

/-- Settles O60, turn by turn; `State.Keeps` is the invariant with the parameters unchanged. -/
theorem everyStepKeepsTheInvariant : Obligations.EveryStepKeepsTheInvariant := by
  unfold Obligations.EveryStepKeepsTheInvariant
  intro s t hinv h
  suffices hkeeps : s.Keeps t from hkeeps
  obtain ⟨_, ⟨l, p, rfl⟩, rfl | rfl | ⟨_, hh⟩ | ⟨_, _, _, rfl⟩ | ⟨a, b, _, _, rfl⟩ | ⟨_, _, rfl⟩⟩ := step_cases h
  · exact clockTurn_keeps (s := (s.setSched l).setPhased p) hinv
  · exact interruptStep_keeps (s := (s.setSched l).setPhased p) hinv
  · exact hostTurn_keeps (s := (s.setSched l).setPhased p) hinv hh
  · exact ⟨hinv, rfl⟩
  · have hparts := hinv
    obtain ⟨_, hmem, hok, hjob, _⟩ := hparts
    exact keeps_of_ring hinv rfl rfl rfl (memory_write_wf hmem a.isLt b) hok hjob
  · exact resetInput_keeps (s := (s.setSched l).setPhased p) hinv

end Sys2Proof.Machine

namespace Sys2Proof.Machine

/-! What the guards of the ring commands let through. -/

theorem draining_iff {s : State} : s.draining = true ↔ s.eng.prov = .ring ∧ s.eng.running = true := by
  simp [State.draining]

/-- The guard of RB.READ and RB.CLEAR with no ring, or while the engine is its consumer (40_ring_buffer.md R104). -/
theorem consumer_refused {s : State} (o : Out) (h : s.ring.present = false ∨ s.draining = true) :
    (if !s.ring.present then raise .state s else if s.draining then raise .state s else o) =
      .next { s with err := .state } := by
  rcases h with hp | hd
  · rw [if_pos (by simp [hp]), raise_eq]
  · rw [if_pos hd, ite_self, raise_eq]

theorem consumer_admitted {s : State} (o : Out) (hp : s.ring.present = true) (hd : s.draining = false) :
    (if !s.ring.present then raise .state s else if s.draining then raise .state s else o) = o := by
  rw [if_neg (by simp [hp]), if_neg (by simp [hd])]

theorem execRbRead_refused {s : State} (h : s.ring.present = false ∨ s.draining = true) :
    exec .rbRead s = .next { s with err := .state } := consumer_refused _ h

theorem execRbRead_admitted {s : State} (hp : s.ring.present = true) (hd : s.draining = false) :
    exec .rbRead s = ringStart (readJob s) s := consumer_admitted _ hp hd

theorem execRbWrite_refused {s : State} (hp : s.ring.present = false) :
    exec .rbWrite s = .next { s with err := .state } := if_neg (by simp [hp])

theorem execRbWrite_admitted {s : State} (hp : s.ring.present = true) :
    exec .rbWrite s = ringStart (writeJob s) s := if_pos hp

theorem execRbClear_refused {s : State} (h : s.ring.present = false ∨ s.draining = true) :
    exec .rbClear s = .next { s with err := .state } := consumer_refused _ h

theorem execRbClear_admitted {s : State} (hp : s.ring.present = true) (hd : s.draining = false) :
    exec .rbClear s = .next { s with ring := { s.ring with rd := 0, wr := 0 }, err := .ok } :=
  consumer_admitted _ hp hd

theorem execRbDestroy_absent {s : State} (hp : s.ring.present = false) :
    exec .rbDestroy s = .next { s with err := .ok } := if_pos (by simp [hp])

theorem execRbDestroy_refused {s : State} (hp : s.ring.present = true) (hd : s.draining = true) :
    exec .rbDestroy s = .next { s with err := .state } := (if_neg (by simp [hp])).trans (if_pos hd)

theorem execRbDestroy_admitted {s : State} (hp : s.ring.present = true) (hd : s.draining = false) :
    exec .rbDestroy s = .next { s with ring := Ring.absent, err := .ok } :=
  (if_neg (by simp [hp])).trans (if_neg (by simp [hd]))

/-- Settles O21: the two sides of the consumer's guard, and a cleared ring holds nothing. -/
theorem rbClearEmptiesTheRing : Obligations.RbClearEmptiesTheRing := by
  unfold Obligations.RbClearEmptiesTheRing
  refine ⟨decode_encode .rbClear, fun s => ?_⟩
  rw [← draining_iff]
  exact ⟨execRbClear_refused, fun hp hd => ⟨execRbClear_admitted hp (by simpa using hd), content_cleared s.ring⟩⟩

/-- Settles O22: RB.DESTROY's three branches. -/
theorem rbDestroyFreesTheRing : Obligations.RbDestroyFreesTheRing := by
  unfold Obligations.RbDestroyFreesTheRing
  refine ⟨decode_encode .rbDestroy, fun s => ⟨execRbDestroy_absent, fun hp hprov hrun => ?_, fun hp hd => ?_⟩⟩
  · exact execRbDestroy_refused hp (draining_iff.mpr ⟨hprov, hrun⟩)
  · rw [← draining_iff] at hd
    exact execRbDestroy_admitted hp (by simpa using hd)

/-! RB.INIT. -/

/-- No allocation above RB_MAX_BYTES is granted, whatever the draw says (00_scope.md R7). -/
theorem allocOk_above_max {s : State} {c : Nat} (h : s.cfg.rbMaxBytes < c) : s.allocOk c = false := by
  simp [State.allocOk, Nat.not_le.mpr h]

/-- RB.INIT past its two checks: the draw decides (40_ring_buffer.md R101). -/
theorem execRbInit_draws {s : State} (hp : s.ring.present = false) (hc : 2 ≤ s.args.a0.toNat) :
    exec .rbInit s = if s.allocOk s.args.a0.toNat then done ((s.tookAlloc.allocRing s.args.a0).setRes0 s.args.a0)
      else raise .alloc s.tookAlloc :=
  (if_neg (by simp [hp])).trans (if_neg (by omega))

/-- Settles O14: RB.INIT's branches in the order of their checks. -/
theorem rbInitAllocatesOrReports : Obligations.RbInitAllocatesOrReports := by
  unfold Obligations.RbInitAllocatesOrReports
  refine ⟨decode_encode .rbInit, fun s => ⟨?_, ?_, ?_, allocOk_above_max, ?_, freeBytes_length _ _⟩⟩
  · intro hp
    exact if_pos hp
  · intro hp hc
    exact (if_neg (by simp [hp])).trans (if_pos hc)
  · intro hp hc hfail
    rw [execRbInit_draws hp hc, hfail]
    rfl
  · intro hp hc hgrant
    rw [execRbInit_draws hp hc, hgrant]
    rfl

/-! RB.USED and RB.FREE. -/

/-- The occupancy as an integer (10_state.md R36). -/
theorem ring_used_int {r : Ring} (h : r.Ok) (hp : r.present = true) :
    (r.used : ℤ) = ((r.wr.toNat : ℤ) - r.rd.toNat) % r.cap.toNat := by
  obtain ⟨hcap, _⟩ := ringOk_present h hp
  exact Int.toNat_of_nonneg (Int.emod_nonneg _ (by omega))

/-- Settles O20: both answers fit a register, as the occupancy is below the capacity. -/
theorem rbUsedAndFreeReportOccupancy : Obligations.RbUsedAndFreeReportOccupancy := by
  unfold Obligations.RbUsedAndFreeReportOccupancy
  refine ⟨decode_encode .rbUsed, decode_encode .rbFree, fun s hok => ⟨_, _, rfl, rfl, ?_, ?_⟩⟩
  · intro hp
    simp [hp]
  · intro hp
    have hlt := ring_used_lt hok hp
    have hcap := s.ring.cap.isLt
    have hfree : s.ring.free = s.ring.cap.toNat - 1 - s.ring.used := rfl
    rw [if_pos hp, if_pos hp, ← ring_used_int hok hp, BitVec.toNat_ofNat, BitVec.toNat_ofNat,
      Nat.mod_eq_of_lt (by omega), Nat.mod_eq_of_lt (by omega)]
    omega

/-! Ring commands and the engine's state. -/

/-- The state with another engine. -/
def State.withEng (s : State) (e : Engine) : State := { s with eng := e }

/-- A phase of a ring command neither reads nor writes the engine. -/
theorem ringPhase_withEng (j : RingJob) (s : State) (e : Engine) :
    ringPhase j (s.withEng e) = (ringPhase j s).withEng e := by
  cases hd : j.dir with
  | intoRing =>
    by_cases hm : j.moved < j.total
    · rw [ringPhase_copyIn hd hm, ringPhase_copyIn hd hm]
      by_cases ha : admits s.cfg (busByte j.addr j.moved) = true
      · rw [copyIn_admitted ha, copyIn_admitted (s := s.withEng e) ha]; rfl
      · rw [copyIn_refused ha, copyIn_refused (s := s.withEng e) ha]; rfl
    · rw [ringPhase_publishIn hd hm, ringPhase_publishIn hd hm]; rfl
  | outOfRing =>
    by_cases hm : j.moved < j.total
    · rw [ringPhase_copyOut hd hm, ringPhase_copyOut hd hm]
      by_cases ha : admits s.cfg (busByte j.addr j.moved) = true
      · rw [copyOut_admitted ha, copyOut_admitted (s := s.withEng e) ha]; rfl
      · rw [copyOut_refused ha, copyOut_refused (s := s.withEng e) ha]; rfl
    · rw [ringPhase_publishOut hd hm, ringPhase_publishOut hd hm]; rfl

theorem ringRun_withEng (n : Nat) (s : State) (e : Engine) :
    ringRun n (s.withEng e) = (ringRun n s).withEng e := by
  induction n generalizing s with
  | zero => rfl
  | succ n ih =>
    cases hj : s.job with
    | none => rw [ringRun_idle hj, ringRun_idle (s := s.withEng e) hj]
    | some j => rw [ringRun_succ n hj, ringRun_succ (s := s.withEng e) n hj, ringPhase_withEng, ih]

/-- A ring command from its SNAPSHOT on does the same whatever the engine. -/
theorem ringStart_withEng {j : RingJob} {s t : State} {e : Engine} (h : ringStart j (s.withEng e) = .next t) :
    ringStart j s = .next (t.withEng s.eng) := by
  suffices he : Ensures (fun t => ringStart j s = .next (t.withEng s.eng)) (ringStart j (s.withEng e)) from he t h
  refine ensures_cond (fun hph => ensures_next (if_pos hph)) (fun hph => ensures_next ((if_neg hph).trans ?_))
  exact congrArg Host.Outcome.next (ringRun_withEng j.left { s.withEng e with job := some j } s.eng)

/-- Settles O19: three guards refuse, and RB.WRITE does not look at the engine (`ringStart_withEng`). -/
theorem drainedRingHasOneConsumer : Obligations.DrainedRingHasOneConsumer := by
  unfold Obligations.DrainedRingHasOneConsumer
  intro s hp hprov hrun
  have hd := draining_iff.mpr ⟨hprov, hrun⟩
  refine ⟨execRbRead_refused (.inr hd), execRbClear_refused (.inr hd), execRbDestroy_refused hp hd, fun t ht => ?_⟩
  have hstopped := execRbWrite_admitted (s := s.withEng { s.eng with running := false }) hp
  exact (execRbWrite_admitted hp).trans (ringStart_withEng (hstopped.symm.trans ht))

/-! Changes confined to the first places after the write cursor. -/

/-- `r'` is `r` with other bytes at the `n` places from cursor `c` on, at most. -/
def Ring.DiffersWithin (r r' : Ring) (c : Word) (n : Nat) : Prop :=
  r' = r.withBytes r'.bytes ∧ r'.bytes.length = r.bytes.length ∧
    ∀ p, (∀ i < n, p ≠ r.slot c i) → r'.bytes[p]? = r.bytes[p]?

theorem copied_differsWithin (r : Ring) (c : Word) (f : Nat → Byte) (n : Nat) :
    r.DiffersWithin (r.copied c f 0 n) c n := by
  obtain ⟨hframe, hlen⟩ := copied_frame r c f 0 n
  exact ⟨hframe, hlen, fun p h => copied_getElem? r c f 0 n p fun i _ hi => h i (by omega)⟩

theorem smear_differsWithin (r : Ring) (c : Word) (d n : Nat) : r.DiffersWithin (r.smear c d n) c n := by
  obtain ⟨hframe, hlen⟩ := smear_frame r c d n
  exact ⟨hframe, hlen, smear_getElem? r c d n⟩

theorem Ring.DiffersWithin.trans {r r' r'' : Ring} {c : Word} {n : Nat} (h : r.DiffersWithin r' c n)
    (h' : r'.DiffersWithin r'' c n) : r.DiffersWithin r'' c n := by
  obtain ⟨hframe, hlen, hout⟩ := h
  obtain ⟨hframe', hlen', hout'⟩ := h'
  have hslot : ∀ i, r'.slot c i = r.slot c i := fun i => by rw [hframe]; rfl
  refine ⟨?_, hlen'.trans hlen, fun p hp => (hout' p fun i hi => ?_).trans (hout p hp)⟩
  · rw [hframe', hframe]; rfl
  · rw [hslot]; exact hp i hi

/-- Within the free region, such a change leaves the waiting bytes as they are. -/
theorem Ring.DiffersWithin.content {r r' : Ring} {n : Nat} (h : r.DiffersWithin r' r.wr n) (hok : r.Ok)
    (hp : r.present = true) (hn : n ≤ r.free) : r'.content = r.content := by
  obtain ⟨hframe, _, hout⟩ := h
  rw [hframe, content_withBytes_iff]
  intro i hi
  simp only [Ring.byteAt, List.getD_eq_getElem?_getD, withBytes_bytes]
  exact congrArg (·.getD 0) (hout _ fun k hk => free_slot_ne_used hok hp (by omega) hi)

theorem Ring.DiffersWithin.ok {r r' : Ring} {c : Word} {n : Nat} (h : r.DiffersWithin r' c n) (hok : r.Ok) :
    r'.Ok := by
  obtain ⟨hframe, hlen, _⟩ := h
  rw [hframe]
  exact ringOk_withBytes hok hlen

/-! RB.WRITE and RB.READ on a whole turn. -/

theorem ringStart_whole {s : State} (j : RingJob) (h : s.env.phased = false) :
    ringStart j s = .next (ringRun j.left { s with job := some j }) := if_neg (by simp [h])

theorem ringStart_phased {s : State} (j : RingJob) (h : s.env.phased = true) :
    ringStart j s = .next { s with job := some j } := if_pos h

/-- The source byte `i` of RB.WRITE. -/
def State.sourceByte (s : State) (i : Nat) : Byte := s.mem.read (busByte s.args.a0 i).toNat

/-- RB.WRITE with every source byte admitted copies them all and publishes (40_ring_buffer.md R102). -/
theorem execRbWrite_published {s : State} (hp : s.ring.present = true) (hph : s.env.phased = false)
    (ha : ∀ i < (writeJob s).total, admits s.cfg (busByte s.args.a0 i) = true) :
    exec .rbWrite s = .next (publishIn (writeJob s) { s with
      ring := s.ring.copied s.ring.wr s.sourceByte 0 (writeJob s).total
      job := some (writeJob s) }) := by
  rw [execRbWrite_admitted hp, ringStart_whole _ hph]
  exact congrArg Host.Outcome.next (ringRun_write (s := { s with job := some (writeJob s) }) rfl rfl
    (Nat.zero_add _).symm fun i hi => by simpa [writeJob] using ha i hi)

/-- RB.WRITE whose source byte `n` is the first refused one (40_ring_buffer.md R102, log entry 9). -/
theorem execRbWrite_bus {s : State} {n : Nat} (hp : s.ring.present = true) (hph : s.env.phased = false)
    (hn : n < (writeJob s).total) (ha : ∀ i < n, admits s.cfg (busByte s.args.a0 i) = true)
    (hb : admits s.cfg (busByte s.args.a0 n) = false) :
    exec .rbWrite s = .next { s with
      err := .bus
      ring := (s.ring.copied s.ring.wr s.sourceByte 0 n).smear s.ring.wr s.env.drawn n
      job := none
      env := { s.env with drawn := s.env.drawn + n } } := by
  have hrun := ringRun_write_bus (s := { s with job := some (writeJob s) }) (j := writeJob s) (n := n)
    ((writeJob s).total - n) rfl rfl (by simpa [writeJob] using hn) (fun i hi => by simpa [writeJob] using ha i hi)
    (by simpa [writeJob] using hb)
  have hleft : n + 1 + ((writeJob s).total - n) = (writeJob s).left := by
    show _ = (writeJob s).total - 0 + 1
    omega
  rw [execRbWrite_admitted hp, ringStart_whole _ hph, ← hleft, hrun]
  simp only [writeJob, Nat.zero_add]
  rfl

/-- RB.READ with every destination byte admitted copies them all and publishes (40_ring_buffer.md R103). -/
theorem execRbRead_published {s : State} (hp : s.ring.present = true) (hd : s.draining = false)
    (hph : s.env.phased = false) (ha : ∀ i < (readJob s).total, admits s.cfg (busByte s.args.a0 i) = true) :
    exec .rbRead s = .next (publishOut (readJob s) { s with
      mem := Memory.copied s.mem s.args.a0 (s.ring.byteAt s.ring.rd) 0 (readJob s).total
      job := some (readJob s) }) := by
  rw [execRbRead_admitted hp hd, ringStart_whole _ hph]
  exact congrArg Host.Outcome.next (ringRun_read (s := { s with job := some (readJob s) }) rfl rfl
    (Nat.zero_add _).symm fun i hi => by simpa [readJob] using ha i hi)

/-- RB.READ whose destination byte `n` is the first refused one (40_ring_buffer.md R103). -/
theorem execRbRead_bus {s : State} {n : Nat} (hp : s.ring.present = true) (hd : s.draining = false)
    (hph : s.env.phased = false) (hn : n < (readJob s).total)
    (ha : ∀ i < n, admits s.cfg (busByte s.args.a0 i) = true) (hb : admits s.cfg (busByte s.args.a0 n) = false) :
    exec .rbRead s = .next { s with
      err := .bus
      mem := Memory.copied s.mem s.args.a0 (s.ring.byteAt s.ring.rd) 0 n
      job := none } := by
  have hrun := ringRun_read_bus (s := { s with job := some (readJob s) }) (j := readJob s) (n := n)
    ((readJob s).total - n) rfl rfl (by simpa [readJob] using hn) (fun i hi => by simpa [readJob] using ha i hi)
    (by simpa [readJob] using hb)
  have hleft : n + 1 + ((readJob s).total - n) = (readJob s).left := by
    show _ = (readJob s).total - 0 + 1
    omega
  rw [execRbRead_admitted hp hd, ringStart_whole _ hph, ← hleft, hrun]
  rfl

/-- The copies of a whole RB.WRITE are the free bytes from RB_WR on. -/
theorem copied_byteAt_free {r : Ring} (hok : r.Ok) (hp : r.present = true) (f : Nat → Byte) {n : Nat}
    (hn : n ≤ r.free) {i : Nat} (hi : i < n) : (r.copied r.wr f 0 n).byteAt r.wr i = f i := by
  obtain ⟨_, _, hwr, hlen⟩ := ringOk_present hok hp
  have hfree : r.free = r.cap.toNat - 1 - r.used := rfl
  exact copied_byteAt f hwr hlen (by omega) (Nat.zero_le i) (by omega)

/-- Copies into the first `n` free bytes, published, are appended to the waiting bytes (40_ring_buffer.md R102). -/
theorem content_copied_published {r : Ring} (hok : r.Ok) (hp : r.present = true) (f : Nat → Byte) {n : Nat}
    (hn : n ≤ r.free) :
    ({ r.copied r.wr f 0 n with wr := r.advance r.wr n } : Ring).content = r.content ++ (List.range n).map f := by
  have hdiff := copied_differsWithin r r.wr f n
  have hframe := hdiff.1
  have hbytes : (List.range n).map ((r.copied r.wr f 0 n).byteAt r.wr) = (List.range n).map f :=
    List.map_congr_left fun i hi => copied_byteAt_free hok hp f hn (List.mem_range.mp hi)
  rw [← hdiff.content hok hp hn, ← hbytes]
  have hok' := hdiff.ok hok
  rw [hframe] at hok' ⊢
  exact content_publish hok' hp hn

/-- Settles O15: the copies land in the free region, and the PUBLISH moves RB_WR over them. -/
theorem rbWriteAppendsSourceBytes : Obligations.RbWriteAppendsSourceBytes := by
  unfold Obligations.RbWriteAppendsSourceBytes
  rintro s acc hok hp hph hacc ha
  obtain rfl : acc = (writeJob s).total := hacc
  have hdiff := copied_differsWithin s.ring s.ring.wr s.sourceByte (writeJob s).total
  have hcontent := content_copied_published hok hp s.sourceByte (n := (writeJob s).total) (Nat.min_le_right _ _)
  obtain ⟨hframe, hlen, hout⟩ := hdiff
  have hpub := execRbWrite_published hp hph ha
  generalize s.ring.copied s.ring.wr s.sourceByte 0 (writeJob s).total = r' at *
  rw [hframe] at hpub hcontent
  exact ⟨_, hpub, hcontent, rfl, hlen, hout, rfl⟩

/-- Settles O16: the copies and the free values that replace them are confined to the free region. -/
theorem rbWriteErrorsAcceptNothing : Obligations.RbWriteErrorsAcceptNothing := by
  unfold Obligations.RbWriteErrorsAcceptNothing
  refine ⟨fun s hp => execRbWrite_refused hp, fun s n hok hp hph hn ha hb => ?_⟩
  have hbus := execRbWrite_bus hp hph hn ha hb
  have hdiff := (copied_differsWithin s.ring s.ring.wr s.sourceByte n).trans
    (smear_differsWithin _ s.ring.wr s.env.drawn n)
  have hfree : (writeJob s).total ≤ s.ring.free := Nat.min_le_right _ _
  have hcontent := hdiff.content hok hp (hn.le.trans hfree)
  obtain ⟨hframe, hlen, hout⟩ := hdiff
  generalize (s.ring.copied s.ring.wr s.sourceByte 0 n).smear s.ring.wr s.env.drawn n = r' at *
  rw [hframe] at hbus hcontent
  exact ⟨_, hbus, hcontent, hlen, hout, rfl⟩

/-- The bytes a whole RB.READ has stored are the oldest waiting ones (40_ring_buffer.md R103). -/
theorem read_copied_oldest {s : State} (hmem : s.mem.wf = true) (hok : s.ring.Ok) (hp : s.ring.present = true)
    {n i : Nat} (hn : n ≤ s.ring.used) (hi : i < n) :
    (Memory.copied s.mem s.args.a0 (s.ring.byteAt s.ring.rd) 0 n).read (busByte s.args.a0 i).toNat =
      s.ring.byteAt s.ring.rd i := by
  have hlt := ring_used_lt hok hp
  have hcap := s.ring.cap.isLt
  exact memory_copied_self hmem s.args.a0 _ (by omega) (Nat.zero_le i) (by omega)

theorem read_copied_other (s : State) (n a : Nat) (h : ∀ i < n, a ≠ (busByte s.args.a0 i).toNat) :
    (Memory.copied s.mem s.args.a0 (s.ring.byteAt s.ring.rd) 0 n).read a = s.mem.read a :=
  memory_copied_other _ _ _ 0 n a fun i _ hi => h i (by omega)

/-- The first waiting bytes, and those after them. -/
theorem content_split {r : Ring} {n : Nat} (hn : n ≤ r.used) :
    r.content = (List.range n).map (r.byteAt r.rd) ++ r.content.drop n := by
  have htake : r.content.take n = (List.range n).map (r.byteAt r.rd) := by
    rw [Ring.content, ← List.map_take, List.take_range, Nat.min_eq_left hn]
  rw [← htake, List.take_append_drop]

/-- Settles O17: the bytes stored are the oldest ones, and the PUBLISH moves RB_RD over them. -/
theorem rbReadRemovesOldestBytes : Obligations.RbReadRemovesOldestBytes := by
  unfold Obligations.RbReadRemovesOldestBytes
  rintro s k hmem hok hp hd hph hk ha
  obtain rfl : k = (readJob s).total := hk
  have hused : (readJob s).total ≤ s.ring.used := Nat.min_le_right _ _
  refine ⟨_, execRbRead_published hp hd hph ha, ?_, fun a h => read_copied_other s _ a h, rfl, rfl⟩
  have hbytes : (List.range (readJob s).total).map (fun i =>
      (Memory.copied s.mem s.args.a0 (s.ring.byteAt s.ring.rd) 0 (readJob s).total).read
        (busByte s.args.a0 i).toNat) = (List.range (readJob s).total).map (s.ring.byteAt s.ring.rd) :=
    List.map_congr_left fun i hi => read_copied_oldest hmem hok hp hused (List.mem_range.mp hi)
  calc s.ring.content
      = (List.range (readJob s).total).map (s.ring.byteAt s.ring.rd) ++
          s.ring.content.drop (readJob s).total := content_split hused
    _ = _ := by rw [← hbytes, ← content_consume hok hp hused]; rfl

/-- Settles O18: the two guards, and the bytes stored before the refused one. -/
theorem rbReadErrorsKeepTheRing : Obligations.RbReadErrorsKeepTheRing := by
  unfold Obligations.RbReadErrorsKeepTheRing
  refine ⟨fun s => execRbRead_refused, fun s n hmem hok hp hd hph hn ha hb => ?_⟩
  have hused : n ≤ s.ring.used := (Nat.lt_of_lt_of_le hn (Nat.min_le_right _ _)).le
  refine ⟨_, execRbRead_bus hp hd hph hn ha hb, fun i hi => ?_, fun a h => read_copied_other s n a h, rfl⟩
  rw [content_getElem? (by omega)]
  exact congrArg some (read_copied_oldest hmem hok hp hused hi)

/-! RB.WRITE and RB.READ phase by phase. -/

/-- On a phase turn with no interrupt step enabled, a ring command in progress takes one phase. -/
theorem step_phaseResume {s : State} {j : RingJob} {rest : List Turn} (hj : s.job = some j)
    (hi : s.interruptEnabled = false) (hsched : s.env.sched = .phase :: rest) :
    step s = .next (ringPhase j ((s.setSched rest).setPhased true)) := by
  unfold step nextTurn
  rw [hsched]
  calc hostTurnOrWait true rest s
      = hostTurn ((s.setSched rest).setPhased true) := if_neg (by simp [hi])
    _ = .next (ringResume j ((s.setSched rest).setPhased true)) := hostTurn_job hj
    _ = _ := rfl

/-- A byte copied in joins the unpublished ones (40_ring_buffer.md R102). -/
theorem copied_byte_unpublished {s : State} {j : RingJob} (hok : s.ring.Ok) (hp : s.ring.present = true)
    (hcur : j.cur = s.ring.wr) (hm : j.moved < s.ring.free) (b : Byte) :
    (List.range (j.moved + 1)).map ((s.ring.putAt j.cur j.moved b).byteAt j.cur) =
      (List.range j.moved).map (s.ring.byteAt j.cur) ++ [b] := by
  obtain ⟨_, _, hwr, hlen⟩ := ringOk_present hok hp
  have hfree : s.ring.free = s.ring.cap.toNat - 1 - s.ring.used := rfl
  have hnew : (s.ring.putAt j.cur j.moved b).byteAt j.cur j.moved = b :=
    byteAt_putAt_self b (by rw [hlen]; exact ring_slot_lt (by omega))
  have hold : ∀ i ∈ List.range j.moved,
      (s.ring.putAt j.cur j.moved b).byteAt j.cur i = s.ring.byteAt j.cur i := by
    intro i hi
    have hi := List.mem_range.mp hi
    refine byteAt_putAt_other b fun heq => ?_
    have := slot_inj (hcur ▸ hwr) (by omega) (by omega) heq
    omega
  rw [List.range_succ, List.map_append, List.map_congr_left hold, List.map_singleton, hnew]

/-- Settles O23: the SNAPSHOT by `ringStart_phased`, and one equation per phase. -/
theorem writePhasesPublishAtTheEnd : Obligations.WritePhasesPublishAtTheEnd := by
  unfold Obligations.WritePhasesPublishAtTheEnd
  refine ⟨fun s hph hp => (execRbWrite_admitted hp).trans (ringStart_phased _ hph), ?_⟩
  intro s j rest hinv hj hd hi hsched
  obtain ⟨_, _, hok, hjob, _⟩ := hinv
  obtain ⟨hp, hle, hcur, htot⟩ := (jobOk_intoRing hj hd).mp hjob
  refine ⟨_, step_phaseResume hj hi hsched, fun hm ha => ?_, fun hm hb => ?_, fun hm => ?_⟩
  · rw [ringPhase_copyIn hd hm]
    refine ⟨copyIn_content (s := (s.setSched rest).setPhased true) hok hp hcur (hm.trans_le htot), ?_⟩
    rw [copyIn_admitted (s := (s.setSched rest).setPhased true) ha, unpublished_intoRing hj hd,
      unpublished_intoRing (j := { j with moved := j.moved + 1 }) rfl hd]
    exact ⟨copied_byte_unpublished hok hp hcur (hm.trans_le htot) _, rfl⟩
  · rw [ringPhase_copyIn hd hm]
    refine ⟨copyIn_content (s := (s.setSched rest).setPhased true) hok hp hcur (hm.trans_le htot), ?_⟩
    rw [copyIn_refused (s := (s.setSched rest).setPhased true) (ne_true_of_eq_false hb)]
    obtain ⟨hframe, hlen, hout⟩ := smear_differsWithin s.ring j.cur s.env.drawn j.moved
    refine ⟨hlen, hout, ?_⟩
    exact congrArg (fun r : Ring => ({ s with
      err := .bus
      ring := r
      job := none
      env := { s.env with sched := rest, phased := true, drawn := s.env.drawn + j.moved } } : State)) hframe
  · rw [ringPhase_publishIn hd (by omega), unpublished_intoRing hj hd, hm]
    exact ⟨publishIn_content (s := (s.setSched rest).setPhased true) hok hp hcur htot, rfl⟩

/-- Settles O24: the SNAPSHOT by `ringStart_phased`, and one equation per phase. -/
theorem readPhasesPublishAtTheEnd : Obligations.ReadPhasesPublishAtTheEnd := by
  unfold Obligations.ReadPhasesPublishAtTheEnd
  refine ⟨fun s hph hp hdr => (execRbRead_admitted hp hdr).trans (ringStart_phased _ hph), ?_⟩
  intro s j rest hinv hj hd hi hsched
  obtain ⟨_, hmem, hok, hjob, _⟩ := hinv
  obtain ⟨hp, _, hcur, htot, _⟩ := (jobOk_outOfRing hj hd).mp hjob
  refine ⟨_, step_phaseResume hj hi hsched, fun hm ha => ?_, fun hm hb => ?_, fun hm => ?_⟩
  · rw [ringPhase_copyOut hd hm, copyOut_admitted (s := (s.setSched rest).setPhased true) ha,
      content_getElem? (hm.trans_le htot), ← hcur]
    exact ⟨congrArg some (memory_read_write_self hmem _ _), fun a hne => memory_read_write_other s.mem _ hne, rfl⟩
  · rw [ringPhase_copyOut hd hm, copyOut_refused (s := (s.setSched rest).setPhased true) (ne_true_of_eq_false hb)]
    rfl
  · rw [ringPhase_publishOut hd (by omega)]
    exact ⟨publishOut_content (s := (s.setSched rest).setPhased true) hok hp hcur htot, rfl⟩

/-! The other agents' steps between two phases. -/

/-- What a step of another agent makes of the ring command in progress and of what the command works on. -/
def State.RespectsJob (s t : State) : Prop :=
  t.job = s.job ∧ t.JobOk ∧ t.ring = { s.ring with rd := t.ring.rd } ∧ t.unpublished = s.unpublished ∧
    (∃ n, t.ring.content = s.ring.content.drop n) ∧ t.mem = s.mem ∧ t.args = s.args ∧ t.res = s.res ∧ t.err = s.err

/-- A change of the engine, RB_RD and the outside world, with the invariant kept and bytes taken from the front only. -/
theorem respectsJob_of_frame {s t : State} (hinv : t.Inv) (hn : ∃ n, t.ring.content = s.ring.content.drop n)
    (hframe : ∃ e rd w, t = { s with eng := e, ring := { s.ring with rd := rd }, env := w }) : s.RespectsJob t := by
  obtain ⟨_, _, _, hjob, _⟩ := hinv
  obtain ⟨_, _, _, rfl⟩ := hframe
  exact ⟨rfl, hjob, rfl, rfl, hn, rfl, rfl, rfl, rfl⟩

theorem clockTurn_respectsJob {s : State} (h : s.Inv) : s.RespectsJob (clockTurn s) := by
  obtain ⟨_, _, _, _, e⟩ := clockTurn_frame s
  refine respectsJob_of_frame (clockTurn_keeps h).1 ⟨0, ?_⟩ ⟨_, _, _, e⟩
  rw [clockTurn_ring, List.drop_zero]

theorem interruptStep_respectsJob {s : State} (h : s.Inv) : s.RespectsJob (interruptStep s) := by
  have hkeeps := interruptStep_keeps h
  obtain ⟨_, _, hok, _⟩ := h
  obtain ⟨_, _, _, _, e⟩ := interruptStep_frame s
  exact respectsJob_of_frame hkeeps.1 (interruptStep_content hok) ⟨_, _, _, e⟩

/-- Settles O25: a tick, an interrupt step and a register read, one by one. -/
theorem otherAgentsRespectTheRingCommand : Obligations.OtherAgentsRespectTheRingCommand := by
  unfold Obligations.OtherAgentsRespectTheRingCommand
  intro s t j turn rest hinv hj hsched hturn h
  rw [← hj]
  suffices hres : s.RespectsJob t from hres
  unfold step nextTurn at h
  rw [hsched] at h
  rcases hturn with rfl | rfl | ⟨off, rfl⟩
  · obtain ⟨rfl⟩ := h
    exact clockTurn_respectsJob (s := s.setSched rest) hinv
  · obtain ⟨rfl⟩ := h
    exact interruptStep_respectsJob (s := s.setSched rest) hinv
  · obtain ⟨_, _, ⟨rfl⟩⟩ := aligned32_next (w := .w32) (off := off) h
    exact respectsJob_of_frame hinv ⟨0, rfl⟩ ⟨_, _, _, rfl⟩

end Sys2Proof.Machine

namespace Sys2Proof.Machine

/-! The Rate Fitter's answer, and the rate commands. -/

/-- `fit` answers exactly if a wrap in range is accepted (41_rate.md R133). -/
theorem fit_isSome_iff {p : Config.Params} {t k : Nat} (ht : 0 < t) :
    (fit p t k).isSome = true ↔ ∃ w, p.wrapMin ≤ w ∧ w ≤ p.wrapMax ∧ fitRejects p t k w = false := by
  constructor
  · intro h
    obtain ⟨c, hc⟩ := Option.isSome_iff_exists.mp h
    obtain ⟨_, hmin, hmax, hacc, _⟩ := fit_mem hc
    exact ⟨c.wrap, hmin, hmax, hacc⟩
  · rintro ⟨w, hmin, hmax, hacc⟩
    exact fit_isSome ht hmin hmax hacc

/-- What the search has left behind when it answers `c`: a wrap whose error is greater and not below FIT_EPS. -/
def Fitted.Surpasses (c : Fitted) (p : Config.Params) (t k : Nat) (b : Fitted) : Prop :=
  c.error t k < b.error t k ∧ fitClose p t k b = false

/-- An error no smaller than a surpassed one is surpassed too. -/
theorem Fitted.Surpasses.of_error_le {p : Config.Params} {t k : Nat} {c b b' : Fitted} (h : c.Surpasses p t k b)
    (he : 0 < p.epsDen) (hb : 0 < b.den) (hb' : 0 < b'.den) (hle : b.error t k ≤ b'.error t k) :
    c.Surpasses p t k b' := by
  obtain ⟨hlt, hclose⟩ := h
  refine ⟨hlt.trans_le hle, ?_⟩
  rw [← Bool.not_eq_true, fitClose_iff hb he] at hclose
  rw [← Bool.not_eq_true, fitClose_iff hb' he]
  exact fun h => hclose (hle.trans_lt h)

/-- The search keeps the best candidate it was given, which was not close, or surpasses it; and it surpasses every
accepted wrap of its range before its answer's (41_rate.md R130). -/
theorem fitSearch_surpasses {p : Config.Params} {t k n w : Nat} {best : Option Fitted} {c : Fitted}
    (hp : 1 ≤ p.d16Min) (he : 0 < p.epsDen) (ht : 0 < t)
    (hbest : ∀ b, best = some b → b.wrap < w ∧ 0 < b.den ∧ fitClose p t k b = false)
    (h : fitSearch p t k n w best = some c) :
    (∀ b, best = some b → b = c ∨ c.Surpasses p t k b) ∧
      ∀ v, w ≤ v → v < c.wrap → fitRejects p t k v = false → c.Surpasses p t k (fitCandidate t k v) := by
  induction n generalizing w best with
  | zero =>
    obtain rfl : best = some c := h
    refine ⟨fun b hb => .inl (Option.some.inj hb).symm, fun v hv hvc _ => ?_⟩
    have := (hbest c rfl).1
    omega
  | succ n ih =>
    /- The part about later wraps from the induction hypothesis, the wrap `w` apart. -/
    have split_range (hrest : ∀ v, w + 1 ≤ v → v < c.wrap → fitRejects p t k v = false →
          c.Surpasses p t k (fitCandidate t k v))
        (hw : w < c.wrap → fitRejects p t k w = false → c.Surpasses p t k (fitCandidate t k w)) :
        ∀ v, w ≤ v → v < c.wrap → fitRejects p t k v = false → c.Surpasses p t k (fitCandidate t k v) := by
      intro v hv
      rcases Nat.eq_or_lt_of_le hv with rfl | hv
      · exact hw
      · exact hrest v hv
    have hkept : ∀ b, best = some b → b.wrap < w + 1 ∧ 0 < b.den ∧ fitClose p t k b = false :=
      fun b hb => (hbest b hb).imp_left (Nat.lt_succ_of_lt ·)
    unfold fitSearch at h
    split at h
    case isTrue hrej =>
      obtain ⟨hold, hrest⟩ := ih hkept h
      exact ⟨hold, split_range hrest fun _ hacc => absurd hrej (by simp [hacc])⟩
    case isFalse hacc =>
      have hacc := Bool.eq_false_of_not_eq_true hacc
      have hden := fitCandidate_den_pos hp ht hacc
      split at h
      case isTrue himp =>
        have hbeats : ∀ b, best = some b → (fitCandidate t k w).Surpasses p t k b := by
          rintro b rfl
          obtain ⟨_, hb, hclose⟩ := hbest b rfl
          exact ⟨(fitImproves_some_iff hden hb).mp himp, hclose⟩
        split at h
        case isTrue =>
          obtain rfl := Option.some.inj h
          refine ⟨fun b hb => .inr (hbeats b hb), fun v hv hvc => absurd hvc (Nat.not_lt.mpr hv)⟩
        case isFalse hclose =>
          have hclose := Bool.eq_false_of_not_eq_true hclose
          obtain ⟨hnew, hrest⟩ := ih (by rintro b ⟨rfl⟩; exact ⟨Nat.lt_succ_self w, hden, hclose⟩) h
          refine ⟨fun b hb => .inr ?_, split_range hrest fun hlt _ => ?_⟩
          · obtain ⟨hlt, hbclose⟩ := hbeats b hb
            rcases hnew _ rfl with rfl | ⟨hlt', _⟩
            · exact ⟨hlt, hbclose⟩
            · exact ⟨hlt'.trans hlt, hbclose⟩
          · rcases hnew _ rfl with rfl | hs
            · exact absurd hlt (Nat.lt_irrefl w)
            · exact hs
      case isFalse himp =>
        obtain ⟨hold, hrest⟩ := ih hkept h
        refine ⟨hold, split_range hrest fun hlt _ => ?_⟩
        cases best with
        | none => exact absurd rfl himp
        | some b =>
          obtain ⟨hbw, hb, _⟩ := hbest b rfl
          rcases hold b rfl with rfl | hs
          · omega
          · exact hs.of_error_le he hb hden (not_lt.mp (mt (fitImproves_some_iff hden hb).mpr himp))

/-- The answer of `fit` surpasses every smaller accepted wrap (41_rate.md R130). -/
theorem fit_surpasses {p : Config.Params} {t k : Nat} {c : Fitted} (hp : 1 ≤ p.d16Min) (he : 0 < p.epsDen)
    (h : fit p t k = some c) {v : Nat} (hmin : p.wrapMin ≤ v) (hlt : v < c.wrap)
    (hacc : fitRejects p t k v = false) : c.Surpasses p t k (fitCandidate t k v) := by
  have ht := (fit_mem h).1
  unfold fit at h
  rw [if_neg (Nat.ne_of_gt ht)] at h
  exact (fitSearch_surpasses hp he ht (by simp) h).2 v hmin hlt hacc

/-- The error of a wrap with its rounded divider is its candidate's (41_rate.md R130, R132). -/
theorem rateError_eq {t : Nat} (k w : Nat) (ht : 0 < t) : rateError t k w = (fitCandidate t k w).error t k := by
  rw [rateError, ← fitCandidate_d16 k w ht, Int.cast_natCast]
  rfl

/-- The bounds of 00_scope.md R7 that the Rate Fitter relies on. -/
theorem params_fit_bounds {p : Config.Params} (h : p.wf = true) : 1 ≤ p.d16Min ∧ 0 < p.epsDen := by
  simp only [Config.Params.wf, Bool.and_eq_true, decide_eq_true_eq] at h
  obtain ⟨⟨⟨⟨⟨⟨⟨⟨_, _⟩, _⟩, hd16⟩, _⟩, _⟩, _⟩, heps⟩, _⟩ := h
  exact ⟨hd16, heps⟩

/-- Settles O26: `fit_surpasses` for the smaller wraps, `fit_best` for all of them. -/
theorem fitFindsTheBestRate : Obligations.FitFindsTheBestRate := by
  unfold Obligations.FitFindsTheBestRate
  intro p t k hwf ht
  obtain ⟨hp, he⟩ := params_fit_bounds hwf
  simp only [rateError_eq k _ ht, ← fitRejects_eq_false_iff k _ ht]
  refine ⟨?_, fun c hc => ?_⟩
  · rw [← Option.not_isSome_iff_eq_none, fit_isSome_iff ht]
    simp
  · obtain ⟨_, hmin, hmax, hacc, hcand⟩ := fit_mem hc
    obtain ⟨hdmin, hdmax⟩ := fitCandidate_range ht hacc
    have hden := fitCandidate_den_pos hp ht hacc
    have hd16 := fitCandidate_d16 k c.wrap ht
    rw [← hcand] at hdmin hdmax hden hd16 ⊢
    refine ⟨hmin, hmax, hacc, hd16, hdmin, hdmax, fun _ w hw hlt haccw => ?_, fun hfar w hw hw' haccw => ?_⟩
    · have hclose := (fit_surpasses hp he hc hw hlt haccw).2
      rw [← Bool.not_eq_true, fitClose_iff (fitCandidate_den_pos hp ht haccw) he] at hclose
      exact not_lt.mp hclose
    · refine ⟨?_, fun hlt => (fit_surpasses hp he hc hw hlt haccw).1⟩
      rcases fit_best hp hc with hclose | hleast
      · exact absurd ((fitClose_iff hden he).mp hclose) (not_lt.mpr hfar)
      · exact hleast w hw hw' haccw

/-! The commands. -/

/-- The achieved rate as a quotient of naturals (41_rate.md R131). -/
theorem achievedRate_eq (c : Fitted) (k : Nat) : achievedRate k c.wrap c.d16 = ((16 * k : ℕ) : ℚ) / (c.den : ℕ) := by
  simp [achievedRate, Fitted.den]

/-- RES2 holds the floor of the exact rate (41_rate.md R134). -/
theorem fitted_hz (c : Fitted) (k : Nat) : c.hz k = BitVec.ofInt 32 ⌊achievedRate k c.wrap c.d16⌋ := by
  rw [achievedRate_eq, Rat.floor_natCast_div_natCast, ← Int.natCast_ediv, BitVec.ofInt_natCast]
  rfl

/-- The remainder scaled by 2^16 is below 2^16, so the 16 bits of the fraction hold it whole. -/
theorem mod_mul_div_lt (n d : Nat) : n % d * 65536 / d < 65536 := by
  rcases Nat.eq_zero_or_pos d with rfl | hd
  · simp
  · rw [Nat.div_lt_iff_lt_mul hd, Nat.mul_comm]
    exact Nat.mul_lt_mul_of_pos_left (Nat.mod_lt n hd) (by decide)

/-- RES3 holds the floor of the exact rate's fraction times 2^16 (41_rate.md R134). -/
theorem fitted_frac (c : Fitted) (k : Nat) :
    (c.frac k).setWidth 32 =
      BitVec.ofInt 32 ⌊(achievedRate k c.wrap c.d16 - ⌊achievedRate k c.wrap c.d16⌋) * 65536⌋ := by
  have hfloor : ⌊(achievedRate k c.wrap c.d16 - ⌊achievedRate k c.wrap c.d16⌋) * 65536⌋ =
      ((16 * k % c.den * 65536 / c.den : ℕ) : ℤ) := by
    rw [Int.self_sub_floor, achievedRate_eq, Int.fract_div_natCast_eq_div_natCast_mod, div_mul_eq_mul_div,
      ← Nat.cast_ofNat (R := ℚ), ← Nat.cast_mul, Rat.floor_natCast_div_natCast, Int.natCast_ediv]
  rw [hfloor, BitVec.ofInt_natCast, Fitted.frac, BitVec.setWidth_ofNat_of_le_of_lt (by decide) (mod_mul_div_lt _ _)]

/-- Settles O28: `execFit` on each answer, with the parts of the achieved rate by `fitted_hz` and `fitted_frac`. -/
theorem fitCommandReportsTheFit : Obligations.FitCommandReportsTheFit := by
  unfold Obligations.FitCommandReportsTheFit
  refine ⟨decode_encode .fit, fun s => ⟨fun hnone => ?_, fun c hc a ha => ?_⟩⟩
  · show execFit s = _
    rw [execFit, hnone]
    exact raise_eq .config s
  · subst ha
    show execFit s = _
    rw [execFit, hc, ← fitted_hz, ← fitted_frac]
    rfl

/-- Settles O30: the floor of the exact product is the quotient of naturals, and the clamp is the same on both. -/
theorem rateApplyScalesAndClamps : Obligations.RateApplyScalesAndClamps := by
  unfold Obligations.RateApplyScalesAndClamps
  refine ⟨decode_encode .rateApply, fun s q hq => ?_⟩
  have hq : q = ((s.args.a0.toNat * s.rateScale.toNat / 65536 : ℕ) : ℤ) := by
    rw [hq, ← Nat.cast_mul, ← Nat.cast_ofNat (R := ℚ), Rat.floor_natCast_div_natCast]
    rfl
  have hv : BitVec.ofInt 32 (min (max q s.cfg.rateMin) s.cfg.rateMax) =
      scaledRate s.cfg s.rateScale.toNat s.args.a0.toNat := by
    rw [hq, ← Nat.cast_max, ← Nat.cast_min, BitVec.ofInt_natCast]
    rfl
  rw [hv]
  rfl

/-- Settles O29: RATE.SET's value with the clamp written out. -/
theorem rateSetConvertsThePercentage : Obligations.RateSetConvertsThePercentage := by
  unfold Obligations.RateSetConvertsThePercentage
  refine ⟨decode_encode .rateSet, fun s v hv => ?_⟩
  exact execRateSet_of_scale (s := s) hv.symm

end Sys2Proof.Machine

namespace Sys2Proof.Machine

/-! The corner cases of `fit`. -/

/-- A rate of 0 is never fitted (41_rate.md R133). -/
theorem fit_zero_rate (p : Config.Params) (k : Nat) : fit p 0 k = none := rfl

/-- A clock of 0 rejects every wrap (41_rate.md R133). -/
theorem fit_zero_clock {p : Config.Params} (hp : 1 ≤ p.d16Min) (t : Nat) : fit p t 0 = none := by
  rw [Option.eq_none_iff_forall_ne_some]
  intro c hc
  obtain ⟨ht, _, _, hacc, _⟩ := fit_mem hc
  have hpos : 0 < p.d16Min * t * (c.wrap + 1) := by positivity
  simp [fitRejects] at hacc
  omega

/-- The wraps that the default bounds accept at 125 MHz, on integers (41_rate.md R130). -/
theorem fitRejects_platform_iff {t w : Nat} : fitRejects Config.platform t 125000000 w = false ↔
    16 * (t * (w + 1)) ≤ 2000000000 ∧ 2000000000 ≤ 4095 * (t * (w + 1)) := by
  simp [fitRejects, Config.platform, mul_assoc]

/-- With the default bounds and a 125 MHz clock the rates that fit are those from 120 Hz to 488281 Hz: from 1908 Hz on
the least wrap is accepted, below it the greatest (41_rate.md R133). -/
theorem fit_platform_isSome_iff (t : Nat) :
    (fit Config.platform t 125000000).isSome = true ↔ 120 ≤ t ∧ t ≤ 488281 := by
  rcases Nat.eq_zero_or_pos t with rfl | ht
  · simp [fit_zero_rate]
  rw [fit_isSome_iff ht]
  simp only [fitRejects_platform_iff]
  constructor
  · rintro ⟨w, hmin, hmax, hhigh, hlow⟩
    have hmin : t * 256 ≤ t * (w + 1) := Nat.mul_le_mul_left t (Nat.succ_le_succ hmin)
    have hmax : t * (w + 1) ≤ t * 4096 := Nat.mul_le_mul_left t (Nat.succ_le_succ hmax)
    omega
  · rintro ⟨hlow, hhigh⟩
    rcases Nat.lt_or_ge t 1908 with h | h
    · exact ⟨4095, by decide, by decide, by omega, by omega⟩
    · exact ⟨255, by decide, by decide, by omega, by omega⟩

/-! Sets of numbers held as the bits of one number: the kernel searches an interval of such a set by one shift. -/

/-- The set of the first `n` multiples of `d`, 0 the first of them. -/
def multiplesSet (d n : Nat) : Nat := (2 ^ (d * n) - 1) / (2 ^ d - 1)

theorem multiplesSet_succ {d : Nat} (hd : 0 < d) (n : Nat) :
    multiplesSet d (n + 1) = 2 ^ d * multiplesSet d n + 1 := by
  simp only [multiplesSet, pow_mul, ← Nat.geomSum_eq (Nat.le_self_pow hd.ne' 2), geom_sum_succ]

theorem testBit_multiplesSet {d : Nat} (hd : 0 < d) (n x : Nat) :
    (multiplesSet d n).testBit x = true ↔ ∃ i < n, x = i * d := by
  induction n generalizing x with
  | zero => simp [multiplesSet]
  | succ n ih =>
    rw [multiplesSet_succ hd, Nat.testBit_two_pow_mul_add _ (Nat.one_lt_two_pow hd.ne')]
    split
    case isTrue hlt =>
      rw [Nat.testBit_one_eq_true_iff_self_eq_zero]
      refine ⟨fun hx => ⟨0, n.succ_pos, by omega⟩, ?_⟩
      rintro ⟨i, _, rfl⟩
      exact Nat.eq_zero_of_not_pos fun hpos => by nlinarith [Nat.pos_of_mul_pos_right hpos]
    case isFalse hge =>
      rw [ih]
      constructor
      · rintro ⟨i, hi, hx⟩
        exact ⟨i + 1, Nat.succ_lt_succ hi, by rw [Nat.add_one_mul]; omega⟩
      · rintro ⟨i, hi, rfl⟩
        obtain ⟨j, rfl⟩ : ∃ j, i = j + 1 :=
          Nat.exists_eq_add_one.mpr (Nat.pos_of_ne_zero fun h => by simp [h, hd] at hge)
        exact ⟨j, Nat.lt_of_succ_lt_succ hi, by rw [Nat.add_one_mul, Nat.add_sub_cancel]⟩

/-- Some member of the set lies in `[lo, hi]`. -/
def meets (s lo hi : Nat) : Bool :=
  Nat.ble 1 (Nat.mod (Nat.shiftRight s lo) (Nat.pow 2 (Nat.sub (Nat.succ hi) lo)))

theorem meets_iff (s lo hi : Nat) : meets s lo hi = true ↔ ∃ x, lo ≤ x ∧ x ≤ hi ∧ s.testBit x = true := by
  have hmeets : meets s lo hi = true ↔ (s >>> lo) % 2 ^ (hi + 1 - lo) ≠ 0 :=
    (Iff.of_eq Nat.ble_eq).trans Nat.one_le_iff_ne_zero
  rw [hmeets]
  constructor
  · intro h
    obtain ⟨i, hbit⟩ := Nat.exists_testBit_of_ne_zero h
    rw [Nat.testBit_mod_two_pow, Nat.testBit_shiftRight, Bool.and_eq_true, decide_eq_true_eq] at hbit
    obtain ⟨hi, hx⟩ := hbit
    exact ⟨lo + i, by omega, by omega, hx⟩
  · rintro ⟨x, hlo, hhi, hx⟩ hzero
    have hbit : ((s >>> lo) % 2 ^ (hi + 1 - lo)).testBit (x - lo) = true := by
      rw [Nat.testBit_mod_two_pow, Nat.testBit_shiftRight, Nat.add_sub_cancel' hlo, hx, Bool.and_true,
        decide_eq_true_eq]
      omega
    simp [hzero] at hbit

/-- The products below 2^18 of the divider `d` and a period of 256 to 4096 counts. -/
def productsOf (d : Nat) : Nat := multiplesSet d (min 3841 (262144 / d - 256)) <<< (256 * d)

theorem testBit_productsOf {d : Nat} (hd : 0 < d) (x : Nat) : (productsOf d).testBit x = true ↔
    ∃ P, 256 ≤ P ∧ P ≤ 4096 ∧ P < 262144 / d ∧ x = P * d := by
  simp only [productsOf, Nat.testBit_shiftLeft, Bool.and_eq_true, decide_eq_true_eq, testBit_multiplesSet hd]
  constructor
  · rintro ⟨hx, i, hi, hi'⟩
    exact ⟨i + 256, by omega, by omega, by omega, by rw [Nat.add_mul]; omega⟩
  · rintro ⟨P, hmin, hmax, hx, rfl⟩
    exact ⟨Nat.mul_le_mul_right d hmin, P - 256, by omega, (Nat.sub_mul P 256 d).symm⟩

/-- The products of the `n` dividers from 17 on. -/
def productsSet (n : Nat) : Nat :=
  match n with
  | 0 => 0
  | n + 1 => productsSet n ||| productsOf (n + 17)

theorem testBit_productsSet (n x : Nat) : (productsSet n).testBit x = true ↔
    ∃ P d, 17 ≤ d ∧ d < n + 17 ∧ 256 ≤ P ∧ P ≤ 4096 ∧ P < 262144 / d ∧ x = P * d := by
  induction n with
  | zero =>
    simp only [productsSet, Nat.zero_testBit, Bool.false_eq_true, false_iff]
    rintro ⟨_, d, hmin, hmax, _⟩
    omega
  | succ n ih =>
    rw [productsSet, Nat.testBit_or, Bool.or_eq_true, ih, testBit_productsOf (Nat.succ_pos _)]
    constructor
    · rintro (⟨P, d, hmin, hmax, h⟩ | ⟨P, h⟩)
      · exact ⟨P, d, hmin, by omega, h⟩
      · exact ⟨P, n + 17, by omega, by omega, h⟩
    · rintro ⟨P, d, hmin, hmax, h⟩
      rcases Nat.eq_or_lt_of_le (show d ≤ n + 17 by omega) with rfl | hlt
      · exact .inr ⟨P, h⟩
      · exact .inl ⟨P, d, hmin, hlt, h⟩

/-- The products that matter at audio rates. -/
def audioProducts : Nat := productsSet 960

theorem testBit_audioProducts (x : Nat) : audioProducts.testBit x = true ↔
    ∃ P d, 17 ≤ d ∧ d < 977 ∧ 256 ≤ P ∧ P ≤ 4096 ∧ P < 262144 / d ∧ x = P * d := by
  rw [audioProducts, testBit_productsSet]

/-- `f n`; the kernel evaluates `n` first, and only once. -/
def evalWith (n : Nat) (f : Nat → Bool) : Bool := Nat.rec false (fun m _ => f m) (n + 1)

theorem eq_of_evalWith {s n : Nat} {f : Nat → Nat} (h : evalWith s (fun s => Nat.beq (f s) n) = true) : f s = n :=
  Nat.eq_of_beq_eq_true h

theorem meets_quotients_iff {a b c e : Nat} (s : Nat) (hb : 0 < b) (he : 0 < e) :
    meets s (Nat.succ (Nat.div a b)) (Nat.div c e) = true ↔ ∃ x, a < x * b ∧ x * e ≤ c ∧ s.testBit x = true := by
  simp only [meets_iff, ← Nat.div_lt_iff_lt_mul hb, ← Nat.le_div_iff_mul_le he]
  rfl

/-! The audio rates by their products `P * D16`, with `P = W + 1`: the achieved rate is `2 * 10^9` over the product. -/

/-- The period `P` with the divider `d` is accepted at the rate `t`, with an error below FIT_EPS. -/
def ClosePair (t P d : Nat) : Prop :=
  256 ≤ P ∧ P ≤ 4096 ∧ 16 * (t * P) ≤ 2000000000 ∧
    4000000000 < 2 * (t * (P * d)) + P * d ∧ 2 * (t * (P * d)) < 4000000000 + P * d

theorem fitClose_platform_iff {t w d : Nat} : fitClose Config.platform t 125000000 ⟨w, d⟩ = true ↔
    4000000000 < 2 * (t * ((w + 1) * d)) + (w + 1) * d ∧ 2 * (t * ((w + 1) * d)) < 4000000000 + (w + 1) * d := by
  rw [fitClose_platform, Nat.add_mul, Nat.one_mul, Nat.mul_assoc]

/-- A divider whose product with the period is close to `2 * 10^9 / T` is the candidate's (41_rate.md R132). -/
theorem fitCandidate_of_closePair {t w d : Nat} (hd : d ≤ t) (h : ClosePair t (w + 1) d) :
    fitCandidate t 125000000 w = ⟨w, d⟩ := by
  obtain ⟨_, _, _, hlt, hgt⟩ := h
  have hx : (w + 1) * d ≤ t * (w + 1) := by rw [Nat.mul_comm t]; exact Nat.mul_le_mul_left _ hd
  have e : 2 * t * (w + 1) * d = 2 * (t * ((w + 1) * d)) := by ring
  refine fitCandidate_eq (P := w + 1) ?_ ?_
  · omega
  · rw [Nat.mul_add (2 * t * (w + 1)), Nat.mul_one, e, Nat.mul_assoc 2]
    omega

/-- `fit` stops early exactly if some period and divider make it so. -/
theorem fit_close_platform_iff {t : Nat} (h1 : 8000 ≤ t) :
    (fit Config.platform t 125000000).any (fitClose Config.platform t 125000000) = true ↔
      ∃ P d, 16 ≤ d ∧ d ≤ 976 ∧ ClosePair t P d := by
  rw [fit_close_iff (by decide) (by decide) (by omega)]
  constructor
  · rintro ⟨w, hmin, hmax, hacc, hclose⟩
    have hd := (fitCandidate_range (by omega) hacc).1
    obtain ⟨d, hcand⟩ : ∃ d, fitCandidate t 125000000 w = ⟨w, d⟩ := ⟨_, rfl⟩
    rw [hcand] at hd hclose
    obtain ⟨hhigh, _⟩ := fitRejects_platform_iff.mp hacc
    obtain ⟨hlt, hgt⟩ := fitClose_platform_iff.mp hclose
    have hmin : 256 ≤ w + 1 := Nat.succ_le_succ hmin
    refine ⟨w + 1, d, hd, ?_, hmin, Nat.succ_le_succ hmax, hhigh, hlt, hgt⟩
    have hy := Nat.mul_le_mul_right ((w + 1) * d) h1
    have hx := Nat.mul_le_mul_right d hmin
    omega
  · rintro ⟨P, d, hd, hd', hpair⟩
    have hparts := hpair
    obtain ⟨hmin, hmax, hhigh, hlt, hgt⟩ := hparts
    obtain ⟨w, rfl⟩ : ∃ w, P = w + 1 := Nat.exists_eq_add_one.mpr (by omega)
    have hcand := fitCandidate_of_closePair (by omega) hpair
    refine ⟨w, Nat.le_of_succ_le_succ hmin, Nat.le_of_succ_le_succ hmax, fitRejects_platform_iff.mpr ⟨hhigh, ?_⟩, ?_⟩
    · have hy : t * ((w + 1) * d) ≤ t * (w + 1) * 976 := by rw [← Nat.mul_assoc]; exact Nat.mul_le_mul_left _ hd'
      have hx : (w + 1) * d ≤ t * (w + 1) := by rw [Nat.mul_comm t]; exact Nat.mul_le_mul_left _ (by omega)
      omega
    · rw [hcand]
      exact fitClose_platform_iff.mpr ⟨hlt, hgt⟩

/-- With the divider 16 the greatest accepted period comes closest, as the ideal divider is at least 16 sixteenths. -/
theorem exists_closePair_sixteen_iff {t : Nat} (h1 : 8000 ≤ t) (h2 : t ≤ 48000) :
    (∃ P, ClosePair t P 16) ↔ 4000000000 < 16 * (125000000 / t) * (2 * t + 1) ∧ 125000000 / t ≤ 4096 := by
  have hacc (P : Nat) : P ≤ 125000000 / t ↔ 16 * (t * P) ≤ 2000000000 := by
    rw [Nat.le_div_iff_mul_le (by omega), Nat.mul_comm]; omega
  have etx (P : Nat) : t * (P * 16) = 16 * (t * P) := by ring
  have elow (P : Nat) : 16 * P * (2 * t + 1) = 2 * (t * (P * 16)) + P * 16 := by ring
  rw [elow]
  constructor
  · rintro ⟨P, _, hmax, hP, hlt, _⟩
    have hle := (hacc P).mpr hP
    have htle := Nat.mul_le_mul_left t hle
    have htP := Nat.mul_le_mul_left t hmax
    rw [etx] at hlt ⊢
    exact ⟨by omega, Nat.le_of_lt_succ (Nat.div_lt_of_lt_mul (by omega))⟩
  · rintro ⟨hlt, hmax⟩
    have hP := (hacc _).mp le_rfl
    have hmin := (hacc 256).mpr (by omega)
    exact ⟨_, hmin, hmax, hP, hlt, by rw [etx]; omega⟩

/-- With a divider from 17 on a close period is accepted, and the product is below 2^18. -/
theorem closePair_iff_product {t P d : Nat} (h1 : 8000 ≤ t) (hd : 17 ≤ d) (hd' : d ≤ 976) :
    ClosePair t P d ↔ 256 ≤ P ∧ P ≤ 4096 ∧ P < 262144 / d ∧
      4000000000 < 2 * (t * (P * d)) + P * d ∧ 2 * (t * (P * d)) < 4000000000 + P * d := by
  have hx : 8000 * (P * d) ≤ t * (P * d) := Nat.mul_le_mul_right _ h1
  have hy : t * P * 17 ≤ t * (P * d) := by rw [← Nat.mul_assoc]; exact Nat.mul_le_mul_left _ hd
  have hlt : P < 262144 / d ↔ P * d + d ≤ 262144 := by
    rw [← Nat.add_one_mul, ← Nat.le_div_iff_mul_le (by omega), Nat.add_one_le_iff]
  rw [ClosePair, hlt]
  omega

/-- The rate `t` stops early: with a divider from 17 on, whose product with the period is in `s`; or with the divider
16. -/
def stopsEarlyBy (s t : Nat) : Bool :=
  meets s (Nat.succ (Nat.div 4000000000 (Nat.succ (Nat.mul 2 t)))) (Nat.div 3999999999 (Nat.sub (Nat.mul 2 t) 1)) ||
    (Nat.ble 4000000001 (Nat.mul (Nat.mul 16 (Nat.div 125000000 t)) (Nat.succ (Nat.mul 2 t))) &&
      Nat.ble (Nat.div 125000000 t) 4096)

theorem stopsEarlyBy_iff (s : Nat) {t : Nat} (ht : 0 < t) : stopsEarlyBy s t = true ↔
    (∃ x, 4000000000 < x * (2 * t + 1) ∧ x * (2 * t - 1) ≤ 3999999999 ∧ s.testBit x = true) ∨
      4000000000 < 16 * (125000000 / t) * (2 * t + 1) ∧ 125000000 / t ≤ 4096 := by
  rw [stopsEarlyBy, Bool.or_eq_true, Bool.and_eq_true, Nat.ble_eq, Nat.ble_eq]
  exact or_congr (meets_quotients_iff s (b := 2 * t + 1) (e := 2 * t - 1) (by omega) (by omega)) Iff.rfl

/-- The test on the products of all dividers decides an early stop (41_rate.md R137 (c)). -/
theorem stopsEarlyBy_products_iff {t : Nat} (h1 : 8000 ≤ t) (h2 : t ≤ 48000) :
    stopsEarlyBy audioProducts t = true ↔
      (fit Config.platform t 125000000).any (fitClose Config.platform t 125000000) = true := by
  rw [fit_close_platform_iff h1, stopsEarlyBy_iff _ (by omega), ← exists_closePair_sixteen_iff h1 h2]
  have elow (x : Nat) : x * (2 * t + 1) = 2 * (t * x) + x := by ring
  have ehigh (x : Nat) : x * (2 * t - 1) = 2 * (t * x) - x := by rw [Nat.mul_sub, Nat.mul_one]; congr 1; ring
  simp only [testBit_audioProducts, elow, ehigh]
  constructor
  · rintro (⟨_, hlt, hgt, P, d, hd, hd', hmin, hmax, hx, rfl⟩ | ⟨P, hpair⟩)
    · exact ⟨P, d, by omega, by omega, (closePair_iff_product h1 hd (by omega)).mpr ⟨hmin, hmax, hx, hlt, by omega⟩⟩
    · exact ⟨P, 16, le_rfl, by decide, hpair⟩
  · rintro ⟨P, d, hd, hd', hpair⟩
    rcases Nat.eq_or_lt_of_le hd with rfl | hd
    · exact .inr ⟨P, hpair⟩
    · obtain ⟨hmin, hmax, hx, hlt, hgt⟩ := (closePair_iff_product h1 hd hd').mp hpair
      exact .inl ⟨P * d, hlt, by omega, P, d, hd, by omega, hmin, hmax, hx, rfl⟩

/-- A product that keeps both bounds of 41_rate.md R137 (c) passes their test: its period is the one nearest to
`2 * 10^9 / (T * d)`. -/
theorem boundKept_of_product {t P d : Nat} (h1 : 8000 ≤ t) (hd : 17 ≤ d) (hd' : d ≤ 976) (hmin : 256 ≤ P)
    (hmax : P ≤ 4096) (hrel : 1999854380 ≤ t * (P * d)) (hrel' : t * (P * d) ≤ 2000145642)
    (habs : 42558000000000 ≤ P * d * (21279 * t + 70442))
    (habs' : P * d * (21279 * t - 70442) ≤ 42558000000000) : boundKept t = true := by
  obtain ⟨w, rfl⟩ : ∃ w, P = w + 1 := Nat.exists_eq_add_one.mpr (by omega)
  have etd : t * ((w + 1) * d) = (w + 1) * (t * d) := by ring
  have etw : t * ((w + 1) * d) = t * (w + 1) * d := (Nat.mul_assoc ..).symm
  have htd : (w + 1) * (t * d) ≤ 4096 * (t * d) := Nat.mul_le_mul_right _ hmax
  have htw : t * (w + 1) * 17 ≤ t * (w + 1) * d := Nat.mul_le_mul_left _ hd
  have hfirst : 2000000000 / (4096 * t) ≤ d := by
    have e : 4096 * t * (d + 1) = 4096 * (t * d) + 4096 * t := by ring
    exact Nat.le_of_lt_succ (Nat.div_lt_of_lt_mul (by rw [Nat.succ_eq_add_one, e]; omega))
  have hnearest : (4000000000 + t * d) / (2 * t * d) = w + 1 := by
    rw [Nat.mul_assoc 2]
    refine Nat.div_eq_of_lt_le ?_ ?_
    · have e : (w + 1) * (2 * (t * d)) = 2 * ((w + 1) * (t * d)) := by ring
      omega
    · have e : (w + 1 + 1) * (2 * (t * d)) = 2 * ((w + 1) * (t * d)) + 2 * (t * d) := by ring
      omega
  rw [boundKept, anyFrom_iff]
  refine ⟨d, hfirst, by omega, boundAt_iff.mpr ⟨w, hnearest.symm, ?_, ?_, habs, habs', by omega, by omega, ?_⟩⟩
  · rw [Nat.mul_comm _ t]; omega
  · rw [Nat.mul_comm _ t]; omega
  · rw [Nat.mul_assoc]; omega

/-- A product in `s` keeps, at the rate `t`, the bound of 41_rate.md R137 (c) that is the tighter one there. -/
def boundKeptBy (s t : Nat) : Bool :=
  cond (Nat.ble t 45462) (meets s (Nat.succ (Nat.div 1999854379 t)) (Nat.div 2000145642 t))
    (meets s (Nat.succ (Nat.div 42557999999999 (Nat.add (Nat.mul 21279 t) 70442)))
      (Nat.div 42558000000000 (Nat.sub (Nat.mul 21279 t) 70442)))

theorem boundKeptBy_products {t : Nat} (h1 : 8000 ≤ t) (h : boundKeptBy audioProducts t = true) :
    boundKept t = true := by
  have elow (x : Nat) : x * (21279 * t + 70442) = 21279 * (t * x) + 70442 * x := by ring
  have ehigh (x : Nat) : x * (21279 * t - 70442) = 21279 * (t * x) - 70442 * x := by
    rw [Nat.mul_sub, Nat.mul_comm x 70442]; congr 1; ring
  rw [boundKeptBy] at h
  cases htight : Nat.ble t 45462 with
  | true =>
    have htx (x : Nat) : t * x ≤ 45462 * x := Nat.mul_le_mul_right x (Nat.le_of_ble_eq_true htight)
    rw [htight, cond_true, meets_quotients_iff _ (by omega) (by omega)] at h
    obtain ⟨_, hlow, hhigh, hx⟩ := h
    obtain ⟨P, d, hd, hd', hmin, hmax, -, rfl⟩ := (testBit_audioProducts _).mp hx
    rw [Nat.mul_comm _ t] at hlow hhigh
    have := htx (P * d)
    refine boundKept_of_product h1 hd (by omega) hmin hmax hlow hhigh ?_ ?_
    · rw [elow]; omega
    · rw [ehigh]; omega
  | false =>
    have ht : 45462 < t := Nat.lt_of_not_le (mt Nat.ble_eq.mpr (ne_true_of_eq_false htight))
    have htx (x : Nat) : 45463 * x ≤ t * x := Nat.mul_le_mul_right x ht
    rw [htight, cond_false] at h
    obtain ⟨_, hlow, hhigh, hx⟩ := (meets_quotients_iff _ (b := 21279 * t + 70442) (e := 21279 * t - 70442)
      (by omega) (by omega)).mp h
    obtain ⟨P, d, hd, hd', hmin, hmax, -, rfl⟩ := (testBit_audioProducts _).mp hx
    have := htx (P * d)
    refine boundKept_of_product h1 hd (by omega) hmin hmax ?_ ?_ hlow hhigh
    · rw [elow] at hlow; omega
    · rw [ehigh] at hhigh; omega

/-! The tests evaluated at every audio rate. -/

theorem countFrom_add (f : Nat → Bool) (k t n : Nat) :
    (List.range' t (2 ^ k + n)).countP f = countFrom f k t + (List.range' (t + 2 ^ k) n).countP f := by
  rw [countFrom_eq, ← List.countP_append, List.range'_append_1]

/-- How many of the 40001 audio rates `f` holds of, in ranges of a power of two. -/
def countAudio (f : Nat → Bool) : Nat :=
  countFrom f 15 8000 + (countFrom f 12 40768 + (countFrom f 11 44864 + (countFrom f 10 46912 + (countFrom f 6 47936 +
    countFrom f 0 48000))))

theorem countAudio_eq (f : Nat → Bool) : (List.range' 8000 40001).countP f = countAudio f := by
  have h15 := countFrom_add f 15 8000 7233
  have h12 := countFrom_add f 12 40768 3137
  have h11 := countFrom_add f 11 44864 1089
  have h10 := countFrom_add f 10 46912 65
  have h6 := countFrom_add f 6 47936 1
  rw [countAudio, countFrom_eq f 0]
  exact h15.trans (congrArg _ (h12.trans (congrArg _ (h11.trans (congrArg _ (h10.trans (congrArg _ h6)))))))

theorem count_stopsEarlyBy : countAudio (stopsEarlyBy audioProducts) = 34869 :=
  eq_of_evalWith (f := fun s => countAudio (stopsEarlyBy s)) (by decide +kernel)

theorem count_boundKeptBy : countAudio (boundKeptBy audioProducts) = 40001 :=
  eq_of_evalWith (f := fun s => countAudio (boundKeptBy s)) (by decide +kernel)

/-- How many audio rates `fit` ends early at (41_rate.md R137 (c)). -/
theorem fit_audio_early_stops : (List.range' 8000 40001).countP (fun t =>
    (fit Config.platform t 125000000).any (fitClose Config.platform t 125000000)) = 34869 := by
  rw [← count_stopsEarlyBy, ← countAudio_eq]
  refine List.countP_congr fun t ht => ?_
  obtain ⟨hmin, hmax⟩ := List.mem_range'_1.mp ht
  exact (stopsEarlyBy_products_iff hmin (by omega)).symm

/-- Every audio rate passes the test of the bounds (41_rate.md R137 (c)). -/
theorem boundKept_audio {t : Nat} (h1 : 8000 ≤ t) (h2 : t ≤ 48000) : boundKept t = true := by
  have hall : (List.range' 8000 40001).countP (boundKeptBy audioProducts) = (List.range' 8000 40001).length := by
    rw [countAudio_eq, count_boundKeptBy, List.length_range']
  exact boundKeptBy_products h1 (List.countP_eq_length.mp hall t (List.mem_range'_1.mpr ⟨h1, by omega⟩))

/-- At the rates where 41_rate.md R137 (c) says the worst errors lie, `fit` answers these wraps and dividers. -/
theorem fit_worst_rates : fit Config.platform 44166 125000000 = some ⟨1968, 23⟩ ∧
    fit Config.platform 46998 125000000 = some ⟨345, 123⟩ := by
  decide +kernel

/-- Every audio rate is fitted within the two bounds of 41_rate.md R137 (c). -/
theorem fit_audio_bounds {t : Nat} (h1 : 8000 ≤ t) (h2 : t ≤ 48000) :
    ∃ c, fit Config.platform t 125000000 = some c ∧
      |achievedRate 125000000 c.wrap c.d16 - (t : ℚ)| / (t : ℚ) ≤ 72821 / 1000072821 ∧
      |achievedRate 125000000 c.wrap c.d16 - (t : ℚ)| ≤ 70442 / 21279 := by
  obtain ⟨c, hc, hrel, habs⟩ := boundKept_spec h1 h2 (boundKept_audio h1 h2)
  have ht : (0 : ℚ) < t := by exact_mod_cast (show 0 < t by omega)
  exact ⟨c, hc, (div_le_iff₀' ht).mpr hrel, habs⟩

/-- Settles O27: the corner cases one by one, and over the audio rates the two evaluated tests. -/
theorem fitCornerCases : Obligations.FitCornerCases := by
  unfold Obligations.FitCornerCases
  refine ⟨fit_zero_rate, fun p t hwf => fit_zero_clock (params_fit_bounds hwf).1 t, fit_platform_isSome_iff,
    fun t => fit_audio_bounds, ⟨fit_worst_rates.1, ?_⟩, ⟨fit_worst_rates.2, ?_⟩, fit_audio_early_stops⟩
  · norm_num [achievedRate]
  · norm_num [achievedRate]

end Sys2Proof.Machine

namespace Sys2Proof.Machine

/-! The engine's commands, one equation per branch of their pseudocode. -/

theorem pinsValid_iff {p : Config.Params} {l r : Word} : pinsValid p l r = true ↔ (l.toNat, r.toNat) ∈ p.pins := by
  simp [pinsValid]

section
variable {s : State}

theorem execEngInit_running (hrun : s.eng.running = true) : exec .engInit s = .next { s with err := .state } :=
  if_pos hrun

/-- ENG.INIT's three operand checks (42_engine.md R162). -/
theorem execEngInit_rejected (hrun : s.eng.running = false)
    (h : (s.args.a3 ≠ 1 ∧ s.args.a3 ≠ 2) ∨ (s.args.a0.toNat, s.args.a1.toNat) ∉ s.cfg.pins ∨
      fit s.cfg s.args.a2.toNat s.cfg.sysClkHz = none) :
    exec .engInit s = .next { s with err := .config } := by
  refine (if_neg (by simp [hrun])).trans ?_
  by_cases hnch : s.args.a3 ≠ 1 ∧ s.args.a3 ≠ 2
  · exact if_pos hnch
  refine (if_neg hnch).trans ?_
  by_cases hpins : (s.args.a0.toNat, s.args.a1.toNat) ∈ s.cfg.pins
  · have hfit := (h.resolve_left hnch).resolve_left (not_not_intro hpins)
    rw [if_neg (by simp [pinsValid_iff.mpr hpins]), hfit]
    rfl
  · exact if_pos (by simpa [pinsValid] using hpins)

theorem execEngInit_fitted {c : Fitted} (hrun : s.eng.running = false) (hnch : s.args.a3 = 1 ∨ s.args.a3 = 2)
    (hpins : (s.args.a0.toNat, s.args.a1.toNat) ∈ s.cfg.pins)
    (hfit : fit s.cfg s.args.a2.toNat s.cfg.sysClkHz = some c) :
    exec .engInit s = done (({ s with
      sess := newSession s c
      eng := freshEngine s (silence c.wrap) } : State).setFitted c s.cfg.sysClkHz) := by
  refine (if_neg (by simp [hrun])).trans ((if_neg (by tauto)).trans ?_)
  rw [if_neg (by simp [pinsValid_iff.mpr hpins]), hfit]

theorem execEngSetprov_refused (h : s.eng.running = true ∨ s.sess.configured = false) :
    exec .engSetprov s = .next { s with err := .state } := if_pos (by simpa using h)

theorem execEngSetprov_rejected (hrun : s.eng.running = false) (hconf : s.sess.configured = true)
    (h : 2 < s.args.a0.toNat) : exec .engSetprov s = .next { s with err := .config } :=
  (if_neg (by simp [hrun, hconf])).trans (if_pos h)

theorem execEngSetprov_admitted (hrun : s.eng.running = false) (hconf : s.sess.configured = true)
    (h : s.args.a0.toNat ≤ 2) :
    exec .engSetprov s = .next { s with eng := { s.eng with prov := Prov.ofWord s.args.a0 }, err := .ok } :=
  (if_neg (by simp [hrun, hconf])).trans (if_neg (Nat.not_lt.mpr h))

theorem execEngStart_refused (h : s.eng.running = true ∨ s.sess.configured = false ∨ s.eng.prov = .none) :
    exec .engStart s = .next { s with err := .state } := by
  by_cases hready : (s.eng.running || !s.sess.configured) = true
  · exact if_pos hready
  · obtain ⟨hrun, hconf⟩ : s.eng.running = false ∧ s.sess.configured = true := by simpa using hready
    exact (if_neg hready).trans (if_pos (by simpa [hrun, hconf] using h))

/-- ENG.START past its checks: the draw decides (42_engine.md R164). -/
theorem execEngStart_draws (hrun : s.eng.running = false) (hconf : s.sess.configured = true)
    (hprov : s.eng.prov ≠ .none) :
    exec .engStart s = if s.claimOk then done (startOutput (fill .b1 (fill .b0 s.tookClaim)))
      else raise .resource s.tookClaim :=
  (if_neg (by simp [hrun, hconf])).trans (if_neg hprov)

end

/-! A running engine's buffers. -/

/-- Both ping-pong buffers are as they were. -/
def State.SameBanks (s t : State) : Prop := ∀ b, t.eng.bank b = s.eng.bank b

theorem sameBanks_of_eng {s t : State} (h : t.eng = s.eng) : s.SameBanks t := fun b => by rw [h]

theorem sameBanks_of_bufs {s t : State} (h0 : t.eng.buf0 = s.eng.buf0) (h1 : t.eng.buf1 = s.eng.buf1) :
    s.SameBanks t
  | .b0 => h0
  | .b1 => h1

theorem clockTurn_sameBanks (s : State) : s.SameBanks (clockTurn s) := by
  obtain ⟨_, _, _, _, h⟩ := clockTurn_frame s
  exact sameBanks_of_bufs (by rw [h]) (by rw [h])

theorem ringFrame_sameBanks {s t : State} (h : RingFrame s t) : s.SameBanks t := by
  obtain ⟨_, _, _, _, _, _, _, _, rfl⟩ := h
  exact fun _ => rfl

/-- A fill writes one buffer only (42_engine.md R170). -/
theorem fill_bank_other (b : Slot) (s : State) : (fill b s).eng.bank b.other = s.eng.bank b.other := by
  rw [fill_eng, bank_setBank_other]
  cases b <;> rfl

/-- The interrupt context's step leaves the playing buffer alone: a handler in progress fills the other one, and
completion entry fills none (42_engine.md R180, R181, R201 (a)). -/
theorem interruptStep_playing {s : State} (h : s.EngineOk) :
    (interruptStep s).eng.bank s.eng.playIdx = s.eng.bank s.eng.playIdx := by
  obtain ⟨_, _, _, _, _, hhandler, _⟩ := h
  rcases interruptStep_cases s with ⟨hin, e⟩ | ⟨_, _, _, e⟩ | ⟨_, e⟩
  · obtain ⟨_, htgt⟩ := hhandler hin
    have hplay : s.eng.playIdx = s.eng.fillTgt.other := by rw [htgt, other_other]
    rw [e, hplay]
    exact fill_bank_other s.eng.fillTgt s
  · rw [e]
    exact sameBanks_of_bufs (s := s) (t := interruptEntry s) rfl rfl _
  · rw [e]

/-- ENG.STOP writes no buffer (42_engine.md R165). -/
theorem execEngStop_sameBanks (s : State) : Ensures s.SameBanks (exec .engStop s) := by
  refine ensures_done (sameBanks_of_bufs ?_ ?_)
  · cases s.sess.configured <;> rfl
  · cases s.sess.configured <;> rfl

/-- No command writes a buffer while the engine runs: ENG.INIT and ENG.START, which would, are refused
(42_engine.md R162, R164). -/
theorem exec_sameBanks (i : Instr) {s : State} (hrun : s.eng.running = true) :
    Ensures s.SameBanks (exec i s) := by
  have fails : ∀ e, Ensures s.SameBanks (raise e s) := fun e => ensures_raise e fun _ => rfl
  have ring : ∀ j, Ensures s.SameBanks (ringStart j s) := fun _ _ h => ringFrame_sameBanks (ringStart_frame h)
  have same : ∀ {u : State}, u.eng = s.eng → Ensures s.SameBanks (done u) := fun h => ensures_done (sameBanks_of_eng h)
  cases i with
  | engInit => rw [execEngInit_running hrun]; exact fails .state
  | engSetprov => rw [execEngSetprov_refused (.inl hrun)]; exact fails .state
  | engStart => rw [execEngStart_refused (.inl hrun)]; exact fails .state
  | engStop => exact execEngStop_sameBanks s
  | rbInit =>
    exact ensures_ite (fails .state) (ensures_ite (fails .config)
      (ensures_ite (same rfl) (ensures_raise .alloc fun _ => rfl)))
  | rbWrite => exact ensures_ite (ring _) (fails .state)
  | rbRead => exact ensures_ite (fails .state) (ensures_ite (fails .state) (ring _))
  | rbClear => exact ensures_ite (fails .state) (ensures_ite (fails .state) (same rfl))
  | rbDestroy => exact ensures_ite (same rfl) (ensures_ite (fails .state) (same rfl))
  | fit =>
    show Ensures _ (execFit s)
    unfold execFit
    cases fit s.cfg s.args.a0.toNat s.args.a1.toNat with
    | none => exact fails .config
    | some c => exact same rfl
  | rateSet =>
    obtain ⟨v, hscale⟩ : ∃ v, scaleOf s.cfg s.args.a0.toNat = v := ⟨_, rfl⟩
    show Ensures _ (execRateSet s)
    rw [execRateSet_of_scale hscale]
    exact same rfl
  | nop | rbUsed | rbFree | rateApply | engUnderruns | engRate => exact same rfl

theorem hostOp_sameBanks {op : HostOp} {s t : State} (hrun : s.eng.running = true) (h : hostOp op s = .next t) :
    s.SameBanks t := by
  rcases hostOp_cases h with ⟨_, _, rfl⟩ | ⟨_, _, _, rfl⟩ | ⟨_, rfl⟩ | ⟨_, _, _, _, rfl⟩ | ⟨_, _, hi⟩
  · exact fun _ => rfl
  · exact fun _ => rfl
  · obtain ⟨_, e⟩ := checkStatus_frame s
    exact sameBanks_of_eng (by rw [e])
  · exact fun _ => rfl
  · rcases issue_cases hi with ⟨i, _, hx⟩ | rfl
    · exact exec_sameBanks i hrun t hx
    · exact fun _ => rfl

theorem hostTurn_sameBanks {s t : State} (hrun : s.eng.running = true) (h : hostTurn s = .next t) :
    s.SameBanks t := by
  rcases hostTurn_cases h with ⟨j, _, rfl⟩ | ⟨_, _, hs, _, ho⟩ | ⟨_, _, rfl⟩
  · exact ringFrame_sameBanks (ringResume_frame j s)
  · exact hostOp_sameBanks (s := { s with env := { s.env with host := hs } }) hrun ho
  · exact fun _ => rfl

/-- Settles O57, turn by turn: only the interrupt context's fill writes a buffer, and it is not the playing one. -/
theorem playingBufferIsNeverWritten : Obligations.PlayingBufferIsNeverWritten := by
  unfold Obligations.PlayingBufferIsNeverWritten
  intro s t hinv hrun h hreset
  obtain ⟨_, _, _, _, _, hengine, _⟩ := hinv
  obtain ⟨_, ⟨l, p, rfl⟩, rfl | rfl | ⟨_, hh⟩ | ⟨_, _, _, rfl⟩ | ⟨_, _, _, _, rfl⟩ | ⟨rest, hs, _⟩⟩ := step_cases h
  · exact clockTurn_sameBanks ((s.setSched l).setPhased p) _
  · exact interruptStep_playing (s := (s.setSched l).setPhased p) hengine
  · exact hostTurn_sameBanks (s := (s.setSched l).setPhased p) hrun hh _
  · rfl
  · rfl
  · exact absurd hs (hreset rest)

end Sys2Proof.Machine

namespace Sys2Proof.Machine

/-! The level map. -/

/-- The level map as a quotient of integers (42_engine.md R160). -/
theorem levelOf_toInt {w : Nat} (hw : w ≤ 65535) (x : Sample) :
    ((levelOf w x).toNat : ℤ) = (x.toInt + 32768) * (w + 1) / 65536 := by
  have hlow : -32768 ≤ x.toInt := BitVec.le_toInt x
  rw [levelOf_toNat hw, Int.natCast_ediv, Nat.cast_mul, Int.toNat_of_nonneg (by omega)]
  rfl

/-- The level of sample 0 is the silence level (42_engine.md R160). -/
theorem levelOf_zero {w : Nat} (hw : w ≤ 65535) : levelOf w 0 = silence w := by
  apply BitVec.eq_of_toNat_eq
  rw [levelOf_toNat hw, silence_toNat hw]
  show 32768 * (w + 1) / 65536 = (w + 1) / 2
  omega

/-- Settles O32: the integer quotient, and the silence level's halves by parity. -/
theorem levelMapFormula : Obligations.LevelMapFormula := by
  unfold Obligations.LevelMapFormula
  intro w hw
  have hsilence := silence_toNat hw
  exact ⟨levelOf_toInt hw, levelOf_zero hw, hsilence, by omega, by omega⟩

/-- A greater sample has no smaller level (42_engine.md R161 (a)). -/
theorem levelOf_mono {w : Nat} (hw : w ≤ 65535) {x y : Sample} (h : x.toInt ≤ y.toInt) :
    (levelOf w x).toNat ≤ (levelOf w y).toNat := by
  rw [levelOf_toNat hw, levelOf_toNat hw]
  exact Nat.div_le_div_right (Nat.mul_le_mul_right _ (by omega))

/-- The least sample has level 0 (42_engine.md R161 (b)). -/
theorem levelOf_min {w : Nat} (hw : w ≤ 65535) : levelOf w (BitVec.ofInt 16 (-32768)) = 0 := by
  apply BitVec.eq_of_toNat_eq
  rw [levelOf_toNat hw]
  show 0 * (w + 1) / 65536 = 0
  omega

/-- The greatest sample has the wrap as its level (42_engine.md R161 (b)). -/
theorem levelOf_max {w : Nat} (hw : w ≤ 65535) : (levelOf w 32767).toNat = w := by
  rw [levelOf_toNat hw]
  show 65535 * (w + 1) / 65536 = w
  omega

/-- Settles O33: monotonicity, the two ends and the bound one by one; the rule's example is evaluated. -/
theorem levelMapMonotoneAndExactAtEnds : Obligations.LevelMapMonotoneAndExactAtEnds := by
  unfold Obligations.LevelMapMonotoneAndExactAtEnds
  exact ⟨fun w hw => ⟨fun _ _ h => levelOf_mono hw h.le, levelOf_min hw, levelOf_max hw, levelOf_le hw⟩, by decide⟩

/-- A level is the silence level if it has its value (42_engine.md R160). -/
theorem eq_silence {w : Nat} {v : Level} (hw : w ≤ 65535) (hv : v.toNat = (w + 1) / 2) : v = silence w :=
  BitVec.eq_of_toNat_eq (hv.trans (silence_toNat hw).symm)

end Sys2Proof.Machine

namespace Sys2Proof.Machine

/-! ENG.INIT and the session registers. -/

/-- Settles O35: ENG.INIT's two kinds of error. -/
theorem engInitErrorsKeepTheSession : Obligations.EngInitErrorsKeepTheSession := by
  unfold Obligations.EngInitErrorsKeepTheSession
  exact fun _ => ⟨execEngInit_running, execEngInit_rejected⟩

/-- The pins of well-formed parameters are 8-bit numbers (42_engine.md R162). -/
theorem pins_bounds {p : Config.Params} (h : p.wf = true) {l r : Nat} (hpins : (l, r) ∈ p.pins) :
    l < 256 ∧ r < 256 := by
  simp only [Config.Params.wf, Bool.and_eq_true] at h
  obtain ⟨_, hall⟩ := h
  simpa using List.all_eq_true.mp hall _ hpins

/-- A fraction scaled by 2^16 is below 2^16. -/
theorem floor_fract_mul_bounds (a : ℚ) : 0 ≤ ⌊(a - ⌊a⌋) * 65536⌋ ∧ ⌊(a - ⌊a⌋) * 65536⌋ < 65536 := by
  have h0 := Int.fract_nonneg a
  have h1 := Int.fract_lt_one a
  rw [Int.self_sub_floor, Int.floor_nonneg, Int.floor_lt]
  constructor <;> push_cast <;> linarith

/-- ENG_RATE_FRAC is the floor of the exact rate's fraction times 2^16 (10_state.md R41). -/
theorem fitted_frac_toNat (c : Fitted) (k : Nat) : ((c.frac k).toNat : ℤ) =
    ⌊(achievedRate k c.wrap c.d16 - ⌊achievedRate k c.wrap c.d16⌋) * 65536⌋ := by
  have h := congrArg BitVec.toNat (fitted_frac c k)
  rw [BitVec.toNat_setWidth_of_le (by decide), BitVec.toNat_ofInt] at h
  have hbounds := floor_fract_mul_bounds (achievedRate k c.wrap c.d16)
  omega

/-- ENG_RATE and ENG_RATE_FRAC as parts of the exact achieved rate (10_state.md R41). -/
theorem fitted_rate_parts (c : Fitted) (k : Nat) {a : ℚ} (ha : a = achievedRate k c.wrap c.d16) :
    c.hz k = BitVec.ofInt 32 ⌊a⌋ ∧ ((c.frac k).toNat : ℤ) = ⌊(a - ⌊a⌋) * 65536⌋ :=
  ha ▸ ⟨fitted_hz c k, fitted_frac_toNat c k⟩

/-- Settles O34: `execEngInit_fitted`, with the narrow registers holding their operands whole. -/
theorem engInitConfiguresTheSession : Obligations.EngInitConfiguresTheSession := by
  unfold Obligations.EngInitConfiguresTheSession
  refine ⟨decode_encode .engInit, fun s c v hwf hrun hnch hpins hfit hv => ?_⟩
  obtain ⟨_, _, hmax, _⟩ := fit_mem hfit
  obtain ⟨_, h16, _⟩ := params_bounds hwf
  obtain rfl := eq_silence (hmax.trans h16) hv
  obtain ⟨hl, hr⟩ := pins_bounds hwf hpins
  refine ⟨_, execEngInit_fitted hrun hnch hpins hfit, rfl, rfl, ?_, ?_, ?_, newSession_wrap hwf hfit, rfl,
    fun a ha => fitted_rate_parts c s.cfg.sysClkHz ha, rfl, rfl⟩
  · exact BitVec.toNat_setWidth _ _ ▸ Nat.mod_eq_of_lt hl
  · exact BitVec.toNat_setWidth _ _ ▸ Nat.mod_eq_of_lt hr
  · exact BitVec.toNat_setWidth _ _ ▸ Nat.mod_eq_of_lt (by rcases hnch with e | e <;> simp [e])

/-- Settles O41: with no session the registers are unset; with one they are the fit's. -/
theorem engRateReadsTheAchievedRate : Obligations.EngRateReadsTheAchievedRate := by
  unfold Obligations.EngRateReadsTheAchievedRate
  refine ⟨decode_encode .engRate, fun s => ⟨⟨_, BitVec.toNat_setWidth_of_le (by decide), rfl⟩, ?_, ?_⟩⟩
  · rintro ⟨_, _, _, _, hs, _⟩ hconf
    obtain ⟨hunset, _⟩ := (sessionOk_unset hconf).mp hs
    rw [hunset]
    exact ⟨rfl, rfl⟩
  · rintro ⟨_, _, _, _, hs, _⟩ hconf hd a ha
    simp only [State.SessionOk, hconf, if_true] at hs
    obtain ⟨_, _, _, hfit⟩ := hs
    obtain ⟨_, _, hrate, hfrac⟩ := hfit hd
    rw [hrate, hfrac]
    exact fitted_rate_parts ⟨_, _⟩ s.cfg.sysClkHz ha

/-! ENG.SETPROV, ENG.START, ENG.STOP and ENG.UNDERRUNS. -/

theorem prov_code_le (p : Prov) : p.code.toNat ≤ 2 := by cases p <;> decide

/-- The numbers of the providers are read back (42_engine.md R163). -/
theorem prov_ofWord_code {m : Word} {p : Prov} (h : m.toNat = p.code.toNat) : Prov.ofWord m = p := by
  obtain rfl : m = p.code.setWidth 32 :=
    BitVec.eq_of_toNat_eq (h.trans (BitVec.toNat_setWidth_of_le (by decide)).symm)
  cases p <;> rfl

/-- Settles O36: the two errors, and the provider of a number up to 2. -/
theorem engSetprovRegistersTheProvider : Obligations.EngSetprovRegistersTheProvider := by
  unfold Obligations.EngSetprovRegistersTheProvider
  refine ⟨decode_encode .engSetprov, fun s => ⟨execEngSetprov_refused, execEngSetprov_rejected, ?_⟩⟩
  intro p hrun hconf hp
  rw [execEngSetprov_admitted hrun hconf (hp ▸ prov_code_le p), prov_ofWord_code hp]

/-- Settles O38: the refusal, and a draw that fails. -/
theorem engStartErrorsCallNoProvider : Obligations.EngStartErrorsCallNoProvider := by
  unfold Obligations.EngStartErrorsCallNoProvider
  refine fun s => ⟨execEngStart_refused, fun hrun hconf hprov hclaim => ?_⟩
  rw [execEngStart_draws hrun hconf hprov, hclaim]
  rfl

/-- Settles O37: a draw that succeeds, then the two fills (`fill_frame`) and the start of the output. -/
theorem engStartPrefillsThenEnables : Obligations.EngStartPrefillsThenEnables := by
  unfold Obligations.EngStartPrefillsThenEnables
  refine ⟨decode_encode .engStart, ?_⟩
  rintro s s₀ s₁ hrun hconf hprov hclaim rfl rfl
  refine ⟨(startOutput (fill .b1 (fill .b0 s.tookClaim))).setErr .ok, ?_, rfl, rfl, rfl, ?_⟩
  · rw [execEngStart_draws hrun hconf hprov, hclaim]
    rfl
  · obtain ⟨_, _, _, h0⟩ := fill_frame .b0 s.tookClaim
    obtain ⟨_, _, _, h1⟩ := fill_frame .b1 (fill .b0 s.tookClaim)
    rw [h1, h0]
    rfl

/-- Settles O39: the silence level of the session's wrap, if there is a session. -/
theorem engStopSilencesAndHalts : Obligations.EngStopSilencesAndHalts := by
  unfold Obligations.EngStopSilencesAndHalts
  refine ⟨decode_encode .engStop, fun s v hv => ?_⟩
  obtain rfl := eq_silence (Nat.le_of_lt_succ s.sess.wrap.isLt) hv
  show execEngStop s = _
  unfold execEngStop
  cases s.sess.configured <;> rfl

/-- Settles O40: the counter is reported, and no session has counted any. -/
theorem engUnderrunsReadsTheCounter : Obligations.EngUnderrunsReadsTheCounter := by
  unfold Obligations.EngUnderrunsReadsTheCounter
  refine ⟨decode_encode .engUnderruns, fun s => ⟨rfl, rfl, ?_⟩⟩
  rintro ⟨_, _, _, _, hs, _⟩ hconf
  obtain ⟨_, _, _, hunder⟩ := (sessionOk_unset hconf).mp hs
  exact hunder

end Sys2Proof.Machine

namespace Sys2Proof.Machine

/-! The providers. -/

theorem request_none {s : State} (max : Nat) (h : s.eng.prov = .none) : request max s = ⟨0, [], s⟩ := by
  unfold request
  rw [h]

theorem request_external {s : State} (max : Nat) (h : s.eng.prov = .external) :
    request max s = askExternal max s := by
  unfold request
  rw [h]

theorem nextAnswer_queued {s : State} {a : Answer} {l : List Answer} (h : s.env.answers = a :: l) :
    s.nextAnswer = a := by
  unfold State.nextAnswer
  rw [h]

theorem nextAnswer_unqueued {s : State} (h : s.env.answers = []) :
    s.nextAnswer = ⟨Config.freeCount s.env.drawn, []⟩ := by
  unfold State.nextAnswer
  rw [h]

/-- A frame the answer gives is used as it is (42_engine.md R191). -/
theorem answerFrame_given {s : State} {i : Nat} {f : Frame} (h : s.nextAnswer.frames[i]? = some f) :
    s.answerFrame i = f := by
  unfold State.answerFrame
  rw [h]

theorem lt_clampCount_iff {i : Nat} {k0 : Int} {max : Nat} : i < clampCount k0 max ↔ (i : ℤ) < min k0 max := by
  unfold clampCount
  omega

theorem askExternal_pcm {max i : Nat} {s : State} (h : (i : ℤ) < min s.nextAnswer.count.toInt max) :
    (askExternal max s).pcm[i]? = some (s.answerFrame i) := by
  simp [askExternal, lt_clampCount_iff.mpr h]

/-- Settles O44: the absent provider, and the external one with and without an answer queued. -/
theorem providerAnswers : Obligations.ProviderAnswers := by
  unfold Obligations.ProviderAnswers
  refine fun s max => ⟨request_none max, fun hprov => ?_⟩
  rw [request_external max hprov]
  refine ⟨rfl, fun a l hl => ?_, fun hnil => ?_⟩
  · obtain rfl := nextAnswer_queued hl
    exact ⟨rfl, fun i f hf hi => (askExternal_pcm hi).trans (congrArg some (answerFrame_given hf))⟩
  · show s.nextAnswer.count.toInt = _
    rw [nextAnswer_unqueued hnil]

theorem drainRing_absent {s : State} (max : Nat) (hp : s.ring.present = false) : drainRing max s = ⟨0, [], s⟩ :=
  if_neg (by simp [hp])

theorem drainRing_present {s : State} (max : Nat) (hp : s.ring.present = true) :
    drainRing max s =
      { count := s.drainCount max
        pcm := (List.range (s.drainCount max)).map (s.ring.frameAt s.sess.nch)
        after := { s with ring := { s.ring with
          rd := s.ring.advance s.ring.rd (s.drainCount max * frameBytes s.sess.nch.toNat) } } } :=
  if_pos hp

/-- The bytes of a frame the ring-drain provider takes are waiting bytes (42_engine.md R190). -/
theorem drain_frame_end {s : State} {max i : Nat} (hi : i < s.drainCount max) :
    frameBytes s.sess.nch.toNat * i + frameBytes s.sess.nch.toNat ≤ s.ring.used :=
  calc _ = (i + 1) * frameBytes s.sess.nch.toNat := by ring
    _ ≤ s.drainCount max * frameBytes s.sess.nch.toNat := Nat.mul_le_mul_right _ hi
    _ ≤ s.ring.used := drainCount_bytes_le max s

/-- A sample is little-endian (20_memory.md R61). -/
theorem sampleOfBytes_toNat (lo hi : Byte) : (sampleOfBytes lo hi).toNat = hi.toNat * 256 + lo.toNat := by
  have hlo := lo.isLt
  rw [sampleOfBytes, BitVec.toNat_append, ← Nat.shiftLeft_add_eq_or_of_lt hlo, Nat.shiftLeft_eq]

/-- A sample is read from two waiting bytes, the low one first (42_engine.md R190). -/
theorem sampleAt_content {r : Ring} {off : Nat} (h : off + 1 < r.used) :
    ∃ lo hi : Byte, r.content[off]? = some lo ∧ r.content[off + 1]? = some hi ∧
      (r.sampleAt off).toNat = hi.toNat * 256 + lo.toNat :=
  ⟨_, _, content_getElem? (by omega), content_getElem? h, sampleOfBytes_toNat _ _⟩

/-- Settles O43: the waiting bytes by `content_consume`, each frame's samples by `sampleAt_content`. -/
theorem drainTakesWholeFramesInOrder : Obligations.DrainTakesWholeFramesInOrder := by
  unfold Obligations.DrainTakesWholeFramesInOrder
  rintro s max k fb hok hnch rfl rfl
  refine ⟨drainRing_absent max, fun hp => ?_⟩
  rw [drainRing_present max hp]
  refine ⟨rfl, by simp [State.drainCount, frameBytes], content_consume hok hp (drainCount_bytes_le max s), rfl, ?_⟩
  intro i f hf
  obtain ⟨hi, rfl⟩ := List.getElem?_eq_some_iff.mp hf
  simp only [List.length_map, List.length_range] at hi
  simp only [List.getElem_map, List.getElem_range]
  have hend := drain_frame_end hi
  simp only [frameBytes] at hend
  refine ⟨sampleAt_content (off := 2 * s.sess.nch.toNat * i) ?_, fun h2 => ?_⟩
  · have hn : 1 ≤ s.sess.nch.toNat := by rcases hnch with e | e <;> simp [e]
    omega
  · have hch1 : (s.ring.frameAt s.sess.nch i).ch1 = s.ring.sampleAt (2 * s.sess.nch.toNat * i + 2) := if_pos h2
    have hn : s.sess.nch.toNat = 2 := by rw [h2]; rfl
    rw [hch1]
    exact sampleAt_content (by omega)

/-! The fill routine. -/

/-- A fill's count as an integer (42_engine.md R170). -/
theorem fillCount_eq {s : State} {k : Nat}
    (hk : (k : ℤ) = min (max (request s.cfg.batch s).count 0) s.cfg.batch) : fillCount s = k := by
  unfold fillCount clampCount
  omega

/-- A list padded with its last element, or a default if it has none, holds that value from its own last place on. -/
theorem padded_getElem? {α : Type} (l : List α) (d : α) {m i : Nat} (hlast : l.length ≤ i + 1)
    (hi : i < l.length + m) : (l ++ List.replicate m (l.getLastD d))[i]? = some (l.getLastD d) := by
  rcases Nat.lt_or_ge i l.length with hlt | hge
  · obtain rfl : i = l.length - 1 := by omega
    rw [List.getElem?_append_left hlt, List.getLastD_eq_getLast?, List.getLast?_eq_getElem?,
      List.getElem?_eq_getElem hlt, Option.getD_some]
  · rw [List.getElem?_append_right hge, List.getElem?_replicate_of_lt (by omega)]

/-- The places below the count hold the levels of the frames (42_engine.md R170). -/
theorem fillBank_converted {s : State} {i : Nat} {f : Frame} (hi : i < fillCount s)
    (hf : (request s.cfg.batch s).pcm[i]? = some f) :
    (fillBank s).left[i]? = some (leftLevel s.sess.wrap.toNat f) ∧
      (fillBank s).right[i]? = some (rightLevel s.sess.wrap.toNat s.sess.nch f) := by
  have hleft : i < (fillLefts s).length := by rwa [fillLefts_length]
  have hright : i < (fillRights s).length := by rwa [fillRights_length]
  simp only [fillBank, List.getElem?_append_left hleft, List.getElem?_append_left hright]
  simp [fillLefts, fillRights, hi, hf]

/-- From the last converted level on a buffer repeats LAST (42_engine.md R170). -/
theorem fillBank_padded {s : State} {i : Nat} (hlast : fillCount s ≤ i + 1) (hi : i < s.cfg.batch) :
    (fillBank s).left[i]? = some (fillLast s).left ∧ (fillBank s).right[i]? = some (fillLast s).right := by
  have hleft := fillLefts_length s
  have hright := fillRights_length s
  exact ⟨padded_getElem? _ _ (by omega) (by omega), padded_getElem? _ _ (by omega) (by omega)⟩

/-- A fill that gets no frames leaves LAST as it was (42_engine.md R170). -/
theorem fillLast_of_none {s : State} (h : fillCount s = 0) : fillLast s = s.eng.last := by
  have hleft : fillLefts s = [] := List.eq_nil_of_length_eq_zero ((fillLefts_length s).trans h)
  have hright : fillRights s = [] := List.eq_nil_of_length_eq_zero ((fillRights_length s).trans h)
  simp [fillLast, hleft, hright]

theorem fill_last (b : Slot) (s : State) : (fill b s).eng.last = fillLast s := by cases b <;> rfl

theorem fill_underrun (b : Slot) (s : State) : (fill b s).eng.underrun = fillUnderrun s := by cases b <;> rfl

theorem fill_bank_self (b : Slot) (s : State) : (fill b s).eng.bank b = fillBank s := bank_setBank_self _ _ _

/-- Settles O42: the buffer's places by `fillBank_converted` and `fillBank_padded`; a provider gives the frames asked
for (`request_length`). -/
theorem fillConvertsAndPads : Obligations.FillConvertsAndPads := by
  unfold Obligations.FillConvertsAndPads
  rintro b s q k rfl hk
  obtain rfl := fillCount_eq hk
  have hle := fillCount_le s
  obtain ⟨hlenL, hlenR⟩ := fillBank_length s
  rw [fill_bank_self, fill_last, fill_underrun]
  exact ⟨request_length _ s, fun i f => fillBank_converted, fun hpos => fillBank_padded (by omega) (by omega),
    fillLast_of_none, fun i hi => fillBank_padded (Nat.le_succ_of_le hi), hlenL, hlenR, fill_bank_other b s, rfl, rfl⟩

end Sys2Proof.Machine

namespace Sys2Proof.Machine

/-! The turns of the sample clock and of the interrupt context. -/

theorem step_tick {s : State} {rest : List Turn} (h : s.env.sched = .tick :: rest) :
    step s = .next (clockTurn (s.setSched rest)) := by
  unfold step nextTurn
  rw [h]
  rfl

theorem step_irq {s : State} {rest : List Turn} (h : s.env.sched = .irq :: rest) :
    step s = .next (interruptStep (s.setSched rest)) := by
  unfold step nextTurn
  rw [h]
  rfl

section
variable {s : State}

/-- A tick with a transfer armed, at an element of the playing buffer (42_engine.md R200). -/
theorem clockTurn_armed (hout : s.eng.outEn = true) (harm : s.eng.armed = true) {l r : Level}
    (hl : (s.eng.bank s.eng.playIdx).left[s.eng.dmaIdx]? = some l)
    (hr : (s.eng.bank s.eng.playIdx).right[s.eng.dmaIdx]? = some r) :
    clockTurn s = { s with
      eng := { s.eng with
        out := ⟨l, r⟩
        dmaIdx := s.eng.dmaIdx + 1
        armed := if s.eng.dmaIdx + 1 = s.cfg.batch then false else s.eng.armed
        irqPend := if s.eng.dmaIdx + 1 = s.cfg.batch then true else s.eng.irqPend } } := by
  have hnext : s.eng.nextOut = ⟨l, r⟩ := by simp [Engine.nextOut, hl, hr]
  rw [clockTurn, if_pos hout, tick, if_pos harm, hnext]
  by_cases hlast : s.eng.dmaIdx + 1 = s.cfg.batch <;> simp [hlast, harm]

/-- A gap tick, and a tick that is not enabled (42_engine.md R200, log entry 12). -/
theorem clockTurn_idle (h : s.eng.outEn = false ∨ s.eng.armed = false) : clockTurn s = s := by
  unfold clockTurn tick
  rcases h with hout | harm
  · exact if_neg (by simp [hout])
  · rw [if_neg (c := s.eng.armed = true) (by simp [harm]), ite_self]

theorem interruptStep_entry (hin : s.eng.inHandler = false) (hpend : s.eng.irqPend = true)
    (hrun : s.eng.running = true) : interruptStep s = interruptEntry s :=
  (if_neg (by simp [hin])).trans (if_pos (by simp [State.entryEnabled, hin, hpend, hrun]))

theorem interruptStep_idle (hin : s.eng.inHandler = false)
    (h : s.eng.irqPend = false ∨ s.eng.running = false) : interruptStep s = s :=
  (if_neg (by simp [hin])).trans (if_neg (by rcases h with h | h <;> simp [State.entryEnabled, h]))

theorem interruptStep_handler (hin : s.eng.inHandler = true) :
    interruptStep s = interruptReturn (fill s.eng.fillTgt s) := if_pos hin

end

theorem other_eq_ite (b : Slot) : b.other = if b = .b0 then .b1 else .b0 := by cases b <;> rfl

/-- Settles O45: an armed tick and an idle one, on the state whose turn is taken. -/
theorem tickPlaysOneElement : Obligations.TickPlaysOneElement := by
  unfold Obligations.TickPlaysOneElement
  intro s rest hs
  rw [step_tick hs]
  refine ⟨fun hout harm l r hl hr => ?_, fun h => ?_⟩
  · rw [clockTurn_armed (s := s.setSched rest) hout harm hl hr]
    rfl
  · rw [clockTurn_idle (s := s.setSched rest) h]
    rfl

/-- Settles O46: completion entry, and the interrupt context with nothing to do. -/
theorem completionEntryRearmsAndFlips : Obligations.CompletionEntryRearmsAndFlips := by
  unfold Obligations.CompletionEntryRearmsAndFlips
  intro s rest hs hin
  rw [step_irq hs, ← other_eq_ite]
  refine ⟨fun hpend hrun => ?_, fun h => ?_⟩
  · rw [interruptStep_entry (s := s.setSched rest) hin hpend hrun]
    rfl
  · rw [interruptStep_idle (s := s.setSched rest) hin h]
    rfl

/-- Settles O47: completion fill is the fill and the return. -/
theorem completionFillReturns : Obligations.CompletionFillReturns := by
  unfold Obligations.CompletionFillReturns
  rintro s u rest hs hin rfl
  rw [step_irq hs, interruptStep_handler (s := s.setSched rest) hin]
  rfl

/-- Settles O51: a stopped engine has its output disabled and no handler in progress (`engineOk_stopped`). -/
theorem stoppedEngineStaysQuiet : Obligations.StoppedEngineStaysQuiet := by
  unfold Obligations.StoppedEngineStaysQuiet
  rintro s turn rest ⟨_, _, _, _, _, hengine, _⟩ hrun hs hturn
  obtain ⟨hout, _, _, _, hin⟩ := engineOk_stopped hengine hrun
  rcases hturn with rfl | rfl
  · rw [step_tick hs, clockTurn_idle (s := s.setSched rest) (.inl hout)]
    rfl
  · rw [step_irq hs, interruptStep_idle (s := s.setSched rest) hin (.inr hrun)]
    rfl

end Sys2Proof.Machine

namespace Sys2Proof.Machine

/-! What a whole turn's command reports, and what it leaves unchanged when it reports an error. -/

/-- The codes a command can report (60_exceptions.md R222). -/
def reportable (i : Instr) : List ErrCode :=
  match i with
  | .rbInit => [.ok, .state, .config, .alloc]
  | .rbWrite | .rbRead => [.ok, .state, .bus]
  | .rbClear | .rbDestroy => [.ok, .state]
  | .fit => [.ok, .config]
  | .engInit | .engSetprov => [.ok, .state, .config]
  | .engStart => [.ok, .state, .resource]
  | .nop | .rbUsed | .rbFree | .rateSet | .rateApply | .engStop | .engUnderruns | .engRate => [.ok]

theorem ok_mem_reportable (i : Instr) : .ok ∈ reportable i := by cases i <;> exact List.mem_cons_self

/-- How a command issued in state `s` ends on a whole turn, by what it reports (60_exceptions.md R223). -/
inductive WholeEnd (i : Instr) (s : State) : State → Prop where
  /-- The command reports success. -/
  | succeeded {t : State} (h : t.err = .ok) : WholeEnd i s t
  /-- The command reports a listed code, and has done nothing else but draw. -/
  | failed {e : ErrCode} (he : e ∈ reportable i) (alloc claim : List Bool) (drawn : Nat) :
      WholeEnd i s { s with err := e, env := { s.env with alloc := alloc, claim := claim, drawn := drawn } }
  /-- RB.WRITE met a refused source byte (40_ring_buffer.md R102). -/
  | writeBus (hi : i = .rbWrite) (bytes : List Byte) (drawn : Nat) :
      WholeEnd i s { s with
        err := .bus, ring := { s.ring with bytes := bytes }, job := none, env := { s.env with drawn := drawn } }
  /-- RB.READ met a refused destination byte (40_ring_buffer.md R103). -/
  | readBus (hi : i = .rbRead) (mem : Memory) : WholeEnd i s { s with err := .bus, mem := mem, job := none }

theorem WholeEnd.err_mem {i : Instr} {s t : State} (h : WholeEnd i s t) : t.err ∈ reportable i := by
  cases h with
  | succeeded h => exact h ▸ ok_mem_reportable i
  | failed he => exact he
  | writeBus hi => subst hi; exact (by decide : ErrCode.bus ∈ reportable .rbWrite)
  | readBus hi => subst hi; exact (by decide : ErrCode.bus ∈ reportable .rbRead)

/-- A command answers a next state, which on a whole turn is one of its ends. -/
def Answers (i : Instr) (s : State) (o : Out) : Prop := ∃ t, o = .next t ∧ (s.env.phased = false → WholeEnd i s t)

section
variable {i : Instr} {s : State}

theorem answers_done (u : State) : Answers i s (done u) := ⟨_, rfl, fun _ => .succeeded rfl⟩

theorem answers_raise {e : ErrCode} (he : e ∈ reportable i) : Answers i s (raise e s) :=
  ⟨_, rfl, fun _ => .failed he s.env.alloc s.env.claim s.env.drawn⟩

theorem answers_cond {c : Prop} [Decidable c] {o o' : Out} (h : c → Answers i s o) (h' : ¬ c → Answers i s o') :
    Answers i s (if c then o else o') := by
  split
  · exact h ‹_›
  · exact h' ‹_›

theorem answers_ite {c : Prop} [Decidable c] {o o' : Out} (h : Answers i s o) (h' : Answers i s o') :
    Answers i s (if c then o else o') := answers_cond (fun _ => h) fun _ => h'

/-- A ring command takes its SNAPSHOT on a phase turn; on a whole turn its end decides. -/
theorem answers_ringStart {j : RingJob}
    (h : s.env.phased = false → ∃ t, ringStart j s = .next t ∧ WholeEnd i s t) : Answers i s (ringStart j s) := by
  cases hph : s.env.phased with
  | true => exact ⟨_, ringStart_phased j hph, fun hwhole => absurd (hph.symm.trans hwhole) (by decide)⟩
  | false =>
    obtain ⟨t, hstart, hend⟩ := h hph
    exact ⟨t, hstart, fun _ => hend⟩

end

/-- A range of bytes is admitted in whole, or has a first refused byte. -/
theorem admitted_or_first_refused (p : Config.Params) (addr : Word) (n : Nat) :
    (∀ i < n, admits p (busByte addr i) = true) ∨
      ∃ k < n, (∀ i < k, admits p (busByte addr i) = true) ∧ admits p (busByte addr k) = false := by
  induction n with
  | zero => exact .inl fun i hi => absurd hi (Nat.not_lt_zero i)
  | succ n ih =>
    rcases ih with hall | ⟨k, hk, hbefore, hrefused⟩
    · cases hlast : admits p (busByte addr n) with
      | true => exact .inl (Nat.forall_lt_succ_right.mpr ⟨hall, hlast⟩)
      | false => exact .inr ⟨n, Nat.lt_succ_self n, hall, hlast⟩
    · exact .inr ⟨k, Nat.lt_succ_of_lt hk, hbefore, hrefused⟩

/-- RB.WRITE from its SNAPSHOT on: the PUBLISH, or the storage it has spoilt before a refused byte. -/
theorem answers_writeJob {s : State} (hp : s.ring.present = true) : Answers .rbWrite s (ringStart (writeJob s) s) := by
  refine answers_ringStart fun hph => ?_
  rw [← execRbWrite_admitted hp]
  rcases admitted_or_first_refused s.cfg s.args.a0 (writeJob s).total with hall | ⟨n, hn, hbefore, hrefused⟩
  · exact ⟨_, execRbWrite_published hp hph hall, .succeeded rfl⟩
  · have hbus := execRbWrite_bus hp hph hn hbefore hrefused
    obtain ⟨hframe, _, _⟩ := (copied_differsWithin s.ring s.ring.wr s.sourceByte n).trans
      (smear_differsWithin _ s.ring.wr s.env.drawn n)
    rw [hframe] at hbus
    exact ⟨_, hbus, .writeBus rfl _ _⟩

/-- RB.READ from its SNAPSHOT on: the PUBLISH, or the bytes it has stored before a refused one. -/
theorem answers_readJob {s : State} (hp : s.ring.present = true) (hd : s.draining = false) :
    Answers .rbRead s (ringStart (readJob s) s) := by
  refine answers_ringStart fun hph => ?_
  rw [← execRbRead_admitted hp hd]
  rcases admitted_or_first_refused s.cfg s.args.a0 (readJob s).total with hall | ⟨n, hn, hbefore, hrefused⟩
  · exact ⟨_, execRbRead_published hp hd hph hall, .succeeded rfl⟩
  · exact ⟨_, execRbRead_bus hp hd hph hn hbefore hrefused, .readBus rfl _⟩

theorem answers_fit (s : State) : Answers .fit s (execFit s) := by
  unfold execFit
  cases fit s.cfg s.args.a0.toNat s.args.a1.toNat with
  | none => exact answers_raise (by decide)
  | some c => exact answers_done _

theorem answers_engInit (s : State) : Answers .engInit s (execEngInit s) := by
  refine answers_ite (answers_raise (by decide)) (answers_ite (answers_raise (by decide))
    (answers_ite (answers_raise (by decide)) ?_))
  cases fit s.cfg s.args.a2.toNat s.cfg.sysClkHz with
  | none => exact answers_raise (by decide)
  | some c => exact answers_done _

/-- Every command, by the branches of its pseudocode. -/
theorem exec_answers (i : Instr) (s : State) : Answers i s (exec i s) := by
  cases i with
  | rbInit =>
    refine answers_ite (answers_raise (by decide)) (answers_ite (answers_raise (by decide))
      (answers_ite (answers_done _) ?_))
    exact ⟨_, rfl, fun _ => .failed (e := .alloc) (by decide) _ s.env.claim _⟩
  | rbWrite => exact answers_cond answers_writeJob fun _ => answers_raise (by decide)
  | rbRead =>
    refine answers_cond (fun _ => answers_raise (by decide)) fun hp => ?_
    refine answers_cond (fun _ => answers_raise (by decide)) fun hd => ?_
    exact answers_readJob (by simpa using hp) (by simpa using hd)
  | rbClear =>
    exact answers_ite (answers_raise (by decide)) (answers_ite (answers_raise (by decide)) (answers_done _))
  | rbDestroy => exact answers_ite (answers_done _) (answers_ite (answers_raise (by decide)) (answers_done _))
  | fit => exact answers_fit s
  | engInit => exact answers_engInit s
  | engSetprov =>
    exact answers_ite (answers_raise (by decide)) (answers_ite (answers_raise (by decide)) (answers_done _))
  | engStart =>
    refine answers_ite (answers_raise (by decide)) (answers_ite (answers_raise (by decide))
      (answers_ite (answers_done _) ?_))
    exact ⟨_, rfl, fun _ => .failed (e := .resource) (by decide) s.env.alloc _ _⟩
  | rateSet =>
    obtain ⟨v, hscale⟩ : ∃ v, scaleOf s.cfg s.args.a0.toNat = v := ⟨_, rfl⟩
    show Answers _ _ (execRateSet s)
    rw [execRateSet_of_scale hscale]
    exact answers_done _
  | nop | rbUsed | rbFree | rateApply | engStop | engUnderruns | engRate => exact answers_done _

theorem exec_wholeEnd {i : Instr} {s t : State} (hph : s.env.phased = false) (h : exec i s = .next t) :
    WholeEnd i s t := by
  obtain ⟨u, hu, hend⟩ := exec_answers i s
  obtain rfl : u = t := by simpa using hu.symm.trans h
  exact hend hph

/-- Settles O54, by the ends of a whole turn's command (`WholeEnd`). -/
theorem errorsChangeNothingElse : Obligations.ErrorsChangeNothingElse := by
  unfold Obligations.ErrorsChangeNothingElse
  intro i s t hph h herr
  cases exec_wholeEnd hph h with
  | succeeded hok => exact absurd hok herr
  | failed => exact ⟨rfl, fun hne => absurd rfl hne, fun hne => absurd rfl hne, fun hne => absurd rfl hne⟩
  | writeBus hi => exact ⟨rfl, fun hne => absurd rfl hne, fun _ => ⟨hi, rfl⟩, fun _ => ⟨rfl, rfl⟩⟩
  | readBus hi => exact ⟨rfl, fun _ => ⟨hi, rfl⟩, fun hne => absurd rfl hne, fun _ => ⟨rfl, rfl⟩⟩

/-- Settles O55: the code of each end is in the command's row of the table. -/
theorem errorsEachCommandCanRaise : Obligations.ErrorsEachCommandCanRaise := by
  unfold Obligations.ErrorsEachCommandCanRaise
  intro i s t hph h
  have hmem := (exec_wholeEnd hph h).err_mem
  cases i <;> exact hmem

/-- No command changes a parameter (00_scope.md R7). -/
theorem exec_cfg {i : Instr} {s t : State} (h : exec i s = .next t) : t.cfg = s.cfg := by
  cases exec_end h with
  | report hr => obtain ⟨_, _, _, rfl⟩ := hr; rfl
  | write _ hstart => obtain ⟨_, _, _, _, _, _, _, _, rfl⟩ := ringStart_frame hstart; rfl
  | read _ _ hstart => obtain ⟨_, _, _, _, _, _, _, _, rfl⟩ := ringStart_frame hstart; rfl
  | started =>
    show (fill .b1 (fill .b0 s.tookClaim)).cfg = s.cfg
    rw [fill_cfg, fill_cfg, tookClaim_cfg]
  | allocFailed | allocated | cleared | destroyed | session | provider | claimFailed | stopped => rfl

/-- Settles O53: a command answers a next state (`exec_answers`), with the same parameters. -/
theorem everyCommandCompletes : Obligations.EveryCommandCompletes := by
  unfold Obligations.EveryCommandCompletes
  intro i s
  obtain ⟨t, ht, _⟩ := exec_answers i s
  exact ⟨t, ht, exec_cfg ht⟩

end Sys2Proof.Machine

namespace Sys2Proof.Machine

/-! A tick and completion entry, in either order. -/

/-- Two steps of a run. -/
theorem run_two {s t u : State} (h : step s = .next t) (h' : step t = .next u) :
    Host.Core.run Sys2Proof.core 2 s = .next u := by
  simp only [Host.Core.run, Sys2Proof.core, h, h']

/-- A pending completion belongs to a running engine with its output enabled and no transfer armed
(42_engine.md R201, R202). -/
theorem engineOk_pending {s : State} (h : s.EngineOk) (hpend : s.eng.irqPend = true) :
    s.eng.running = true ∧ s.eng.outEn = true ∧ s.eng.armed = false := by
  obtain ⟨hout, _, _, _, hpending, _⟩ := h
  obtain ⟨hrun, harm⟩ := hpending hpend
  exact ⟨hrun, hout.trans hrun, harm⟩

theorem step_gapTick {s : State} {rest : List Turn} (hs : s.env.sched = .tick :: rest)
    (harm : s.eng.armed = false) : step s = .next (s.setSched rest) := by
  rw [step_tick hs, clockTurn_idle (s := s.setSched rest) (.inr harm)]

theorem step_entry {s : State} {rest : List Turn} (hs : s.env.sched = .irq :: rest) (hin : s.eng.inHandler = false)
    (hpend : s.eng.irqPend = true) (hrun : s.eng.running = true) :
    step s = .next (interruptEntry (s.setSched rest)) := by
  rw [step_irq hs, interruptStep_entry (s := s.setSched rest) hin hpend hrun]

/-- Settles O49: the tick before completion entry is a gap tick, the one after it finds element 0 of the other buffer
armed. -/
theorem tickAndEntryInEitherOrder : Obligations.TickAndEntryInEitherOrder := by
  unfold Obligations.TickAndEntryInEitherOrder
  rintro s l r rest ⟨_, _, _, _, _, hengine, _⟩ hpend hin hl hr
  obtain ⟨hrun, hout, harm⟩ := engineOk_pending hengine hpend
  refine ⟨fun hs => ?_, fun hs => ?_⟩
  · have hentry := step_entry (s := s.setSched (.irq :: rest)) rfl hin hpend hrun
    exact ⟨_, run_two (step_gapTick hs harm) hentry, rfl, rfl, rfl⟩
  · have htick := step_tick (s := interruptEntry (s.setSched (.tick :: rest))) rfl
    rw [clockTurn_armed (s := (interruptEntry (s.setSched (.tick :: rest))).setSched rest) hout rfl hl hr] at htick
    exact ⟨_, run_two (step_entry hs hin hpend hrun) htick, rfl, rfl, rfl⟩

end Sys2Proof.Machine

namespace Sys2Proof.Machine

/-! The reset values (70_reset_and_hazards.md R260), for every choice of what is not the block's. -/

@[simp] theorem unset_cfgWord : Session.unset.cfgWord = 0 := by decide

@[simp] theorem stereo_word_zero : (⟨0, 0⟩ : Stereo).word = 0 := by decide

section
variable (cfg : Config.Params) (mem : Memory) (env : Env)

@[simp] theorem initial_statusWord : (State.initial cfg mem env).statusWord = 0 := by
  -- STATUS does not depend on what is not the block's, so the machine right after reset decides it.
  have hclosed : State.reset.statusWord = 0 := by decide
  exact hclosed

theorem initial_bank (b : Slot) :
    (State.initial cfg mem env).eng.bank b = ⟨List.replicate cfg.batch 0, List.replicate cfg.batch 0⟩ := by
  cases b <;> rfl

/-- RATE_SCALE is the only register that does not reset to 0. -/
theorem initial_readReg (off : BitVec 8) :
    (State.initial cfg mem env).readReg off = if off = 0x50 then 65536 else 0 := by
  split
  case isTrue h => subst h; rfl
  case isFalse h =>
    unfold State.readReg
    split
    case h_1 => exact initial_statusWord cfg mem env
    case h_14 => exact unset_cfgWord
    case h_20 hoff => exact absurd (BitVec.eq_of_toNat_eq hoff) h
    case h_21 => exact stereo_word_zero
    all_goals rfl

end

/-- The reset values meet the invariant wherever the parameters and system memory are well-formed. -/
theorem initial_inv {cfg : Config.Params} {mem : Memory} (hcfg : cfg.wf = true) (hmem : mem.wf = true) (env : Env) :
    (State.initial cfg mem env).Inv := by
  have hbank : (Bank.fillWith cfg.batch ⟨0, 0⟩).Ok cfg.batch Session.unset.wrap :=
    bank_fillWith_ok (Nat.zero_le _) (Nat.zero_le _)
  exact ⟨hcfg, hmem, absent_ok, jobOk_idle rfl, (sessionOk_unset rfl).mpr ⟨rfl, rfl, rfl, rfl⟩,
    engineOk_of_stopped rfl rfl rfl rfl rfl rfl (Nat.zero_le _),
    levelsOk_iff.mpr ⟨hbank, hbank, ⟨Nat.zero_le _, Nat.zero_le _⟩, Nat.zero_le _, Nat.zero_le _⟩⟩

/-- The parameters after reset meet the constraints of 00_scope.md R7, whatever the OPEN ones are: BATCH and the pins
are held to their bounds. -/
theorem platform_wf : Config.platform.wf = true := by
  have hbatch : 1 ≤ Config.platform.batch ∧ Config.platform.batch ≤ 65535 :=
    ⟨le_min (le_max_right _ _) (by decide), min_le_right _ _⟩
  have hpins : ∀ l r, (l, r) ∈ Config.platform.pins → l < 256 ∧ r < 256 := fun _ _ hq => by
    simpa using (List.mem_filter.mp hq).2
  obtain ⟨hlo, hhi⟩ := hbatch
  simpa [Config.Params.wf, hlo, hhi] using ⟨by decide, hpins⟩

theorem step_reset {s : State} {rest : List Turn} (h : s.env.sched = .reset :: rest) :
    step s = .next (State.initial s.cfg s.mem { s.env with sched := rest }) := by
  unfold step nextTurn
  rw [h]
  rfl

/-- Settles O6: the reset turn ends in `State.initial` on the same parameters, system memory and outside world. -/
theorem resetInputSetsEveryElement : Obligations.ResetInputSetsEveryElement := by
  unfold Obligations.ResetInputSetsEveryElement
  intro s rest h
  exact ⟨_, step_reset h, rfl, rfl, initial_statusWord _ _ _, rfl, rfl, rfl, rfl, stereo_word_zero, rfl, rfl, rfl, rfl,
    rfl, rfl, initial_bank _ _ _, rfl, rfl, rfl, rfl, initial_readReg _ _ _⟩

/-- Settles O7: `State.reset` is `State.initial` on the platform's parameters and an empty system memory. -/
theorem resetStateMeetsInvariant : Obligations.ResetStateMeetsInvariant := by
  unfold Obligations.ResetStateMeetsInvariant
  exact ⟨initial_inv platform_wf rfl _, rfl, initial_statusWord _ _ _, initial_readReg _ _ _⟩

end Sys2Proof.Machine
